-- ==== Sys2Proof/Word.lean ====
section
/-! DEFINITION. The word and byte types of the machine (`00_scope.md` R7, R13): every register, input,
output and memory word is a 16-bit vector, a memory cell holds 8 bits, and all register arithmetic is
modulo 2^16, which is the arithmetic of `BitVec`. -/

namespace Sys2Proof

/-- A 16-bit value: a register, an input, an output, a memory word or a byte address (R13). -/
abbrev Word := BitVec 16

/-- One memory cell's content (`10_state.md` R37). -/
abbrev Byte := BitVec 8

end Sys2Proof
end

