-- ==== Sys2Proof/Config.lean ====
section
/-! DEFINITION. The implementation parameters of `00_scope.md` R6 as plain data, with their defaults,
and the free values: opaque constants without a body, so that no proof can use what they are. -/

namespace Sys2Proof

/-- The two variants (R2, R6 `Variant`). -/
inductive Variant where
  | markII
  | markIIL
deriving DecidableEq, Repr

/-- What stands at an address (`20_memory.md` R68). -/
inductive RegionKind where
  | ram
  | rom
  | device
  | nothing
deriving DecidableEq, Repr

/-- One entry of `MemMap` (R6): the addresses `base` to `base + size - 1` are of kind `kind`. -/
structure Region where
  base : Nat
  size : Nat
  kind : RegionKind
deriving DecidableEq, Repr

/-- The width of an access (`20_memory.md` R55). -/
inductive Width where
  | byte
  | word
deriving DecidableEq, Repr

/-- Read or write (`20_memory.md` R56). -/
inductive Direction where
  | read
  | write
deriving DecidableEq, Repr

/-- The tag of an access, code or data (`20_memory.md` R55, R57). -/
inductive AccessKind where
  | code
  | data
deriving DecidableEq, Repr

/-- One memory access as the platform sees it (`20_memory.md` R56). -/
structure Access where
  addr : Word
  width : Width
  dir : Direction
  kind : AccessKind
deriving DecidableEq, Repr

/-- The parameter `DivMod` (R6, D9). `truncate` is the default; `openRounding` leaves free what
`43_arithmetic.md` R168 does not settle (log 13). -/
inductive DivModRule where
  | truncate
  | openRounding
deriving DecidableEq, Repr

/-- The parameter `MulCarry` (R6, D11). `unsignedProduct` is the default; `openCarry` leaves free what
`43_arithmetic.md` R167 does not settle (log 14). -/
inductive MulCarryRule where
  | unsignedProduct
  | openCarry
deriving DecidableEq, Repr

/-- The parameter `L_FR_I` (R6, D17): what FR[7:4] are on the SPU Mark II-L. -/
inductive LFrI where
  | reserved
  | storage
deriving DecidableEq, Repr

/-- The parameter `Env` (R6, D15) beyond the samples that the state's queue `pins` lists (log 5):
`unconstrained` is the default, any subset of the pins before each step, and `quiet` no pin at all. -/
inductive EnvRule where
  | unconstrained
  | quiet
deriving DecidableEq, Repr

/-- The pins that `Env` speaks of (`60_exceptions.md` R244). -/
inductive EnvPin where
  | rst
  | nmi
  | irq
deriving DecidableEq, Repr

/-- The parameters of R6, as plain data (log 4); `Env` is `env` together with the state's queue `pins`.
`MemMap` is the list `memMap`: the first region that holds an address gives its kind, and an address
in no region is RAM. `BusError` is the list `busErrors` of the accesses for which it answers true. -/
structure Params where
  variant : Variant
  memMap : List Region
  busErrors : List Access
  divMod : DivModRule
  mulCarry : MulCarryRule
  lFrI : LFrI
  env : EnvRule
deriving DecidableEq, Repr

/-- The defaults of R6, for a given variant. -/
def Params.default (v : Variant) : Params :=
  { variant := v, memMap := [], busErrors := [], divMod := .truncate,
    mulCarry := .unsignedProduct, lFrI := .reserved, env := .unconstrained }

/-- The kind of the region an address lies in (R6 `MemMap`; an address in no region is RAM). -/
def kindIn : List Region → Nat → RegionKind
  | [], _ => .ram
  | r :: rest, a => if r.base ≤ a ∧ a < r.base + r.size then r.kind else kindIn rest a

/-- `draw(u16)` of R17: the `n`-th free 16-bit value, under no law (log 7). -/
opaque Config.freeWord : Nat → Word

/-- What a byte of memory that nothing has written or loaded holds since power-on
(`93_implementation_defined.md` U1, U12; log 3). -/
opaque Config.powerOnByte : Nat → Byte

/-- The word a device answers to a read access, given the devices' state (`20_memory.md` R68; log 8). -/
opaque Config.deviceRead : Nat → Access → Word

/-- The devices' state after an access, given the state before, the access and the value read or
written (`20_memory.md` R68; log 8). -/
opaque Config.deviceNext : Nat → Access → Word → Nat

/-- What the devices keep when a bus error undoes an instruction: the `n`-th free device state, under no
law (`60_exceptions.md` R240; log 11). -/
opaque Config.deviceUndone : Nat → Nat

/-- Whether the environment signals a pin at the `n`-th sample that it gives freely
(`60_exceptions.md` R244; log 5). -/
opaque Config.pinSignalled : Nat → EnvPin → Bool

/-- Whether an inexact quotient whose rounding R168 leaves open is rounded up (log 13). -/
opaque Config.quotientRoundsUp : Word → Word → Bool

/-- Quotient and remainder of -32768 / -1 where R168 leaves them open (log 13). -/
opaque Config.overflowQuotient : Word × Word

/-- The carry of `MUL` where R167 leaves it open (log 14). -/
opaque Config.freeMulCarry : Word → Word → Bool

end Sys2Proof
end

