-- ==== Sys2Proof/Machine/State.lean ====
section
/-! DEFINITION. The machine's state as plain data: everything `10_state.md` R20 lists, the parameters of
`00_scope.md` R6, and the model's own fields for the pins, the free values and the devices; the reasons
a step can stop; and the state at power-on, which is the state after reset (R38; log 1). -/

namespace Sys2Proof.Machine

/-- Why a step stops: the spec's `raise Undefined(reason)` (`00_scope.md` R11). Each is safe: the spec
gives the situation no effect, and the model gives it no next state. -/
inductive Fault where
  /-- A word access at an odd address (`20_memory.md` R53), raised by every word access. Safe. -/
  | unaligned
  /-- A 1 in a reserved bit of `FR`, `IR`, `SP`, `BP` or `IP` (`10_state.md` R32, R34, R35), raised by
  `FRSET`, `SETIP`, `ADDIP`, `INTR`, `SPSET`, `BPSET` and the interrupt phase. Safe. -/
  | reservedBit
  /-- An instruction word with bit 15 set or a reserved command (`30_encoding.md` R89, R90), raised by
  the fetch. Safe. -/
  | reservedEncoding
  /-- A write to ROM without a bus error (`20_memory.md` R68), raised by every write. Safe. -/
  | writeToRom
  /-- An access where the memory map holds nothing (`20_memory.md` R68), raised by every access. Safe. -/
  | unmapped
  /-- A bus error in the interrupt phase or outside a memory operation, or on the SPU Mark II-L
  (`60_exceptions.md` R241, R247). Safe. -/
  | busErrorOutsideInstruction
  /-- `INTR` on the SPU Mark II-L, which has no `IR` (`45_control.md` R202). Safe. -/
  | noInterruptRegister
deriving DecidableEq, Repr

/-- Why a step is refused. -/
inductive Refusal where
  /-- The instruction has no meaning in the model, raised by `exec`'s arm alone. Safe. -/
  | notModelled (mnemonic : String)
deriving DecidableEq, Repr

/-- One sample of the pins, taken at the start of a step (`60_exceptions.md` R244): `rst`, `nmi` and
`irq` are `EnvBits()`; `bus` is the BUS pin signalled outside a memory operation (R241; log 6). -/
structure Pins where
  rst : Bool
  nmi : Bool
  irq : Bool
  bus : Bool
deriving DecidableEq, Repr

/-- No pin signalled. -/
def Pins.quiet : Pins := { rst := false, nmi := false, irq := false, bus := false }

/-- The memory: the bytes that have been written or loaded, by address, in one canonical form
(`Memory.wf`). -/
abbrev Memory := List Host.Cell

/-- The machine's state (`10_state.md` R20). `params`, `pins`, `samples`, `draws` and `device` are the
model's own fields (log 4, 5, 7, 8). -/
@[ext]
structure State where
  /-- Stack pointer (R22). -/
  sp : Word
  /-- Base pointer (R23). -/
  bp : Word
  /-- Instruction pointer (R24). -/
  ip : Word
  /-- Flag register (R26). -/
  fr : Word
  /-- Interrupt register (R33), of the SPU Mark II alone (log 17). -/
  ir : Word
  /-- Halted flag (R30). -/
  halted : Bool
  /-- Memory (R37). -/
  mem : Memory
  /-- The implementation parameters, which no step changes. -/
  params : Params
  /-- Pin samples to come, one a step; after the last one `params.env` gives the samples. -/
  pins : List Pins
  /-- How many free pin samples have been taken. -/
  samples : Nat
  /-- How many free words have been drawn. -/
  draws : Nat
  /-- The state of the platform's devices. -/
  device : Nat
deriving DecidableEq, Repr

/-- The state at power-on of a variant under the default parameters (`10_state.md` R38). On the SPU
Mark II `IR = 0x0001`, so that the first step performs the reset sequence; on the SPU Mark II-L
power-on counts as the reset (`70_reset_and_hazards.md` R261, D23). `SP`, `BP`, and on the SPU Mark II
`IP`, are undefined there: DESIGN CHOICE 0x0000, unsafe (log 2). -/
def State.powerOn (v : Variant) : State :=
  { sp := 0, bp := 0, ip := 0, fr := 0
    ir := match v with
      | .markII => 0x0001
      | .markIIL => 0
    halted := false, mem := [], params := Params.default v, pins := [], samples := 0, draws := 0
    device := 0 }

/-- The machine right after reset: the SPU Mark II at power-on, its reset pending (R38; log 1). -/
def State.reset : State := State.powerOn .markII

end Sys2Proof.Machine
end

