-- ==== Sys2Proof/Syntax.lean ====
section
/-! DEFINITION. The instructions: one constructor per row of spec/opcode_table.json, each with the
configuration part that every instruction has (`30_encoding.md` R81, `40_execution_cycle.md` R110).
An immediate is a word of memory that is fetched when the instruction executes (R116), so it is no
part of an instruction here (log 16). -/

namespace Sys2Proof

/-- The execution conditional `ex` (`30_encoding.md` R82), in the order of its codes 0 to 7. -/
inductive Condition where
  | always
  | zero
  | nonzero
  | greater
  | less
  | greaterEq
  | lessEq
  | overflow
deriving DecidableEq, Repr

/-- An input behaviour `i0` or `i1` (`30_encoding.md` R83), in the order of its codes 0 to 3. -/
inductive Input where
  | zero
  | imm
  | peek
  | pop
deriving DecidableEq, Repr

/-- The flag modification `f` (`30_encoding.md` R84). -/
inductive FlagMod where
  | no
  | yes
deriving DecidableEq, Repr

/-- The output behaviour `r` (`30_encoding.md` R85). -/
inductive OutputMode where
  | discard
  | push
deriving DecidableEq, Repr

/-- The configuration part of an instruction (`00_scope.md` R18, `40_execution_cycle.md` R110). -/
structure Conf where
  ex : Condition
  i0 : Input
  i1 : Input
  f : FlagMod
  r : OutputMode
deriving DecidableEq, Repr

/-- The 34 defined commands (`30_encoding.md` R88), each with its configuration. -/
inductive Instr where
  | copy (c : Conf)
  | get (c : Conf)
  | set (c : Conf)
  | store8 (c : Conf)
  | store16 (c : Conf)
  | load8 (c : Conf)
  | load16 (c : Conf)
  | cpuid (c : Conf)
  | halt (c : Conf)
  | frget (c : Conf)
  | frset (c : Conf)
  | bpget (c : Conf)
  | bpset (c : Conf)
  | spget (c : Conf)
  | spset (c : Conf)
  | add (c : Conf)
  | sub (c : Conf)
  | mul (c : Conf)
  | div (c : Conf)
  | mod (c : Conf)
  | and (c : Conf)
  | or (c : Conf)
  | xor (c : Conf)
  | not (c : Conf)
  | signext (c : Conf)
  | rol (c : Conf)
  | ror (c : Conf)
  | bswap (c : Conf)
  | asr (c : Conf)
  | lsl (c : Conf)
  | lsr (c : Conf)
  | setip (c : Conf)
  | addip (c : Conf)
  | intr (c : Conf)
deriving DecidableEq, Repr

/-- The configuration part of an instruction. -/
def Instr.conf : Instr → Conf
  | .copy c | .get c | .set c | .store8 c | .store16 c | .load8 c | .load16 c | .cpuid c | .halt c
  | .frget c | .frset c | .bpget c | .bpset c | .spget c | .spset c | .add c | .sub c | .mul c
  | .div c | .mod c | .and c | .or c | .xor c | .not c | .signext c | .rol c | .ror c | .bswap c
  | .asr c | .lsl c | .lsr c | .setip c | .addip c | .intr c => c

/-- How many of the two inputs are immediates (`30_encoding.md` R80). -/
def Conf.immediates (c : Conf) : Nat :=
  (if c.i0 = .imm then 1 else 0) + (if c.i1 = .imm then 1 else 0)

/-- The length of an instruction in bytes, 2, 4 or 6 (`30_encoding.md` R80). -/
def Instr.length (i : Instr) : Nat := 2 + 2 * i.conf.immediates

end Sys2Proof
end

