-- ==== Sys2Proof/Machine/Flags.lean ====
section
/-! DEFINITION. The flags of `FR` (`10_state.md` R26 to R29): their bits, the execution conditional
(`40_execution_cycle.md` R115), the carry in (`43_arithmetic.md` R171), the carry out of `ADD`, `SUB` and
`MUL` (R172), and the flag modification (`40_execution_cycle.md` R124). -/

namespace Sys2Proof.Machine

/-- `v` with bit `i` set to `b`. -/
def withBit (v : Word) (i : Nat) (b : Bool) : Word :=
  if b then v ||| ((1 : Word) <<< i) else v &&& ~~~((1 : Word) <<< i)

/-- Z, bit 0 of `FR`. -/
def zFlag (fr : Word) : Bool := fr.getLsbD 0

/-- N, bit 1 of `FR`. -/
def nFlag (fr : Word) : Bool := fr.getLsbD 1

/-- C, bit 2 of `FR`. -/
def cFlag (fr : Word) : Bool := fr.getLsbD 2

/-- CE, bit 3 of `FR`. -/
def ceFlag (fr : Word) : Bool := fr.getLsbD 3

/-- `CondHolds(ex, FR)` (`40_execution_cycle.md` R115). -/
def condHolds (ex : Condition) (fr : Word) : Bool :=
  match ex with
  | .always => true
  | .zero => zFlag fr
  | .nonzero => !zFlag fr
  | .greater => !zFlag fr && !nFlag fr
  | .less => nFlag fr
  | .greaterEq => zFlag fr || !nFlag fr
  | .lessEq => zFlag fr || nFlag fr
  | .overflow => cFlag fr

/-- `cin = FR.C & FR.CE` (`43_arithmetic.md` R171). -/
def carryIn (fr : Word) : Nat := if cFlag fr && ceFlag fr then 1 else 0

/-- `FR` with C written (`43_arithmetic.md` R172). -/
def setCarry (c : Bool) (s : State) : State := { s with fr := withBit s.fr 2 c }

/-- `FR` with Z and N written from an output (`40_execution_cycle.md` R124). -/
def flagsOf (output fr : Word) : Word :=
  withBit (withBit fr 0 (decide (output = 0))) 1 (output.getLsbD 15)

/-- The flag modification of an instruction (`40_execution_cycle.md` R124). -/
def modifyFlags (f : FlagMod) (output : Word) (s : State) : State :=
  match f with
  | .no => s
  | .yes => { s with fr := flagsOf output s.fr }

/-- The carry out of `ADD`: the virtual 17th bit of the sum (`43_arithmetic.md` R165). -/
def addCarry (a b : Word) (cin : Nat) : Bool := decide (65536 ≤ a.toNat + b.toNat + cin)

/-- The carry out of `SUB`: the borrow (`43_arithmetic.md` R166). -/
def subCarry (a b : Word) (cin : Nat) : Bool := decide (a.toNat < b.toNat + cin)

/-- `MulCarry` (`43_arithmetic.md` R167): the unsigned product reaches bit 16; under `openCarry` that is
settled only where an input is zero or both are non-negative, and free elsewhere (log 14). -/
def mulCarry (rule : MulCarryRule) (a b : Word) : Bool :=
  let overflows := decide (65536 ≤ a.toNat * b.toNat)
  match rule with
  | .unsignedProduct => overflows
  | .openCarry =>
    if a = 0 ∨ b = 0 then false
    else if a.toNat < 0x8000 ∧ b.toNat < 0x8000 then overflows
    else Config.freeMulCarry a b

end Sys2Proof.Machine
end

