-- ==== Sys2Proof/WellFormed.lean ====
section
/-! DEFINITION. Which instructions a variant has. Every value of every configuration field is legal
with every command (`30_encoding.md` R91), and the field types hold only the legal values, so the one
check left is the table's column of variants: `INTR` writes `IR`, which the SPU Mark II-L lacks
(`30_encoding.md` R92, `45_control.md` R202; log 18). -/

namespace Sys2Proof

/-- Whether an instruction belongs to a variant (spec/opcode_table.json, "variants"). -/
def Instr.wellFormed (v : Variant) : Instr → Bool
  | .intr _ => decide (v = .markII)
  | .copy _ | .get _ | .set _ | .store8 _ | .store16 _ | .load8 _ | .load16 _ | .cpuid _ | .halt _
  | .frget _ | .frset _ | .bpget _ | .bpset _ | .spget _ | .spset _ | .add _ | .sub _ | .mul _
  | .div _ | .mod _ | .and _ | .or _ | .xor _ | .not _ | .signext _ | .rol _ | .ror _ | .bswap _
  | .asr _ | .lsl _ | .lsr _ | .setip _ | .addip _ => true

end Sys2Proof
end

