-- ==== Sys2Proof/Decode.lean ====
section
/-! DEFINITION. The decoder and the encoder of `30_encoding.md` R80 to R91, with the byte order of
`20_memory.md` R51. Decoding is total: a word that is no instruction is rejected by name. -/

namespace Sys2Proof

/-- Why bytes are no instruction. `truncated`: fewer than two bytes were given. `reservedBit15`: bit 15
of the word is set (`30_encoding.md` R89). `reservedCommand`: the command code is 1 or 35 to 63 (R90).
All are safe: the machine stops on them. -/
inductive DecodeReject where
  | truncated
  | reservedBit15
  | reservedCommand
deriving DecidableEq, Repr

/-- The low byte of a word (`20_memory.md` R52). -/
def lowByte (v : Word) : Byte := v.extractLsb' 0 8

/-- The high byte of a word (`20_memory.md` R52). -/
def highByte (v : Word) : Byte := v.extractLsb' 8 8

/-- The word whose low byte is `lo` and whose high byte is `hi` (`20_memory.md` R51, R52). -/
def wordOfBytes (lo hi : Byte) : Word := hi ++ lo

/-- The code of `ex` (`30_encoding.md` R82). -/
def conditionOf (k : BitVec 3) : Condition :=
  match k.toNat with
  | 0 => .always
  | 1 => .zero
  | 2 => .nonzero
  | 3 => .greater
  | 4 => .less
  | 5 => .greaterEq
  | 6 => .lessEq
  | _ => .overflow

/-- The code of an input field (`30_encoding.md` R83). -/
def inputOf (k : BitVec 2) : Input :=
  match k.toNat with
  | 0 => .zero
  | 1 => .imm
  | 2 => .peek
  | _ => .pop

/-- The configuration fields of an instruction word (`30_encoding.md` R81). -/
def confOf (w : Word) : Conf :=
  { ex := conditionOf (w.extractLsb' 0 3)
    i0 := inputOf (w.extractLsb' 3 2)
    i1 := inputOf (w.extractLsb' 5 2)
    f := if w.getLsbD 7 then .yes else .no
    r := if w.getLsbD 8 then .push else .discard }

/-- The command map of `30_encoding.md` R88; codes 1 and 35 to 63 are reserved (R90). -/
def commandOf (cmd : BitVec 6) (c : Conf) : Option Instr :=
  match cmd.toNat with
  | 0 => some (.copy c)
  | 2 => some (.get c)
  | 3 => some (.set c)
  | 4 => some (.store8 c)
  | 5 => some (.store16 c)
  | 6 => some (.load8 c)
  | 7 => some (.load16 c)
  | 8 => some (.cpuid c)
  | 9 => some (.halt c)
  | 10 => some (.frget c)
  | 11 => some (.frset c)
  | 12 => some (.bpget c)
  | 13 => some (.bpset c)
  | 14 => some (.spget c)
  | 15 => some (.spset c)
  | 16 => some (.add c)
  | 17 => some (.sub c)
  | 18 => some (.mul c)
  | 19 => some (.div c)
  | 20 => some (.mod c)
  | 21 => some (.and c)
  | 22 => some (.or c)
  | 23 => some (.xor c)
  | 24 => some (.not c)
  | 25 => some (.signext c)
  | 26 => some (.rol c)
  | 27 => some (.ror c)
  | 28 => some (.bswap c)
  | 29 => some (.asr c)
  | 30 => some (.lsl c)
  | 31 => some (.lsr c)
  | 32 => some (.setip c)
  | 33 => some (.addip c)
  | 34 => some (.intr c)
  | _ => none

/-- The instruction of an instruction word (`30_encoding.md` R81, R88 to R90). -/
def decodeWord (w : Word) : Except DecodeReject Instr :=
  if w.getLsbD 15 then .error .reservedBit15
  else
    match commandOf (w.extractLsb' 9 6) (confOf w) with
    | some i => .ok i
    | none => .error .reservedCommand

/-- The instruction at the head of a byte sequence, and the bytes after its word. -/
def decode : List Byte → Except DecodeReject (Instr × List Byte)
  | lo :: hi :: rest =>
    match decodeWord (wordOfBytes lo hi) with
    | .ok i => .ok (i, rest)
    | .error e => .error e
  | [] | [_] => .error .truncated

/-- Byte `k` of a row's bits as they lie in memory: bit 0 of `w` is the least significant bit of the
first word, and words are little endian (`20_memory.md` R51). -/
def tableByte (nbits w k : Nat) : Byte := BitVec.ofNat 8 ((w % 2 ^ nbits) >>> (8 * k))

/-- The six bytes of the longest instruction (`30_encoding.md` R80), zero above the row's bits. -/
def tableBytes (nbits w : Nat) : List Byte :=
  [tableByte nbits w 0, tableByte nbits w 1, tableByte nbits w 2,
   tableByte nbits w 3, tableByte nbits w 4, tableByte nbits w 5]

/-- The instruction the decoder reads from a row's bits, laid out as the hardware stores them. -/
def decodeTableWord (nbits w : Nat) : Option Instr :=
  match decode (tableBytes nbits w) with
  | .ok (i, _) => some i
  | .error _ => none

/-- The code of an execution conditional (`30_encoding.md` R82). -/
def conditionCode : Condition → BitVec 3
  | .always => 0
  | .zero => 1
  | .nonzero => 2
  | .greater => 3
  | .less => 4
  | .greaterEq => 5
  | .lessEq => 6
  | .overflow => 7

/-- The code of an input behaviour (`30_encoding.md` R83). -/
def inputCode : Input → BitVec 2
  | .zero => 0
  | .imm => 1
  | .peek => 2
  | .pop => 3

/-- The code of the flag modification (`30_encoding.md` R84). -/
def flagModCode : FlagMod → BitVec 1
  | .no => 0
  | .yes => 1

/-- The code of the output behaviour (`30_encoding.md` R85). -/
def outputCode : OutputMode → BitVec 1
  | .discard => 0
  | .push => 1

/-- The command code of an instruction (`30_encoding.md` R88). -/
def commandCode : Instr → BitVec 6
  | .copy _ => 0
  | .get _ => 2
  | .set _ => 3
  | .store8 _ => 4
  | .store16 _ => 5
  | .load8 _ => 6
  | .load16 _ => 7
  | .cpuid _ => 8
  | .halt _ => 9
  | .frget _ => 10
  | .frset _ => 11
  | .bpget _ => 12
  | .bpset _ => 13
  | .spget _ => 14
  | .spset _ => 15
  | .add _ => 16
  | .sub _ => 17
  | .mul _ => 18
  | .div _ => 19
  | .mod _ => 20
  | .and _ => 21
  | .or _ => 22
  | .xor _ => 23
  | .not _ => 24
  | .signext _ => 25
  | .rol _ => 26
  | .ror _ => 27
  | .bswap _ => 28
  | .asr _ => 29
  | .lsl _ => 30
  | .lsr _ => 31
  | .setip _ => 32
  | .addip _ => 33
  | .intr _ => 34

/-- The instruction word: `rsv`, `cmd`, `r`, `f`, `i1`, `i0`, `ex` from bit 15 down
(`30_encoding.md` R81), with the reserved bit 0 (R89). -/
def encodeWord (i : Instr) : Word :=
  (0 : BitVec 1) ++ commandCode i ++ outputCode i.conf.r ++ flagModCode i.conf.f ++
    inputCode i.conf.i1 ++ inputCode i.conf.i0 ++ conditionCode i.conf.ex

/-- The words of an instruction: the one instruction word; the immediates that follow it in memory are
operands fetched at execution (`40_execution_cycle.md` R116; log 16). -/
def encode (i : Instr) : List Word := [encodeWord i]

/-- The bytes of a word as they lie in memory (`20_memory.md` R51). -/
def bytesOfWord (v : Word) : List Byte := [lowByte v, highByte v]

/-- The bytes of an instruction as they lie in memory. -/
def encodeBytes (i : Instr) : List Byte := (encode i).flatMap bytesOfWord

end Sys2Proof
end

