-- ==== Sys2Proof/Machine/Memory.lean ====
section
/-! DEFINITION. The memory as a list of cells in canonical form: addresses strictly rising and below
2^16. An address that is not listed has no value of its own (`Memory.read` answers `none`), so no entry
can equal what an unlisted address reads as and two memories that read alike are the same list. What
the machine then reads there is `byteAt` of Ops.lean (log 3). -/

namespace Sys2Proof.Machine

/-- Whether every listed address is above `lo` and below 2^16, and the addresses rise strictly. -/
def Memory.wfFrom : Nat → Memory → Bool
  | _, [] => true
  | lo, (a, _) :: rest => decide (lo ≤ a) && decide (a < 65536) && Memory.wfFrom (a + 1) rest

/-- The canonical form of a memory. -/
def Memory.wf (m : Memory) : Bool := Memory.wfFrom 0 m

/-- The byte listed at an address, if any. -/
def Memory.read : Memory → Nat → Option Byte
  | [], _ => none
  | (a, b) :: rest, x => if x = a then some b else Memory.read rest x

/-- The memory with byte `v` at address `x`. -/
def Memory.write : Memory → Nat → Byte → Memory
  | [], x, v => [(x, v)]
  | (a, b) :: rest, x, v =>
    if x < a then (x, v) :: (a, b) :: rest
    else if x = a then (a, v) :: rest
    else (a, b) :: Memory.write rest x v

end Sys2Proof.Machine
end

