-- ==== Sys2Proof/Machine/Ops.lean ====
section
/-! DEFINITION. The shared operations: memory accesses (`20_memory.md`), the stack (`00_scope.md` R16),
the register writes with their reserved bits (`10_state.md`), free values, triggering and taking an
interrupt, the transfer that returns from one, the interrupt phase (`60_exceptions.md`), and what a bus
error undoes (R240). -/

namespace Sys2Proof.Machine

/-- The result of an operation: a value and a state, a stop, or an access that the platform refused by
signalling `BUS`, with the state at that access. -/
inductive Res (α : Type) where
  | ok (a : α) (s : State)
  | fault (r : Fault)
  | bus (s : State)
deriving Repr

/-- One operation after another. -/
def Res.bind {α β : Type} (r : Res α) (f : α → State → Res β) : Res β :=
  match r with
  | .ok a s => f a s
  | .fault e => .fault e
  | .bus s => .bus s

/-! ### Memory -/

/-- The byte at an address: what is listed there, or the free value it has held since power-on
(`10_state.md` R38, U1; log 3). -/
def byteAt (s : State) (a : Word) : Byte :=
  match Memory.read s.mem a.toNat with
  | some b => b
  | none => Config.powerOnByte a.toNat

/-- The little-endian word whose low byte is at an address (`20_memory.md` R51, R52). -/
def wordAt (s : State) (a : Word) : Word := wordOfBytes (byteAt s a) (byteAt s (a + 1))

/-- The kind of region at an address (`20_memory.md` R68). -/
def kindAt (s : State) (a : Word) : RegionKind := kindIn s.params.memMap a.toNat

/-- The addresses of the bytes of an access. -/
def Access.bytes (acc : Access) : List Word :=
  match acc.width with
  | .byte => [acc.addr]
  | .word => [acc.addr, acc.addr + 1]

/-- Whether an access has a byte in a region of a kind. -/
def touches (s : State) (acc : Access) (k : RegionKind) : Bool :=
  (Access.bytes acc).any fun a => decide (kindAt s a = k)

/-- The checks every access passes: alignment (`20_memory.md` R53), `BusError` (R56), and what stands at
the address (R68), in this order (log 10). -/
def checkAccess (acc : Access) (s : State) : Res Unit :=
  if acc.width = .word ∧ acc.addr.getLsbD 0 = true then .fault .unaligned
  else if acc ∈ s.params.busErrors then .bus s
  else if touches s acc .nothing = true then .fault .unmapped
  else if acc.dir = .write ∧ touches s acc .rom = true then .fault .writeToRom
  else .ok () s

/-- The byte at an address, where a device answers with its own byte (`20_memory.md` R68; log 9). -/
def readByte (s : State) (a : Word) (fromDevice : Byte) : Byte :=
  if kindAt s a = .device then fromDevice else byteAt s a

/-- The value of an access's bytes given a device's answer `v`; a byte is zero-extended
(`20_memory.md` R52, `41_data_movement.md` R145). -/
def readValue (s : State) (acc : Access) (v : Word) : Word :=
  match acc.width with
  | .byte => wordOfBytes (readByte s acc.addr (lowByte v)) 0
  | .word => wordOfBytes (readByte s acc.addr (lowByte v)) (readByte s (acc.addr + 1) (highByte v))

/-- The state after an access that touches a device moved value `v` (`20_memory.md` R68; log 8). -/
def deviceAccess (acc : Access) (v : Word) (s : State) : State :=
  if touches s acc .device = true then { s with device := Config.deviceNext s.device acc v } else s

/-- `MemRead(a, n)` (`00_scope.md` R15, `20_memory.md` R52). -/
def memRead (kind : AccessKind) (width : Width) (a : Word) (s : State) : Res Word :=
  let acc : Access := { addr := a, width := width, dir := .read, kind := kind }
  (checkAccess acc s).bind fun _ s =>
    let v := readValue s acc (Config.deviceRead s.device acc)
    .ok v (deviceAccess acc v s)

/-- The state with byte `v` stored at an address; a device's address keeps no byte (`20_memory.md` R68;
log 9). -/
def writeByte (a : Word) (v : Byte) (s : State) : State :=
  if kindAt s a = .device then s else { s with mem := Memory.write s.mem a.toNat v }

/-- The state with the low bytes of `v` stored, little endian (`20_memory.md` R52). -/
def writeValue (acc : Access) (v : Word) (s : State) : State :=
  match acc.width with
  | .byte => writeByte acc.addr (lowByte v) s
  | .word => writeByte (acc.addr + 1) (highByte v) (writeByte acc.addr (lowByte v) s)

/-- The part of `v` that an access of a width carries (`00_scope.md` R15). -/
def carried (width : Width) (v : Word) : Word :=
  match width with
  | .byte => v &&& 0x00FF
  | .word => v

/-- `MemWrite(a, n, v)` (`00_scope.md` R15, `20_memory.md` R52); every write is a data access (R55). -/
def memWrite (width : Width) (a v : Word) (s : State) : Res Unit :=
  let acc : Access := { addr := a, width := width, dir := .write, kind := .data }
  (checkAccess acc s).bind fun _ s =>
    .ok () (deviceAccess acc (carried width v) (writeValue acc v s))

/-- `Fetch16(a)` (`20_memory.md` R57). -/
def fetch16 (a : Word) (s : State) : Res Word := memRead .code .word a s

/-! ### The stack -/

/-- `Push(v)` (`00_scope.md` R16). -/
def push (v : Word) (s : State) : Res Unit :=
  memWrite .word (s.sp - 2) v { s with sp := s.sp - 2 }

/-- `Peek()` (`00_scope.md` R16). -/
def peek (s : State) : Res Word := memRead .data .word s.sp s

/-- `Pop()` (`00_scope.md` R16). -/
def pop (s : State) : Res Word :=
  (peek s).bind fun v s => .ok v { s with sp := s.sp + 2 }

/-! ### Register writes and their reserved bits -/

/-- The reserved bits of `FR`: [15:8], and [7:4] on the SPU Mark II-L whose `L_FR_I` is `reserved`
(`10_state.md` R32). -/
def reservedFr (p : Params) : Word :=
  match p.variant, p.lFrI with
  | .markII, _ => 0xFF00
  | .markIIL, .storage => 0xFF00
  | .markIIL, .reserved => 0xFFF0

/-- The reserved bits of `IR`: [3] and [15:8] (`10_state.md` R34). -/
def reservedIr : Word := 0xFF08

/-- `SP <- v`; an odd value is undefined (`10_state.md` R35). -/
def writeSp (v : Word) (s : State) : Res Unit :=
  if v.getLsbD 0 then .fault .reservedBit else .ok () { s with sp := v }

/-- `BP <- v`; an odd value is undefined (`10_state.md` R35). -/
def writeBp (v : Word) (s : State) : Res Unit :=
  if v.getLsbD 0 then .fault .reservedBit else .ok () { s with bp := v }

/-- `IP <- v`; an odd value is undefined (`10_state.md` R35). -/
def writeIp (v : Word) (s : State) : Res Unit :=
  if v.getLsbD 0 then .fault .reservedBit else .ok () { s with ip := v }

/-- `FR <- v`; a 1 in a reserved bit is undefined (`10_state.md` R32). -/
def writeFr (v : Word) (s : State) : Res Unit :=
  if v &&& reservedFr s.params = 0 then .ok () { s with fr := v } else .fault .reservedBit

/-- `draw(u16)` (`00_scope.md` R17; log 7). -/
def draw (s : State) : Res Word := .ok (Config.freeWord s.draws) { s with draws := s.draws + 1 }

/-! ### Interrupts -/

/-- The word `1 << n`: the bit of interrupt `n` in `IR`, its enable bit in `FR` for 4 to 7, and the
cause pushed at its entry (`60_exceptions.md` R221). -/
def interruptBit (n : Nat) : Word := (1 : Word) <<< n

/-- `Trigger(n)` (`00_scope.md` R17): on the SPU Mark II the bit of `IR` is set, masked or not
(`60_exceptions.md` R226); on the SPU Mark II-L nothing happens (R247). -/
def trigger (n : Nat) (s : State) : State :=
  match s.params.variant with
  | .markII => { s with ir := s.ir ||| interruptBit n }
  | .markIIL => s

/-- Whether interrupt `n` is taken when it is triggered (`60_exceptions.md` R228): 0 to 3 always, 4 to 7
if enabled in `FR`. -/
def unmasked (n : Nat) (s : State) : Bool := decide (n < 4) || s.fr.getLsbD n

/-- TAKING INTERRUPT `n` (`60_exceptions.md` R231): the word `1 << n` and `IP` are pushed, `IP` is loaded
from the table entry at `2 * n` (which must be even), a maskable interrupt is masked, and the core runs
again. -/
def takeInterrupt (n : Nat) (s : State) : Res Unit :=
  (push (interruptBit n) { s with halted := false }).bind fun _ s =>
  (push s.ip s).bind fun _ s =>
  (fetch16 (BitVec.ofNat 16 (2 * n)) s).bind fun target s =>
  (writeIp target s).bind fun _ s =>
    .ok () (if 4 ≤ n then { s with fr := s.fr &&& ~~~ interruptBit n } else s)

/-- The transfer of `SETIP` and `ADDIP`, and so THE RETURN FROM AN INTERRUPT (the idiom
`SETIP [i0:pop] [i1:pop]`, `60_exceptions.md` R236): `IP <- target`, `FR <- FR | bits`, and the old `IP`
is the output (`45_control.md` R200, R201). -/
def transfer (target bits : Word) (s : State) : Res Word :=
  (writeIp target s).bind fun _ s' =>
  (writeFr (s.fr ||| bits) s').bind fun _ s' => .ok s.ip s'

/-- One pass of the interrupt loop for number `n` (`60_exceptions.md` R228 step 2): a triggered bit is
cleared, and the interrupt is taken unless it is masked, in which case the trigger is lost (R226). -/
def serveInterrupt (n : Nat) (s : State) : Res Unit :=
  if s.ir.getLsbD n then
    let cleared : State := { s with ir := s.ir &&& ~~~ interruptBit n }
    if unmasked n cleared then takeInterrupt n cleared else .ok () cleared
  else .ok () s

/-- The numbers served one after another. -/
def serveInterrupts : List Nat → State → Res Unit
  | [], s => .ok () s
  | n :: rest, s => (serveInterrupt n s).bind fun _ s => serveInterrupts rest s

/-- The numbers the loop can meet, highest first (`60_exceptions.md` R229, R230). -/
def interruptOrder : List Nat := [7, 6, 5, 4, 2, 1]

/-- The reset sequence of the SPU Mark II (`70_reset_and_hazards.md` R260). -/
def resetSequence (s : State) : Res Unit :=
  (fetch16 0x0000 s).bind fun target s =>
  (writeIp target s).bind fun _ s => .ok () { s with fr := 0, ir := 0, halted := false }

/-- Whether this step's pin sample is a free one: none is listed, and `Env` is unconstrained (log 5). -/
def samplesFreely (s : State) : Bool := s.pins.isEmpty && decide (s.params.env = .unconstrained)

/-- The pin sample of this step (`60_exceptions.md` R244; log 5): the next one listed; after the last, any
subset of RST, NMI and IRQ, or none, as `Env` says. -/
def samplePins (s : State) : Pins :=
  match s.pins, s.params.env with
  | p :: _, _ => p
  | [], .quiet => Pins.quiet
  | [], .unconstrained =>
    { rst := Config.pinSignalled s.samples .rst
      nmi := Config.pinSignalled s.samples .nmi
      irq := Config.pinSignalled s.samples .irq
      bus := false }

/-- The state after its sample is taken. -/
def consumePins (s : State) : State :=
  { s with
    pins := s.pins.tail
    samples := if samplesFreely s then s.samples + 1 else s.samples }

/-- `EnvBits()`: the `IR` bits of the pins RST, NMI and IRQ (`60_exceptions.md` R244). -/
def envBits (p : Pins) : Word :=
  (if p.rst then interruptBit 0 else 0) ||| (if p.nmi then interruptBit 1 else 0) |||
    (if p.irq then interruptBit 7 else 0)

/-- The interrupt phase of the SPU Mark II (`60_exceptions.md` R228). A reserved bit of `IR` in the loop
has no meaning (R229; log 12); the BUS pin outside a memory operation has none either (R241; log 6). -/
def interruptPhaseII (s : State) : Res Unit :=
  let p := samplePins s
  let s := consumePins s
  if p.bus then .fault .busErrorOutsideInstruction
  else
    let s : State := { s with ir := s.ir ||| envBits p }
    if s.ir.getLsbD 0 then resetSequence s
    else if s.ir &&& reservedIr = 0 then serveInterrupts interruptOrder s
    else .fault .reservedBit

/-- The interrupt phase of the SPU Mark II-L: the RST test alone (`70_reset_and_hazards.md` R261). -/
def interruptPhaseL (s : State) : Res Unit :=
  let p := samplePins s
  let s := consumePins s
  .ok () (if p.rst then { s with ip := 0, fr := 0, halted := false } else s)

/-- `InterruptPhase()`, step 1 of every step (`40_execution_cycle.md` R113). -/
def interruptPhase (s : State) : Res Unit :=
  match s.params.variant with
  | .markII => interruptPhaseII s
  | .markIIL => interruptPhaseL s

/-! ### What a bus error does to an instruction -/

/-- Whether the platform has a device at all. -/
def hasDevice (p : Params) : Bool := p.memMap.any fun r => decide (r.kind = .device)

/-- The state after a bus error, given the state before the instruction and at the refused access
(`60_exceptions.md` R240): the registers, `halted` and memory are as before, and `IR[2]` is set. A free
word that was drawn stays drawn. DESIGN CHOICE (log 11): R240 does not say what a device keeps, so on a
platform with devices their state is a fresh free value, whichever access of the step may have reached
one, the instruction word's own fetch and the refused access included. -/
def busAbort (before at' : State) : State :=
  { before with
    ir := before.ir ||| interruptBit 2
    draws := if hasDevice before.params then at'.draws + 1 else at'.draws
    device := if hasDevice before.params then Config.deviceUndone at'.draws else before.device }

/-- The outcome of a step whose part from `before` on ended so. A bus error triggers `BUS` on the SPU
Mark II (`60_exceptions.md` R240) and is undefined on the SPU Mark II-L (R247). -/
def finish (before : State) (r : Res Unit) : Host.Outcome State Fault Refusal :=
  match r with
  | .ok _ s => .next s
  | .fault e => .fault e
  | .bus at' =>
    match before.params.variant with
    | .markII => .next (busAbort before at')
    | .markIIL => .fault .busErrorOutsideInstruction

end Sys2Proof.Machine
end

