-- ==== Sys2Proof/Machine/Operands.lean ====
section
/-! DEFINITION. The configuration part of every instruction (`40_execution_cycle.md`): the inputs
(R116, R117), the output (R123), the step over a skipped instruction (R122), and the frame into which
each command's meaning is put (R113 step 5, R125). -/

namespace Sys2Proof.Machine

/-- `IP <- (IP + 2) mod 2^16` (`10_state.md` R24, R25). -/
def advance (s : State) : State := { s with ip := s.ip + 2 }

/-- `FetchInput(sel)` (`40_execution_cycle.md` R116). -/
def fetchInput (sel : Input) (s : State) : Res Word :=
  match sel with
  | .zero => .ok 0 s
  | .imm => (fetch16 s.ip s).bind fun v s => .ok v (advance s)
  | .peek => peek s
  | .pop => pop s

/-- The output behaviour (`40_execution_cycle.md` R123). -/
def putOutput (r : OutputMode) (output : Word) (s : State) : Res Unit :=
  match r with
  | .discard => .ok () s
  | .push => push output s

/-- The step over the immediate of one input of a skipped instruction (`40_execution_cycle.md` R122). -/
def skipInput (sel : Input) (s : State) : State := if sel = .imm then advance s else s

/-- `Command(cmd, input0, input1)`: a command's effect and its output (`40_execution_cycle.md` R113). -/
abbrev Command := Word → Word → State → Res Word

/-- Step 5 of `Step` (`40_execution_cycle.md` R113), from the instruction's own word on (log 15): the
condition is read first (R115), then both inputs are fetched whatever the command (R119), the command
runs, the output is put, and Z and N are written (R125); or the instruction is skipped (R122). -/
def execute (c : Conf) (command : Command) (s : State) : Res Unit :=
  let s := advance s
  if condHolds c.ex s.fr then
    (fetchInput c.i0 s).bind fun input0 s =>
    (fetchInput c.i1 s).bind fun input1 s =>
    (command input0 input1 s).bind fun output s =>
    (putOutput c.r output s).bind fun _ s => .ok () (modifyFlags c.f output s)
  else .ok () (skipInput c.i1 (skipInput c.i0 s))

/-- The outcome of an instruction. If an access was refused by `BUS`, the instruction has no effect
(`60_exceptions.md` R240). -/
def runInstr (c : Conf) (command : Command) (s : State) : Host.Outcome State Fault Refusal :=
  finish s (execute c command s)

/-- A command that only computes its output. -/
def compute (f : Word → Word → Word) : Command := fun input0 input1 s => .ok (f input0 input1) s

end Sys2Proof.Machine
end

