-- ==== Sys2Proof/Machine/Arithmetic.lean ====
section
/-! DEFINITION. The arithmetic commands (`43_arithmetic.md`): `ADD`, `SUB`, `MUL`, `DIV`, `MOD`. -/

namespace Sys2Proof.Machine

/-- `ADD` (R165): the sum with the carry in, modulo 2^16; C is the virtual 17th bit. -/
def addCommand : Command := fun input0 input1 s =>
  let cin := carryIn s.fr
  .ok (BitVec.ofNat 16 (input0.toNat + input1.toNat + cin)) (setCarry (addCarry input0 input1 cin) s)

/-- `SUB` (R166): the difference with the carry in, modulo 2^16; C is the borrow. -/
def subCommand : Command := fun input0 input1 s =>
  let cin := carryIn s.fr
  .ok (BitVec.ofInt 16 ((input0.toNat : Int) - (input1.toNat : Int) - (cin : Int)))
    (setCarry (subCarry input0 input1 cin) s)

/-- `MUL` (R167): the product modulo 2^16; C is `MulCarry`. -/
def mulCommand : Command := fun input0 input1 s =>
  .ok (BitVec.ofNat 16 (input0.toNat * input1.toNat))
    (setCarry (mulCarry s.params.mulCarry input0 input1) s)

/-- `DivMod` for a divisor that is not zero, quotient and remainder (R168, R169). By default the quotient
is rounded toward zero. Under `openRounding` only what R168 settles is fixed: a quotient that is exact
and fits, and one of a non-negative dividend by a positive divisor; another inexact quotient is rounded
down or up, freely, and -32768 / -1 is free (log 13). -/
def divMod (rule : DivModRule) (a b : Word) : Word × Word :=
  let x := a.toInt
  let y := b.toInt
  match rule with
  | .truncate => (BitVec.ofInt 16 (x.tdiv y), BitVec.ofInt 16 (x - x.tdiv y * y))
  | .openRounding =>
    if x = -32768 ∧ y = -1 then Config.overflowQuotient
    else
      let down := x.fdiv y
      let settled := (0 ≤ x ∧ 0 < y) ∨ down * y = x
      let q := if settled ∨ Config.quotientRoundsUp a b = false then down else down + 1
      (BitVec.ofInt 16 q, BitVec.ofInt 16 (x - q * y))

/-- `DivideByZero()` (R173): ARITH is triggered and the output is not specified, a free word (U9;
log 7). -/
def divideByZero (s : State) : Res Word := draw (trigger 4 s)

/-- `DIV` (R168): the signed quotient. -/
def divCommand : Command := fun input0 input1 s =>
  if input1 = 0 then divideByZero s else .ok (divMod s.params.divMod input0 input1).1 s

/-- `MOD` (R169): the signed remainder. -/
def modCommand : Command := fun input0 input1 s =>
  if input1 = 0 then divideByZero s else .ok (divMod s.params.divMod input0 input1).2 s

/-- `ADD` (R165). -/
def execAdd (c : Conf) (s : State) : Host.Outcome State Fault Refusal := runInstr c addCommand s

/-- `SUB` (R166). -/
def execSub (c : Conf) (s : State) : Host.Outcome State Fault Refusal := runInstr c subCommand s

/-- `MUL` (R167). -/
def execMul (c : Conf) (s : State) : Host.Outcome State Fault Refusal := runInstr c mulCommand s

/-- `DIV` (R168). -/
def execDiv (c : Conf) (s : State) : Host.Outcome State Fault Refusal := runInstr c divCommand s

/-- `MOD` (R169). -/
def execMod (c : Conf) (s : State) : Host.Outcome State Fault Refusal := runInstr c modCommand s

end Sys2Proof.Machine
end

