-- ==== Sys2Proof/Machine/Control.lean ====
section
/-! DEFINITION. The control commands (`45_control.md`): `SETIP`, `ADDIP`, `INTR`. -/

namespace Sys2Proof.Machine

/-- `SETIP` (R200): `IP <- input0`, `FR <- FR | input1`; the output is the address of the next
instruction in sequence. -/
def setipCommand : Command := fun input0 input1 s => transfer input0 input1 s

/-- `ADDIP` (R201): `IP <- IP + input0` in bytes, `FR <- FR | input1`; the output is the address of the
next instruction in sequence. -/
def addipCommand : Command := fun input0 input1 s => transfer (s.ip + input0) input1 s

/-- `INTR` (R202): `IR <- IR | input0`; a reserved bit of `IR` is undefined, and so is `INTR` on the SPU
Mark II-L. -/
def intrCommand : Command := fun input0 _ s =>
  match s.params.variant with
  | .markII =>
    if input0 &&& reservedIr = 0 then .ok input0 { s with ir := s.ir ||| input0 }
    else .fault .reservedBit
  | .markIIL => .fault .noInterruptRegister

/-- `SETIP` (R200). -/
def execSetip (c : Conf) (s : State) : Host.Outcome State Fault Refusal := runInstr c setipCommand s

/-- `ADDIP` (R201). -/
def execAddip (c : Conf) (s : State) : Host.Outcome State Fault Refusal := runInstr c addipCommand s

/-- `INTR` (R202). -/
def execIntr (c : Conf) (s : State) : Host.Outcome State Fault Refusal := runInstr c intrCommand s

end Sys2Proof.Machine
end

