-- ==== Sys2Proof/Machine/DataMovement.lean ====
section
/-! DEFINITION. The data movement commands (`41_data_movement.md`): `COPY`, `GET`, `SET`, `STORE8`,
`STORE16`, `LOAD8`, `LOAD16`. -/

namespace Sys2Proof.Machine

/-- `COPY` (R140): the output is `input0`. -/
def copyCommand : Command := compute fun input0 _ => input0

/-- The address of `GET` and `SET`: `(BP + 2 * input0) mod 2^16` (R141, R142). -/
def frameAddress (s : State) (input0 : Word) : Word := s.bp + 2 * input0

/-- `GET` (R141): the word at `BP + 2 * input0`. -/
def getCommand : Command := fun input0 _ s => memRead .data .word (frameAddress s input0) s

/-- `SET` (R142): `input1` is stored at `BP + 2 * input0` and is the output. -/
def setCommand : Command := fun input0 input1 s =>
  (memWrite .word (frameAddress s input0) input1 s).bind fun _ s => .ok input1 s

/-- `STORE8` (R143): the low byte of `input0` is stored at address `input1` and is the output. -/
def store8Command : Command := fun input0 input1 s =>
  (memWrite .byte input1 input0 s).bind fun _ s => .ok (input0 &&& 0x00FF) s

/-- `STORE16` (R144): `input0` is stored at address `input1` and is the output. -/
def store16Command : Command := fun input0 input1 s =>
  (memWrite .word input1 input0 s).bind fun _ s => .ok input0 s

/-- `LOAD8` (R145): the byte at address `input0`, zero-extended. -/
def load8Command : Command := fun input0 _ s => memRead .data .byte input0 s

/-- `LOAD16` (R146): the word at address `input0`. -/
def load16Command : Command := fun input0 _ s => memRead .data .word input0 s

/-- `COPY` (R140). -/
def execCopy (c : Conf) (s : State) : Host.Outcome State Fault Refusal := runInstr c copyCommand s

/-- `GET` (R141). -/
def execGet (c : Conf) (s : State) : Host.Outcome State Fault Refusal := runInstr c getCommand s

/-- `SET` (R142). -/
def execSet (c : Conf) (s : State) : Host.Outcome State Fault Refusal := runInstr c setCommand s

/-- `STORE8` (R143). -/
def execStore8 (c : Conf) (s : State) : Host.Outcome State Fault Refusal := runInstr c store8Command s

/-- `STORE16` (R144). -/
def execStore16 (c : Conf) (s : State) : Host.Outcome State Fault Refusal := runInstr c store16Command s

/-- `LOAD8` (R145). -/
def execLoad8 (c : Conf) (s : State) : Host.Outcome State Fault Refusal := runInstr c load8Command s

/-- `LOAD16` (R146). -/
def execLoad16 (c : Conf) (s : State) : Host.Outcome State Fault Refusal := runInstr c load16Command s

end Sys2Proof.Machine
end

