-- ==== Sys2Proof/Machine/Logic.lean ====
section
/-! DEFINITION. The logic, shift and byte commands (`44_logic_shift.md`): `AND`, `OR`, `XOR`, `NOT`,
`SIGNEXT`, `ROL`, `ROR`, `BSWAP`, `ASR`, `LSL`, `LSR`. None writes C, none touches memory, and from `NOT`
on `input1` is fetched and ignored (R191). -/

namespace Sys2Proof.Machine

/-- `SIGNEXT` (R184): the low byte, its bit 7 copied into bits 15 to 8. -/
def signExtendByte (v : Word) : Word := (v.extractLsb' 0 8).signExtend 16

/-- `ROL` (R185): `concat(input0[14:0], input0[15])`. -/
def rotateLeft (v : Word) : Word := v.extractLsb' 0 15 ++ v.extractLsb' 15 1

/-- `ROR` (R186): `concat(input0[0], input0[15:1])`. -/
def rotateRight (v : Word) : Word := v.extractLsb' 0 1 ++ v.extractLsb' 1 15

/-- `BSWAP` (R187): `concat(input0[7:0], input0[15:8])`. -/
def swapBytes (v : Word) : Word := v.extractLsb' 0 8 ++ v.extractLsb' 8 8

/-- `ASR` (R188): `concat(input0[15], input0[15:1])`. -/
def shiftRightArith (v : Word) : Word := v.extractLsb' 15 1 ++ v.extractLsb' 1 15

/-- `LSL` (R189): `concat(input0[14:0], '0')`. -/
def shiftLeft (v : Word) : Word := v.extractLsb' 0 15 ++ (0 : BitVec 1)

/-- `LSR` (R190): `concat('0', input0[15:1])`. -/
def shiftRight (v : Word) : Word := (0 : BitVec 1) ++ v.extractLsb' 1 15

/-- `AND` (R180). -/
def andCommand : Command := compute fun input0 input1 => input0 &&& input1

/-- `OR` (R181). -/
def orCommand : Command := compute fun input0 input1 => input0 ||| input1

/-- `XOR` (R182). -/
def xorCommand : Command := compute fun input0 input1 => input0 ^^^ input1

/-- `NOT` (R183). -/
def notCommand : Command := compute fun input0 _ => ~~~ input0

/-- `SIGNEXT` (R184). -/
def signextCommand : Command := compute fun input0 _ => signExtendByte input0

/-- `ROL` (R185). -/
def rolCommand : Command := compute fun input0 _ => rotateLeft input0

/-- `ROR` (R186). -/
def rorCommand : Command := compute fun input0 _ => rotateRight input0

/-- `BSWAP` (R187). -/
def bswapCommand : Command := compute fun input0 _ => swapBytes input0

/-- `ASR` (R188). -/
def asrCommand : Command := compute fun input0 _ => shiftRightArith input0

/-- `LSL` (R189). -/
def lslCommand : Command := compute fun input0 _ => shiftLeft input0

/-- `LSR` (R190). -/
def lsrCommand : Command := compute fun input0 _ => shiftRight input0

/-- `AND` (R180). -/
def execAnd (c : Conf) (s : State) : Host.Outcome State Fault Refusal := runInstr c andCommand s

/-- `OR` (R181). -/
def execOr (c : Conf) (s : State) : Host.Outcome State Fault Refusal := runInstr c orCommand s

/-- `XOR` (R182). -/
def execXor (c : Conf) (s : State) : Host.Outcome State Fault Refusal := runInstr c xorCommand s

/-- `NOT` (R183). -/
def execNot (c : Conf) (s : State) : Host.Outcome State Fault Refusal := runInstr c notCommand s

/-- `SIGNEXT` (R184). -/
def execSignext (c : Conf) (s : State) : Host.Outcome State Fault Refusal := runInstr c signextCommand s

/-- `ROL` (R185). -/
def execRol (c : Conf) (s : State) : Host.Outcome State Fault Refusal := runInstr c rolCommand s

/-- `ROR` (R186). -/
def execRor (c : Conf) (s : State) : Host.Outcome State Fault Refusal := runInstr c rorCommand s

/-- `BSWAP` (R187). -/
def execBswap (c : Conf) (s : State) : Host.Outcome State Fault Refusal := runInstr c bswapCommand s

/-- `ASR` (R188). -/
def execAsr (c : Conf) (s : State) : Host.Outcome State Fault Refusal := runInstr c asrCommand s

/-- `LSL` (R189). -/
def execLsl (c : Conf) (s : State) : Host.Outcome State Fault Refusal := runInstr c lslCommand s

/-- `LSR` (R190). -/
def execLsr (c : Conf) (s : State) : Host.Outcome State Fault Refusal := runInstr c lsrCommand s

end Sys2Proof.Machine
end

