-- ==== Sys2Proof/Machine/System.lean ====
section
/-! DEFINITION. The system and register commands (`42_system_registers.md`): `CPUID`, `HALT`, `FRGET`,
`FRSET`, `BPGET`, `BPSET`, `SPGET`, `SPSET`. -/

namespace Sys2Proof.Machine

/-- `CPUID` (R150): zero for zero inputs; for others the output is not specified, a free word (U7;
log 7). -/
def cpuidCommand : Command := fun input0 input1 s =>
  if input0 = 0 ∧ input1 = 0 then .ok 0 s else draw s

/-- `HALT` (R151): the core halts; the output is not specified, a free word (U8; log 7). -/
def haltCommand : Command := fun _ _ s => draw { s with halted := true }

/-- `FRGET` (R152): `FR` without the bits of `input1`. -/
def frgetCommand : Command := fun _ input1 s => .ok (s.fr &&& ~~~ input1) s

/-- `FRSET` (R153): `FR` takes the bits of `input0` but for those of `input1`, which it keeps; the output
is the old `FR`. -/
def frsetCommand : Command := fun input0 input1 s =>
  (writeFr ((input0 &&& ~~~ input1) ||| (s.fr &&& input1)) s).bind fun _ s' => .ok s.fr s'

/-- `BPGET` (R154): `BP`. -/
def bpgetCommand : Command := fun _ _ s => .ok s.bp s

/-- `BPSET` (R155): `BP <- input0`; the output is the old `BP`. -/
def bpsetCommand : Command := fun input0 _ s => (writeBp input0 s).bind fun _ s' => .ok s.bp s'

/-- `SPGET` (R156): `SP` as it is after the inputs were fetched. -/
def spgetCommand : Command := fun _ _ s => .ok s.sp s

/-- `SPSET` (R157): `SP <- input0`; the output is `SP` as it was after the inputs were fetched. -/
def spsetCommand : Command := fun input0 _ s => (writeSp input0 s).bind fun _ s' => .ok s.sp s'

/-- `CPUID` (R150). -/
def execCpuid (c : Conf) (s : State) : Host.Outcome State Fault Refusal := runInstr c cpuidCommand s

/-- `HALT` (R151). -/
def execHalt (c : Conf) (s : State) : Host.Outcome State Fault Refusal := runInstr c haltCommand s

/-- `FRGET` (R152). -/
def execFrget (c : Conf) (s : State) : Host.Outcome State Fault Refusal := runInstr c frgetCommand s

/-- `FRSET` (R153). -/
def execFrset (c : Conf) (s : State) : Host.Outcome State Fault Refusal := runInstr c frsetCommand s

/-- `BPGET` (R154). -/
def execBpget (c : Conf) (s : State) : Host.Outcome State Fault Refusal := runInstr c bpgetCommand s

/-- `BPSET` (R155). -/
def execBpset (c : Conf) (s : State) : Host.Outcome State Fault Refusal := runInstr c bpsetCommand s

/-- `SPGET` (R156). -/
def execSpget (c : Conf) (s : State) : Host.Outcome State Fault Refusal := runInstr c spgetCommand s

/-- `SPSET` (R157). -/
def execSpset (c : Conf) (s : State) : Host.Outcome State Fault Refusal := runInstr c spsetCommand s

end Sys2Proof.Machine
end

