-- ==== Sys2Proof/Machine/Dispatch.lean ====
section
/-! DEFINITION. One arm per instruction. The state given to `exec` has `IP` at the instruction's own
word; the meaning advances it (log 15). -/

namespace Sys2Proof.Machine

def exec (i : Instr) (s : State) : Host.Outcome State Fault Refusal :=
  match i with
  | .copy c => Sys2Proof.Machine.execCopy c s
  | .get c => Sys2Proof.Machine.execGet c s
  | .set c => Sys2Proof.Machine.execSet c s
  | .store8 c => Sys2Proof.Machine.execStore8 c s
  | .store16 c => Sys2Proof.Machine.execStore16 c s
  | .load8 c => Sys2Proof.Machine.execLoad8 c s
  | .load16 c => Sys2Proof.Machine.execLoad16 c s
  | .cpuid c => Sys2Proof.Machine.execCpuid c s
  | .halt c => Sys2Proof.Machine.execHalt c s
  | .frget c => Sys2Proof.Machine.execFrget c s
  | .frset c => Sys2Proof.Machine.execFrset c s
  | .bpget c => Sys2Proof.Machine.execBpget c s
  | .bpset c => Sys2Proof.Machine.execBpset c s
  | .spget c => Sys2Proof.Machine.execSpget c s
  | .spset c => Sys2Proof.Machine.execSpset c s
  | .add c => Sys2Proof.Machine.execAdd c s
  | .sub c => Sys2Proof.Machine.execSub c s
  | .mul c => Sys2Proof.Machine.execMul c s
  | .div c => Sys2Proof.Machine.execDiv c s
  | .mod c => Sys2Proof.Machine.execMod c s
  | .and c => Sys2Proof.Machine.execAnd c s
  | .or c => Sys2Proof.Machine.execOr c s
  | .xor c => Sys2Proof.Machine.execXor c s
  | .not c => Sys2Proof.Machine.execNot c s
  | .signext c => Sys2Proof.Machine.execSignext c s
  | .rol c => Sys2Proof.Machine.execRol c s
  | .ror c => Sys2Proof.Machine.execRor c s
  | .bswap c => Sys2Proof.Machine.execBswap c s
  | .asr c => Sys2Proof.Machine.execAsr c s
  | .lsl c => Sys2Proof.Machine.execLsl c s
  | .lsr c => Sys2Proof.Machine.execLsr c s
  | .setip c => Sys2Proof.Machine.execSetip c s
  | .addip c => Sys2Proof.Machine.execAddip c s
  | .intr c => Sys2Proof.Machine.execIntr c s

end Sys2Proof.Machine
end

