-- ==== Sys2Proof/Machine/Fetch.lean ====
section
/-! DEFINITION. Fetching an instruction (`40_execution_cycle.md` R113 steps 3 and 4), the rest of a step
after the interrupt phase (R113 steps 2 to 5), and placing an instruction where the next step fetches. -/

namespace Sys2Proof.Machine

/-- The instruction at `IP` (`40_execution_cycle.md` R113 steps 3 and 4); `IP` itself is advanced by the
instruction's meaning (log 15). A word that is no instruction is undefined, skipped or not
(`30_encoding.md` R89, R90, D4). -/
def fetchInstr (s : State) : Res Instr :=
  (fetch16 s.ip s).bind fun w s' =>
    match decodeWord w with
    | .ok i => .ok i s'
    | .error _ => .fault .reservedEncoding

/-- The step after its interrupt phase: nothing while halted (`40_execution_cycle.md` R128), else the
instruction at `IP`. A bus error on the instruction word triggers `BUS` (`60_exceptions.md` R240). The
state given to `exec` is the one after the word's fetch; where a device answered that fetch and a later
access is refused, what the device keeps is free all the same (`busAbort`; DESIGN CHOICE, log 11). -/
def instructionPhase (s : State) : Host.Outcome State Fault Refusal :=
  if s.halted then .next s
  else
    match fetchInstr s with
    | .ok i s' => exec i s'
    | .fault e => .fault e
    | .bus at' => finish s (.bus at')

/-- `Step()` (`40_execution_cycle.md` R113). A bus error in the interrupt phase is undefined
(`60_exceptions.md` R241). -/
def cycle (s : State) : Host.Outcome State Fault Refusal :=
  match interruptPhase s with
  | .ok _ s' => instructionPhase s'
  | .fault e => .fault e
  | .bus _ => .fault .busErrorOutsideInstruction

/-- Memory with bytes stored from an address on. -/
def storeBytes (m : Memory) (a : Word) : List Byte → Memory
  | [] => m
  | b :: rest => storeBytes (Memory.write m a.toNat b) (a + 1) rest

/-- Where `placeInstruction` puts the program when a reset is pending: the first address above the
interrupt table (`20_memory.md` R59). -/
def loadAddress : Word := 0x0010

/-- Whether the next step of the SPU Mark II will perform the reset sequence. -/
def resetPending (s : State) : Bool := decide (s.params.variant = .markII) && s.ir.getLsbD 0

/-- The pin samples with the next one quiet. -/
def quietNext (pins : List Pins) : List Pins := Pins.quiet :: pins.tail

/-- The state in which the very next step fetches and runs the instruction with the given bits (log 1):
its pins are quiet; if a reset is pending, the reset entry of the interrupt table names the place of
the instruction, else nothing is pending and the core is not halted and the instruction stands at
`IP`. -/
def placeInstruction (s : State) (nbits w : Nat) : State :=
  let s : State := { s with pins := quietNext s.pins }
  if resetPending s then
    let vectored := storeBytes s.mem 0x0000 (bytesOfWord loadAddress)
    { s with mem := storeBytes vectored loadAddress (tableBytes nbits w) }
  else { s with ir := 0, halted := false, mem := storeBytes s.mem s.ip (tableBytes nbits w) }

end Sys2Proof.Machine
end

