-- ==== Sys2Proof/Machine/Step.lean ====
section
/-! DEFINITION. The step (`40_execution_cycle.md` R113) and the placing of an instruction where it fetches
(log 1). -/

namespace Sys2Proof.Machine

/-- One `Step` of the machine (`40_execution_cycle.md` R113, R114). -/
def step (s : State) : Host.Outcome State Fault Refusal := cycle s

/-- `s` with an instruction stored where its next step fetches (log 1). -/
def State.withFetchWord (s : State) (nbits w : Nat) : State := placeInstruction s nbits w

end Sys2Proof.Machine
end

