-- ==== Sys2Proof/Safety.lean ====
section
/-! DEFINITION. The terms claims are stated in: what a safe step is, the invariant of the reserved bits
and of memory's form, the default platform, and the spec's own account of an instruction's inputs and of
what becomes of its output (`40_execution_cycle.md` R118, R123, R124), written from its tables and not
from the step. -/

namespace Sys2Proof.Machine

/-- Whether a step of the machine is safe: it is not undefined behaviour (`00_scope.md` R11). -/
def safeStep (s : State) : Bool :=
  match step s with
  | .fault _ => false
  | .next _ | .refused _ => true

/-- A value whose bit 0, reserved in `SP`, `BP` and `IP`, is zero (`10_state.md` R35). -/
abbrev isEven (v : Word) : Prop := v.getLsbD 0 = false

/-- THE INVARIANT: memory is in canonical form, and no reserved bit of a register is 1 (`10_state.md` R32,
R34, R35, D3: "the register never holds such a bit"). -/
abbrev Inv (s : State) : Prop :=
  Memory.wf s.mem = true ∧ isEven s.sp ∧ isEven s.bp ∧ isEven s.ip ∧
    s.fr &&& reservedFr s.params = 0 ∧ s.ir &&& reservedIr = 0

/-- The defaults of `MemMap` and `BusError` (`00_scope.md` R6): all RAM, no bus error. -/
abbrev DefaultPlatform (s : State) : Prop := s.params.memMap = [] ∧ s.params.busErrors = []

/-- The default platform, with `IP` and `SP` even, as the invariant has them: every fetch and every stack
access succeeds. -/
abbrev Ready (s : State) : Prop := DefaultPlatform s ∧ isEven s.ip ∧ isEven s.sp

/-- The pin sample a step begins with (`60_exceptions.md` R244): the first one listed; where none is,
what `Env` gives (log 5). -/
def nextSample (s : State) : Pins :=
  s.pins.head?.getD
    (if s.params.env = .quiet then ⟨false, false, false, false⟩
    else ⟨Config.pinSignalled s.samples .rst, Config.pinSignalled s.samples .nmi,
      Config.pinSignalled s.samples .irq, false⟩)

/-- The state whose pin sample is used up: a listed one is gone, a free one is counted (log 5). -/
def afterSample (s : State) : State :=
  { s with
    pins := s.pins.drop 1
    samples := if s.pins = [] ∧ s.params.env = .unconstrained then s.samples + 1 else s.samples }

/-- No pin is signalled at this step and no interrupt is pending. -/
abbrev Undisturbed (s : State) : Prop := nextSample s = Pins.quiet ∧ s.ir = 0

/-- Rows of the condition table of `95_test_vectors.md` 3.1: bit `k` says whether the condition holds
when `FR[2:0]` is `k`. -/
def conditionRow : Condition → BitVec 8
  | .always => 0b11111111
  | .zero => 0b10101010
  | .nonzero => 0b01010101
  | .greater => 0b00010001
  | .less => 0b11001100
  | .greaterEq => 0b10111011
  | .lessEq => 0b11101110
  | .overflow => 0b11110000

/-- The value of an input whose immediate word and stack top are given (`30_encoding.md` R83). -/
def inputValue (sel : Input) (immediate top : Word) : Word :=
  match sel with
  | .zero => 0
  | .imm => immediate
  | .peek | .pop => top

/-- `input0` by the table of `40_execution_cycle.md` R118, for an instruction at `IP`. -/
def input0Of (c : Conf) (s : State) : Word :=
  inputValue c.i0 (wordAt s (s.ip + 2)) (wordAt s s.sp)

/-- `input1` by the table of `40_execution_cycle.md` R118: a first immediate or a first pop moves the
place it is taken from. -/
def input1Of (c : Conf) (s : State) : Word :=
  inputValue c.i1 (wordAt s (if c.i0 = .imm then s.ip + 4 else s.ip + 2))
    (wordAt s (if c.i0 = .pop then s.sp + 2 else s.sp))

/-- The address of the next instruction in sequence (`10_state.md` R24, `30_encoding.md` R86). -/
def nextIp (c : Conf) (s : State) : Word :=
  s.ip + 2 + (if c.i0 = .imm then 2 else 0) + (if c.i1 = .imm then 2 else 0)

/-- `SP` after the inputs (`40_execution_cycle.md` R118). -/
def spAfterInputs (c : Conf) (s : State) : Word :=
  s.sp + (if c.i0 = .pop then 2 else 0) + (if c.i1 = .pop then 2 else 0)

/-- The state in which the command runs: `IP` at the next instruction, `SP` after the pops, all else as
before (R118). -/
def afterInputs (c : Conf) (s : State) : State :=
  { s with ip := nextIp c s, sp := spAfterInputs c s }

/-- Memory with a word stored, little endian (`20_memory.md` R52). -/
def storeWord (m : Memory) (a v : Word) : Memory :=
  Memory.write (Memory.write m a.toNat (lowByte v)) (a + 1).toNat (highByte v)

/-- `FR` with the flags of an output (the table of `40_execution_cycle.md` R124): bit 0 is 1 if the output
is zero, bit 1 is the output's bit 15, every other bit stays. -/
def withZN (output fr : Word) : Word :=
  (fr &&& 0xFFFC) ||| (if output = 0 then 0x0001 else 0) ||| (if output ≥ 0x8000 then 0x0002 else 0)

/-- What becomes of the output: pushed or dropped (`40_execution_cycle.md` R123), then Z and N written or
not (R124). -/
def deliver (c : Conf) (output : Word) (t : State) : State :=
  let t : State := match c.r with
    | .discard => t
    | .push => { t with sp := t.sp - 2, mem := storeWord t.mem (t.sp - 2) output }
  match c.f with
  | .no => t
  | .yes => { t with fr := withZN output t.fr }

/-- The inputs as the machine fetches them: `v0` and `v1`, and the state the command runs in, on any
platform (`40_execution_cycle.md` R116, R117). -/
def InputsAre (c : Conf) (s : State) (v0 v1 : Word) (t : State) : Prop :=
  ∃ s', fetchInput c.i0 (advance s) = .ok v0 s' ∧ fetchInput c.i1 s' = .ok v1 t

/-- `SP` after an instruction that does not write it otherwise: after the inputs, and below a pushed
output (`40_execution_cycle.md` R123). -/
def spFinal (c : Conf) (s : State) : Word := spAfterInputs c s - (if c.r = .push then 2 else 0)

/-- An instruction executes and, on the default platform, none of its fetches or stack accesses is
undefined. -/
abbrev Runs (c : Conf) (s : State) : Prop := Ready s ∧ condHolds c.ex s.fr = true

/-- The triggers the interrupt phase of this step acts on (`60_exceptions.md` R228 step 0): those in `IR`,
and RST, NMI and IRQ of the pin sample as bits 0, 1 and 7 (R223 to R225, R244). -/
def pendingBits (s : State) : Word :=
  s.ir ||| (if (nextSample s).rst then 0x0001 else 0) ||| (if (nextSample s).nmi then 0x0002 else 0) |||
    (if (nextSample s).irq then 0x0080 else 0)

/-- Interrupt `n` is triggered and not masked (`60_exceptions.md` R228 step 2). -/
def willTake (s : State) (n : Nat) : Bool := (pendingBits s).getLsbD n && unmasked n s

/-- The access of an input, given where its immediate and the stack top stand (`20_memory.md` R55). -/
def inputAccess (sel : Input) (ip sp : Word) : List Access :=
  match sel with
  | .zero => []
  | .imm => [⟨ip, .word, .read, .code⟩]
  | .peek | .pop => [⟨sp, .word, .read, .data⟩]

/-- The data access of a command, if it has one (`20_memory.md` R55). -/
def commandAccess (i : Instr) (s : State) : List Access :=
  let a := input0Of i.conf s
  let b := input1Of i.conf s
  match i with
  | .get _ => [⟨s.bp + 2 * a, .word, .read, .data⟩]
  | .set _ => [⟨s.bp + 2 * a, .word, .write, .data⟩]
  | .store8 _ => [⟨b, .byte, .write, .data⟩]
  | .store16 _ => [⟨b, .word, .write, .data⟩]
  | .load8 _ => [⟨a, .byte, .read, .data⟩]
  | .load16 _ => [⟨a, .word, .read, .data⟩]
  | .copy _ | .cpuid _ | .halt _ | .frget _ | .frset _ | .bpget _ | .bpset _ | .spget _ | .spset _
  | .add _ | .sub _ | .mul _ | .div _ | .mod _ | .and _ | .or _ | .xor _ | .not _ | .signext _
  | .rol _ | .ror _ | .bswap _ | .asr _ | .lsl _ | .lsr _ | .setip _ | .addip _ | .intr _ => []

/-- The push of an instruction's output (`20_memory.md` R55), below `SP` after the inputs, or below the
new stack that `SPSET` sets. -/
def outputAccess (i : Instr) (s : State) : List Access :=
  let sp := if i = .spset i.conf then input0Of i.conf s else spAfterInputs i.conf s
  if i.conf.r = .push then [⟨sp - 2, .word, .write, .data⟩] else []

/-- The accesses of an instruction after its word's fetch, where memory is all RAM: none if it is skipped,
else those of `input0`, `input1`, the command and the output, in this order (`20_memory.md` R55, R62). -/
def accessesOf (i : Instr) (s : State) : List Access :=
  if condHolds i.conf.ex s.fr then
    inputAccess i.conf.i0 (s.ip + 2) s.sp ++
      inputAccess i.conf.i1 (if i.conf.i0 = .imm then s.ip + 4 else s.ip + 2)
        (if i.conf.i0 = .pop then s.sp + 2 else s.sp) ++
      commandAccess i s ++ outputAccess i s
  else []

/-- The same machine on a platform that signals no bus error (`00_scope.md` R6). -/
def withoutBusErrors (s : State) : State := { s with params := { s.params with busErrors := [] } }

/-- Some of an instruction's accesses is one the platform refuses. -/
def refuses (i : Instr) (s : State) : Prop := ∃ acc ∈ accessesOf i s, acc ∈ s.params.busErrors

/-- The bytes of the word at an address. -/
abbrev inWord (a x : Word) : Prop := x = a ∨ x = a + 1

/-- Memory reads the same at every address outside the word that an instruction pushes: the word below
`sp` if `r` is push, none otherwise. -/
def UnchangedButPush (c : Conf) (sp : Word) (s t : State) : Prop :=
  ∀ a, ¬ (c.r = .push ∧ inWord (sp - 2) a) → byteAt t a = byteAt s a

/-- `FR` is unchanged but for the bits listed, and but for Z and N if `f` is yes
(`40_execution_cycle.md` R124). -/
def FlagsUnchangedBut (c : Conf) (bits : List Nat) (s t : State) : Prop :=
  ∀ k, k ∉ bits → ¬ (c.f = .yes ∧ (k = 0 ∨ k = 1)) → t.fr.getLsbD k = s.fr.getLsbD k

end Sys2Proof.Machine
end

