-- ==== Sys2Proof/Certificates/Slice0/Obligations.lean ====
section
/-! DEFINITION. The statements about the machine, for the provers. Each names in its docstring the rules it
formalises; where it rests on a choice of the model it names the log entry. -/

open Sys2Proof Sys2Proof.Machine

/-! ### Encoding -/

/-- `30_encoding.md` R81, R88: the decoder gives back every instruction from its word, and from its bytes in
memory with whatever follows. -/
def Obligations.DecodeOfEncodeIsIdentity : Prop :=
  ∀ (i : Instr) (rest : List Byte),
    decodeWord (encodeWord i) = .ok i ∧ decode (encodeBytes i ++ rest) = .ok (i, rest)

/-- `30_encoding.md` R81, R88: a word that decodes is the word of its instruction, so no bit of it is
dropped. -/
def Obligations.EncodeOfDecodeIsIdentity : Prop :=
  ∀ (w : Word) (i : Instr), decodeWord w = .ok i → encodeWord i = w

/-- `30_encoding.md` R81: the packing of the fields into the word. -/
def Obligations.WordIsPackedFromFields : Prop :=
  ∀ i : Instr,
    (encodeWord i).toNat =
      (conditionCode i.conf.ex).toNat + (inputCode i.conf.i0).toNat * 2 ^ 3 +
        (inputCode i.conf.i1).toNat * 2 ^ 5 + (flagModCode i.conf.f).toNat * 2 ^ 7 +
        (outputCode i.conf.r).toNat * 2 ^ 8 + (commandCode i).toNat * 2 ^ 9

/-- `30_encoding.md` R89, R90: the words that are no instruction are those with bit 15 set or with command
1 or 35 to 63, and a step that fetches one is undefined, whatever its condition. -/
def Obligations.ReservedWordsAreUndefined : Prop :=
  (∀ w : Word, (∃ i, decodeWord w = .ok i) ↔
    w.getLsbD 15 = false ∧ (w.extractLsb' 9 6).toNat ≠ 1 ∧ (w.extractLsb' 9 6).toNat < 35) ∧
  (∀ s : State, Undisturbed s → s.halted = false → DefaultPlatform s → isEven s.ip →
    ((wordAt s s.ip).getLsbD 15 = true ∨ ((wordAt s s.ip).extractLsb' 9 6).toNat = 1 ∨
      35 ≤ ((wordAt s s.ip).extractLsb' 9 6).toNat) →
    step s = .fault .reservedEncoding)

/-- A few words of `30_encoding.md` R97, R99 and `95_test_vectors.md` 2.1 decode to what they stand for. -/
def Obligations.SampleWordsDecode : Prop :=
  decodeWord 0x2178 = .ok (.add ⟨.always, .pop, .pop, .no, .push⟩) ∧
  decodeWord 0x23B8 = .ok (.sub ⟨.always, .pop, .imm, .yes, .push⟩) ∧
  decodeWord 0x0A28 = .ok (.store16 ⟨.always, .imm, .imm, .no, .discard⟩) ∧
  decodeWord 0x400A = .ok (.setip ⟨.nonzero, .imm, .zero, .no, .discard⟩) ∧
  decodeWord 0x45FF = .ok (.intr ⟨.overflow, .pop, .pop, .yes, .push⟩) ∧
  decodeWord 0x0201 = .error .reservedCommand ∧ decodeWord 0x8000 = .error .reservedBit15

/-! ### The step -/

/-- `40_execution_cycle.md` R113: a step runs the instruction at `IP` after its interrupt phase. The state
given to `exec` is the one after the interrupt phase and the word's fetch, `IP` still at the word; in an
undisturbed step on the default platform it is the state before the step, less its pin sample (log 5,
log 15). -/
def Obligations.StepRunsDecodedInstruction : Prop :=
  (∀ (s s1 s2 : State) (w : Word) (i : Instr),
    interruptPhase s = .ok () s1 → s1.halted = false → fetch16 s1.ip s1 = .ok w s2 →
    decodeWord w = .ok i → step s = exec i s2) ∧
  (∀ (s : State) (i : Instr) (rest : List Byte),
    Undisturbed s → s.halted = false → DefaultPlatform s → isEven s.ip →
    decode (byteAt s s.ip :: byteAt s (s.ip + 1) :: rest) = .ok (i, rest) →
    step s = exec i (afterSample s))

/-- `40_execution_cycle.md` R122: a skipped instruction of any command only advances `IP` over its words, in
every state and on every platform. -/
def Obligations.SkippedInstructionOnlyAdvances : Prop :=
  ∀ (i : Instr) (s : State), condHolds i.conf.ex s.fr = false →
    exec i s = .next { s with ip := s.ip + BitVec.ofNat 16 i.length }

/-- `30_encoding.md` R82, `40_execution_cycle.md` R115 and the table of `95_test_vectors.md` 3.1: each
condition has its number in the `ex` field, and holds for exactly the listed combinations of C, N and Z,
whatever the other bits of `FR`. -/
def Obligations.ConditionsFollowTheTable : Prop :=
  (∀ (ex : Condition) (fr : Word),
    condHolds ex fr = (conditionRow ex).getLsbD (fr.toNat % 8)) ∧
  (conditionCode .always = 0 ∧ conditionCode .zero = 1 ∧ conditionCode .nonzero = 2 ∧
    conditionCode .greater = 3 ∧ conditionCode .less = 4 ∧ conditionCode .greaterEq = 5 ∧
    conditionCode .lessEq = 6 ∧ conditionCode .overflow = 7)

/-- `40_execution_cycle.md` R124: with `f` = yes an executed instruction writes Z and N from its output and
leaves every other bit of `FR` that its command does not write, with `f` = no it writes none. Said of
`COPY` bit by bit, with `withZN`, the flags that every completion statement's `deliver` writes, tied to
the same bits. -/
def Obligations.FlagModificationFollowsTheOutput : Prop :=
  (∀ (c : Conf) (s : State), Runs c s → ∃ t, exec (.copy c) s = .next t ∧
    (c.f = .yes → t.fr.getLsbD 0 = decide (input0Of c s = 0) ∧
      t.fr.getLsbD 1 = (input0Of c s).getLsbD 15 ∧ ∀ k, 2 ≤ k → t.fr.getLsbD k = s.fr.getLsbD k) ∧
    (c.f = .no → t.fr = s.fr)) ∧
  (∀ output fr : Word, (withZN output fr).getLsbD 0 = decide (output = 0) ∧
    (withZN output fr).getLsbD 1 = output.getLsbD 15 ∧
    ∀ k, 2 ≤ k → (withZN output fr).getLsbD k = fr.getLsbD k)

/-! ### Data movement -/

/-- `41_data_movement.md` R140. -/
def Obligations.CopyOutputsInput0 : Prop :=
  ∀ (c : Conf) (s : State), commandCode (.copy c) = 0 ∧
    (Runs c s → exec (.copy c) s = .next (deliver c (input0Of c s) (afterInputs c s)))

/-- `41_data_movement.md` R146: `LOAD16` outputs the word at `input0`; an odd address is undefined. -/
def Obligations.Load16OutputsTheWord : Prop :=
  ∀ (c : Conf) (s : State), commandCode (.load16 c) = 7 ∧
    (Runs c s →
      (isEven (input0Of c s) →
        exec (.load16 c) s = .next (deliver c (wordAt s (input0Of c s)) (afterInputs c s))) ∧
      (¬ isEven (input0Of c s) → exec (.load16 c) s = .fault .unaligned))

/-- `41_data_movement.md` R141, R145: `GET` outputs the word at `BP + 2 * input0`, modulo 2^16 by the spec's
decision D2; `LOAD8` outputs the byte at `input0`, zero-extended by the spec's decision D5. -/
def Obligations.GetAndLoad8OutputMemory : Prop :=
  ∀ (c : Conf) (s : State), (commandCode (.get c) = 2 ∧ commandCode (.load8 c) = 6) ∧
    (Runs c s →
      (isEven (s.bp + 2 * input0Of c s) →
        exec (.get c) s =
          .next (deliver c (wordAt s (s.bp + 2 * input0Of c s)) (afterInputs c s))) ∧
      (¬ isEven (s.bp + 2 * input0Of c s) → exec (.get c) s = .fault .unaligned) ∧
      exec (.load8 c) s =
        .next (deliver c ((byteAt s (input0Of c s)).setWidth 16) (afterInputs c s)))

/-- `41_data_movement.md` R142, R143, R144: `SET`, `STORE8` and `STORE16` store and output what they stored; a
word at an odd address is undefined. -/
def Obligations.StoresWriteMemoryAndOutput : Prop :=
  ∀ (c : Conf) (s : State),
    (commandCode (.set c) = 3 ∧ commandCode (.store8 c) = 4 ∧ commandCode (.store16 c) = 5) ∧
    (Runs c s →
      (isEven (s.bp + 2 * input0Of c s) →
        exec (.set c) s = .next (deliver c (input1Of c s)
          { afterInputs c s with
            mem := storeWord s.mem (s.bp + 2 * input0Of c s) (input1Of c s) })) ∧
      (¬ isEven (s.bp + 2 * input0Of c s) → exec (.set c) s = .fault .unaligned) ∧
      exec (.store8 c) s = .next (deliver c (input0Of c s &&& 0x00FF)
        { afterInputs c s with
          mem := Memory.write s.mem (input1Of c s).toNat (lowByte (input0Of c s)) }) ∧
      (isEven (input1Of c s) →
        exec (.store16 c) s = .next (deliver c (input0Of c s)
          { afterInputs c s with mem := storeWord s.mem (input1Of c s) (input0Of c s) })) ∧
      (¬ isEven (input1Of c s) → exec (.store16 c) s = .fault .unaligned))

/-! ### System and registers -/

/-- `42_system_registers.md` R150: `CPUID` outputs zero for zero inputs and a free word for others (log 7). -/
def Obligations.CpuidOutputsZeroOrFree : Prop :=
  ∀ (c : Conf) (s : State), commandCode (.cpuid c) = 8 ∧
    (Runs c s →
      (input0Of c s = 0 ∧ input1Of c s = 0 →
        exec (.cpuid c) s = .next (deliver c 0 (afterInputs c s))) ∧
      (¬ (input0Of c s = 0 ∧ input1Of c s = 0) →
        exec (.cpuid c) s = .next (deliver c (Config.freeWord s.draws)
          { afterInputs c s with draws := s.draws + 1 })))

/-- `42_system_registers.md` R151: `HALT` halts with `IP` past it; its output is a free word (log 7). -/
def Obligations.HaltStopsTheCore : Prop :=
  ∀ (c : Conf) (s : State), commandCode (.halt c) = 9 ∧
    (Runs c s → exec (.halt c) s = .next (deliver c (Config.freeWord s.draws)
      { afterInputs c s with halted := true, draws := s.draws + 1 }))

/-- `42_system_registers.md` R152, R154, R156: `FRGET` outputs the masked `FR`, `BPGET` `BP`, and `SPGET` `SP` as it
is after the inputs were fetched. -/
def Obligations.RegisterReadsOutputTheRegister : Prop :=
  ∀ (c : Conf) (s : State),
    (commandCode (.frget c) = 10 ∧ commandCode (.bpget c) = 12 ∧ commandCode (.spget c) = 14) ∧
    (Runs c s →
      exec (.frget c) s = .next (deliver c (s.fr &&& ~~~ input1Of c s) (afterInputs c s)) ∧
      exec (.bpget c) s = .next (deliver c s.bp (afterInputs c s)) ∧
      exec (.spget c) s = .next (deliver c (spAfterInputs c s) (afterInputs c s)))

/-- `42_system_registers.md` R153, `10_state.md` R32: `FRSET` replaces the bits its mask does not keep and outputs the
old `FR`; a 1 in a reserved bit is undefined by the spec's decision D3. The reserved bits are [15:8], and
[7:4] too on the SPU Mark II-L unless they are storage (D17). -/
def Obligations.FrsetReplacesUnmaskedBits : Prop :=
  ∀ (c : Conf) (s : State), commandCode (.frset c) = 11 ∧
    (Runs c s →
      let new := (input0Of c s &&& ~~~ input1Of c s) ||| (s.fr &&& input1Of c s)
      let reserved : Word :=
        if s.params.variant = .markIIL ∧ s.params.lFrI = .reserved then 0xFFF0 else 0xFF00
      (new &&& reserved = 0 →
        exec (.frset c) s = .next (deliver c s.fr { afterInputs c s with fr := new })) ∧
      (new &&& reserved ≠ 0 → exec (.frset c) s = .fault .reservedBit))

/-- `42_system_registers.md` R155, R157: `BPSET` and `SPSET` write their register and output its old value, `SP` as it
was after the inputs; with `r` push, `SPSET` pushes it on the new stack. An odd value is undefined by the
spec's decision D3. -/
def Obligations.PointerWritesOutputTheOldValue : Prop :=
  ∀ (c : Conf) (s : State), (commandCode (.bpset c) = 13 ∧ commandCode (.spset c) = 15) ∧
    (Runs c s →
      (isEven (input0Of c s) →
        exec (.bpset c) s = .next (deliver c s.bp { afterInputs c s with bp := input0Of c s }) ∧
        exec (.spset c) s =
          .next (deliver c (spAfterInputs c s) { afterInputs c s with sp := input0Of c s })) ∧
      (¬ isEven (input0Of c s) →
        exec (.bpset c) s = .fault .reservedBit ∧ exec (.spset c) s = .fault .reservedBit))

/-! ### Arithmetic -/

/-- `43_arithmetic.md` R165: the sum with C & CE, and C from its virtual 17th bit. -/
def Obligations.AddResultAndCarry : Prop :=
  ∀ (c : Conf) (s : State), commandCode (.add c) = 16 ∧
    (Runs c s →
      let cin := if s.fr.getLsbD 2 = true ∧ s.fr.getLsbD 3 = true then 1 else 0
      let sum := (input0Of c s).toNat + (input1Of c s).toNat + cin
      ∃ t : State, exec (.add c) s = .next (deliver c (BitVec.ofNat 16 sum) t) ∧
        t = { afterInputs c s with fr := t.fr } ∧
        ∀ k, t.fr.getLsbD k = if k = 2 then decide (65536 ≤ sum) else s.fr.getLsbD k)

/-- `43_arithmetic.md` R166: the difference with C & CE, and C as the borrow. -/
def Obligations.SubResultAndBorrow : Prop :=
  ∀ (c : Conf) (s : State), commandCode (.sub c) = 17 ∧
    (Runs c s →
      let cin := if s.fr.getLsbD 2 = true ∧ s.fr.getLsbD 3 = true then 1 else 0
      ∃ t : State,
        exec (.sub c) s =
          .next (deliver c (input0Of c s - input1Of c s - BitVec.ofNat 16 cin) t) ∧
        t = { afterInputs c s with fr := t.fr } ∧
        ∀ k, t.fr.getLsbD k =
          if k = 2 then decide ((input0Of c s).toNat < (input1Of c s).toNat + cin)
          else s.fr.getLsbD k)

/-- `43_arithmetic.md` R167: the product, and C by the parameter `MulCarry`: by default the unsigned product
reaches 2^16; for every parameter so where both inputs are below 0x8000, and 0 where one is zero
(log 14). -/
def Obligations.MulResultAndCarry : Prop :=
  ∀ (c : Conf) (s : State), commandCode (.mul c) = 18 ∧
    (Runs c s →
      let a := input0Of c s
      let b := input1Of c s
      ∃ (t : State) (carry : Bool), exec (.mul c) s = .next (deliver c (a * b) t) ∧
        t = { afterInputs c s with fr := t.fr } ∧
        (∀ k, t.fr.getLsbD k = if k = 2 then carry else s.fr.getLsbD k) ∧
        (s.params.mulCarry = .unsignedProduct → carry = decide (65536 ≤ a.toNat * b.toNat)) ∧
        (a.toNat < 0x8000 ∧ b.toNat < 0x8000 → carry = decide (65536 ≤ a.toNat * b.toNat)) ∧
        (a = 0 ∨ b = 0 → carry = false))

/-- `43_arithmetic.md` R168, R169: for a divisor that is not zero, `DIV` and `MOD` output the quotient and the
remainder of one division. For every parameter `DivMod`: floor for a non-negative dividend and a
positive divisor, and unless -32768 / -1, quotient times divisor plus remainder is the dividend, with a
remainder smaller than the divisor (so an exact quotient is that quotient). By default the quotient is
rounded toward zero, and -32768 / -1 gives 0x8000 and 0. -/
def Obligations.DivisionResults : Prop :=
  ∀ (c : Conf) (s : State), (commandCode (.div c) = 19 ∧ commandCode (.mod c) = 20) ∧
    (Runs c s → input1Of c s ≠ 0 →
      let a := input0Of c s
      let b := input1Of c s
      ∃ q r : Word,
        exec (.div c) s = .next (deliver c q (afterInputs c s)) ∧
        exec (.mod c) s = .next (deliver c r (afterInputs c s)) ∧
        (0 ≤ a.toInt ∧ 0 < b.toInt → q.toInt = a.toInt / b.toInt ∧ r.toInt = a.toInt % b.toInt) ∧
        (¬ (a = 0x8000 ∧ b = 0xFFFF) →
          q.toInt * b.toInt + r.toInt = a.toInt ∧ r.toInt.natAbs < b.toInt.natAbs) ∧
        (s.params.divMod = .truncate →
          (¬ (a = 0x8000 ∧ b = 0xFFFF) →
            q.toInt = a.toInt.tdiv b.toInt ∧ r.toInt = a.toInt.tmod b.toInt) ∧
          (a = 0x8000 ∧ b = 0xFFFF → q = 0x8000 ∧ r = 0)))

/-- `43_arithmetic.md` R173: a division by zero completes with a free output (log 7) and triggers ARITH on the
SPU Mark II, nothing on the SPU Mark II-L. -/
def Obligations.DivisionByZeroTriggersArith : Prop :=
  ∀ (c : Conf) (s : State), Runs c s → input1Of c s = 0 →
    let t : State := { afterInputs c s with
      draws := s.draws + 1
      ir := if s.params.variant = .markII then s.ir ||| 0x0010 else s.ir }
    exec (.div c) s = .next (deliver c (Config.freeWord s.draws) t) ∧
    exec (.mod c) s = .next (deliver c (Config.freeWord s.draws) t)

/-! ### Logic, shifts, bytes -/

/-- `44_logic_shift.md` R180 to R191: the outputs of the eleven commands, written from the rules' shift and mask
forms; from `NOT` on `input1` does not appear. -/
def Obligations.LogicAndShiftOutputs : Prop :=
  ∀ (c : Conf) (s : State),
    (commandCode (.and c) = 21 ∧ commandCode (.or c) = 22 ∧ commandCode (.xor c) = 23 ∧
      commandCode (.not c) = 24 ∧ commandCode (.signext c) = 25 ∧ commandCode (.rol c) = 26 ∧
      commandCode (.ror c) = 27 ∧ commandCode (.bswap c) = 28 ∧ commandCode (.asr c) = 29 ∧
      commandCode (.lsl c) = 30 ∧ commandCode (.lsr c) = 31) ∧
    (Runs c s →
      let a := input0Of c s
      let b := input1Of c s
      let t := afterInputs c s
      exec (.and c) s = .next (deliver c (a &&& b) t) ∧
      exec (.or c) s = .next (deliver c (a ||| b) t) ∧
      exec (.xor c) s = .next (deliver c (a ^^^ b) t) ∧
      exec (.not c) s = .next (deliver c (a ^^^ 0xFFFF) t) ∧
      exec (.signext c) s =
        .next (deliver c (if a.getLsbD 7 then 0xFF00 ||| (a &&& 0x00FF) else a &&& 0x00FF) t) ∧
      exec (.rol c) s = .next (deliver c ((a <<< 1) ||| (a >>> 15)) t) ∧
      exec (.ror c) s = .next (deliver c ((a >>> 1) ||| ((a &&& 1) <<< 15)) t) ∧
      exec (.bswap c) s = .next (deliver c ((a <<< 8) ||| (a >>> 8)) t) ∧
      exec (.asr c) s = .next (deliver c ((a &&& (0x8000 : Word)) ||| (a >>> 1)) t) ∧
      exec (.lsl c) s = .next (deliver c (a <<< 1) t) ∧
      exec (.lsr c) s = .next (deliver c (a >>> 1) t))

/-! ### Control -/

/-- `45_control.md` R200, R201: `SETIP` goes to `input0`, `ADDIP` to the next instruction plus `input0` bytes;
both OR `input1` into `FR` and output the address of the next instruction in sequence. An odd target or
a 1 in a reserved bit of `FR` is undefined. -/
def Obligations.TransfersSetIpAndFlags : Prop :=
  ∀ (c : Conf) (s : State), (commandCode (.setip c) = 32 ∧ commandCode (.addip c) = 33) ∧
    (Runs c s →
      let fr := s.fr ||| input1Of c s
      let legal := fr &&& reservedFr s.params = 0
      let abs := input0Of c s
      let rel := nextIp c s + input0Of c s
      (isEven abs ∧ legal → exec (.setip c) s =
        .next (deliver c (nextIp c s) { afterInputs c s with ip := abs, fr := fr })) ∧
      (¬ (isEven abs ∧ legal) → exec (.setip c) s = .fault .reservedBit) ∧
      (isEven rel ∧ legal → exec (.addip c) s =
        .next (deliver c (nextIp c s) { afterInputs c s with ip := rel, fr := fr })) ∧
      (¬ (isEven rel ∧ legal) → exec (.addip c) s = .fault .reservedBit))

/-- `45_control.md` R202: `INTR` sets the bits of `input0` in `IR`; a reserved bit is undefined, and so is
`INTR` on the SPU Mark II-L. -/
def Obligations.IntrTriggersInterrupts : Prop :=
  ∀ (c : Conf) (s : State), commandCode (.intr c) = 34 ∧
    (Runs c s →
      (s.params.variant = .markII → input0Of c s &&& 0xFF08 = 0 →
        exec (.intr c) s = .next (deliver c (input0Of c s)
          { afterInputs c s with ir := s.ir ||| input0Of c s })) ∧
      (s.params.variant = .markII → input0Of c s &&& 0xFF08 ≠ 0 →
        exec (.intr c) s = .fault .reservedBit) ∧
      (s.params.variant = .markIIL → exec (.intr c) s = .fault .noInterruptRegister))

/-! ### Frames: what an executed instruction leaves unchanged, on any memory map -/

/-- The commands that only compute an output (`41_data_movement.md`, `42_system_registers.md`,
`44_logic_shift.md`). -/
def Obligations.FrameOfComputingCommands : Prop :=
  ∀ (c : Conf) (s t : State),
    ∀ i ∈ ([.copy c, .get c, .load8 c, .load16 c, .cpuid c, .frget c, .bpget c, .spget c, .and c,
        .or c, .xor c, .not c, .signext c, .rol c, .ror c, .bswap c, .asr c, .lsl c,
        .lsr c] : List Instr),
      s.params.busErrors = [] → condHolds c.ex s.fr = true → exec i s = .next t →
      t.sp = spFinal c s ∧ t.bp = s.bp ∧ t.ir = s.ir ∧ t.halted = s.halted ∧
        t.params = s.params ∧ t.pins = s.pins ∧ FlagsUnchangedBut c [] s t ∧
        UnchangedButPush c (spAfterInputs c s) s t

/-- `ADD`, `SUB`, `MUL` write C besides (`43_arithmetic.md` R172). -/
def Obligations.FrameOfCarryCommands : Prop :=
  ∀ (c : Conf) (s t : State),
    ∀ i ∈ ([.add c, .sub c, .mul c] : List Instr),
      s.params.busErrors = [] → condHolds c.ex s.fr = true → exec i s = .next t →
      t.sp = spFinal c s ∧ t.bp = s.bp ∧ t.ir = s.ir ∧ t.halted = s.halted ∧
        t.params = s.params ∧ t.pins = s.pins ∧ FlagsUnchangedBut c [2] s t ∧
        UnchangedButPush c (spAfterInputs c s) s t

/-- `DIV` and `MOD` trigger ARITH besides, for a zero divisor alone (`43_arithmetic.md` R168, R169, R173). -/
def Obligations.FrameOfDivision : Prop :=
  ∀ (c : Conf) (s t : State),
    ∀ i ∈ ([.div c, .mod c] : List Instr),
      s.params.busErrors = [] → condHolds c.ex s.fr = true → exec i s = .next t →
      t.sp = spFinal c s ∧ t.bp = s.bp ∧ t.halted = s.halted ∧
        (∀ v0 v1 s2, InputsAre c s v0 v1 s2 → v1 ≠ 0 → t.ir = s.ir) ∧
        (∀ k, k ≠ 4 → t.ir.getLsbD k = s.ir.getLsbD k) ∧
        t.params = s.params ∧ t.pins = s.pins ∧ FlagsUnchangedBut c [] s t ∧
        UnchangedButPush c (spAfterInputs c s) s t

/-- `SET`, `STORE8`, `STORE16` store at the address their inputs give (`41_data_movement.md` R142 to R144), and
nowhere else but in the pushed word. -/
def Obligations.FrameOfStores : Prop :=
  ∀ (c : Conf) (s t s2 : State) (v0 v1 : Word),
    s.params.busErrors = [] → condHolds c.ex s.fr = true → InputsAre c s v0 v1 s2 →
    ∀ i ∈ ([.set c, .store8 c, .store16 c] : List Instr), exec i s = .next t →
      t.sp = spFinal c s ∧ t.bp = s.bp ∧ t.ir = s.ir ∧ t.halted = s.halted ∧
        t.params = s.params ∧ t.pins = s.pins ∧ FlagsUnchangedBut c [] s t ∧
        ∀ a, ¬ (c.r = .push ∧ inWord (spAfterInputs c s - 2) a) →
          (i = .set c → ¬ inWord (frameAddress s v0) a) →
          (i = .store16 c → ¬ inWord v1 a) →
          (i = .store8 c → a ≠ v1) → byteAt t a = byteAt s a

/-- `BPSET`, `FRSET` and `HALT` write their one register and leave the rest, `FRSET` the bits its mask keeps too (`42_system_registers.md` R151, R153,
R155). -/
def Obligations.FrameOfRegisterWriters : Prop :=
  ∀ (c : Conf) (s t : State),
    ∀ i ∈ ([.bpset c, .frset c, .halt c] : List Instr),
      s.params.busErrors = [] → condHolds c.ex s.fr = true → exec i s = .next t →
      t.sp = spFinal c s ∧ t.ir = s.ir ∧ t.params = s.params ∧ t.pins = s.pins ∧
        (i ≠ .bpset c → t.bp = s.bp) ∧
        (i ≠ .frset c → FlagsUnchangedBut c [] s t) ∧
        (∀ v0 v1 s2, InputsAre c s v0 v1 s2 → ∀ k, v1.getLsbD k = true →
          ¬ (c.f = .yes ∧ k < 2) → t.fr.getLsbD k = s.fr.getLsbD k) ∧
        (i ≠ .halt c → t.halted = s.halted) ∧
        UnchangedButPush c (spAfterInputs c s) s t

/-- `SPSET` moves the stack, and pushes on the new one (`42_system_registers.md` R157). -/
def Obligations.FrameOfSpset : Prop :=
  ∀ (c : Conf) (s t s2 : State) (v0 v1 : Word),
    s.params.busErrors = [] → condHolds c.ex s.fr = true → InputsAre c s v0 v1 s2 →
    exec (.spset c) s = .next t →
      t.sp = v0 - (if c.r = .push then 2 else 0) ∧ t.bp = s.bp ∧ t.ir = s.ir ∧
        t.halted = s.halted ∧ t.params = s.params ∧ t.pins = s.pins ∧ FlagsUnchangedBut c [] s t ∧
        UnchangedButPush c v0 s t

/-- `SETIP`, `ADDIP` and `INTR` (`45_control.md`): `INTR` ORs `input0` into `IR`, the transfers OR
`input1` into `FR`, and nothing else of either register changes. -/
def Obligations.FrameOfControl : Prop :=
  ∀ (c : Conf) (s t : State),
    ∀ i ∈ ([.setip c, .addip c, .intr c] : List Instr),
      s.params.busErrors = [] → condHolds c.ex s.fr = true → exec i s = .next t →
      t.sp = spFinal c s ∧ t.bp = s.bp ∧ t.halted = s.halted ∧ t.params = s.params ∧
        t.pins = s.pins ∧ (i ≠ .intr c → t.ir = s.ir) ∧
        (i = .intr c → FlagsUnchangedBut c [] s t) ∧
        (∀ v0 v1 s2, InputsAre c s v0 v1 s2 →
          (i = .intr c → ∀ k, v0.getLsbD k = false → t.ir.getLsbD k = s.ir.getLsbD k) ∧
          (∀ k, v1.getLsbD k = false ∨ s.fr.getLsbD k = true → ¬ (c.f = .yes ∧ k < 2) →
            t.fr.getLsbD k = s.fr.getLsbD k)) ∧
        UnchangedButPush c (spAfterInputs c s) s t

/-! ### Rules about all instructions -/

/-- `45_control.md` R203: no instruction but `SETIP` and `ADDIP` goes anywhere but to the next instruction. -/
def Obligations.OnlyTransfersLeaveTheSequence : Prop :=
  ∀ (i : Instr) (s t : State), (∀ c, i ≠ .setip c ∧ i ≠ .addip c) → s.params.busErrors = [] →
    exec i s = .next t → t.ip = nextIp i.conf s

/-- `10_state.md` R27 to R29, R31: Z and N are written by `FRSET`, `SETIP`, `ADDIP` and `f` = yes alone; C by
those commands and `ADD`, `SUB`, `MUL`; CE, the enables and the reserved bits by `FRSET`, `SETIP`, `ADDIP`
alone. -/
def Obligations.FlagsHaveFewWriters : Prop :=
  ∀ (i : Instr) (s t : State), (∀ c, i ≠ .frset c ∧ i ≠ .setip c ∧ i ≠ .addip c) →
    exec i s = .next t →
    (i.conf.f = .no → t.fr.getLsbD 0 = s.fr.getLsbD 0 ∧ t.fr.getLsbD 1 = s.fr.getLsbD 1) ∧
    ((∀ c, i ≠ .add c ∧ i ≠ .sub c ∧ i ≠ .mul c) → t.fr.getLsbD 2 = s.fr.getLsbD 2) ∧
    ∀ k, 3 ≤ k → t.fr.getLsbD k = s.fr.getLsbD k

/-- `10_state.md` R23: `BP` is written only by `BPSET`; reset and interrupt entry leave it. -/
def Obligations.OnlyBpsetWritesBp : Prop :=
  ∀ (s t : State), step s = .next t → t.bp ≠ s.bp →
    ∃ (s1 s2 : State) (c : Conf), interruptPhase s = .ok () s1 ∧ fetchInstr s1 = .ok (.bpset c) s2

/-- `10_state.md` R30: `halted` is set by `HALT` and cleared by the interrupt phase, and by nothing else. -/
def Obligations.OnlyHaltHalts : Prop :=
  (∀ (i : Instr) (s t : State), exec i s = .next t → t.halted ≠ s.halted →
    t.halted = true ∧ ∃ c, i = .halt c) ∧
  (∀ (s t : State), interruptPhase s = .ok () t → t.halted = true → s.halted = true)

/-- `10_state.md` R34, `60_exceptions.md` R222: an instruction other than `INTR` changes `IR` in two ways: by a
bus error, or by a division by zero. -/
def Obligations.IrHasFewWriters : Prop :=
  ∀ (i : Instr) (s t : State), (∀ c, i ≠ .intr c) → exec i s = .next t →
    t.ir = s.ir ∨ (s.params.busErrors ≠ [] ∧ t.ir = s.ir ||| 0x0004) ∨
      ((∃ c, i = .div c ∨ i = .mod c) ∧ t.ir = s.ir ||| 0x0010)

/-- `60_exceptions.md` R240: an instruction (but `INTR`, which may set the bit itself) that triggers BUS has no
other effect. The count of drawn free words and the devices' state are the model's own (log 11). -/
def Obligations.BusErrorCancelsTheInstruction : Prop :=
  ∀ (i : Instr) (s t : State), (∀ c, i ≠ .intr c) → exec i s = .next t →
    s.ir.getLsbD 2 = false → t.ir.getLsbD 2 = true →
    s.params.variant = .markII ∧
      t = { s with ir := s.ir ||| 0x0004, draws := t.draws, device := t.device }

/-- `00_scope.md` R6: the parameters are fixed for the machine (the model keeps them in the state, log 4). -/
def Obligations.NoStepChangesTheParameters : Prop :=
  ∀ (s t : State), step s = .next t → t.params = s.params

/-! ### Memory -/

/-- `20_memory.md` R52: a word written to RAM at an even address reads back, little endian, byte by byte, a byte
written at any address reads back, and no other byte changes. -/
def Obligations.WritesReadBackLittleEndian : Prop :=
  ∀ (s : State) (a v : Word), DefaultPlatform s →
    (isEven a → ∃ t, memWrite .word a v s = .ok () t ∧
      memRead .data .word a t = .ok v t ∧
      memRead .data .byte a t = .ok (v &&& 0x00FF) t ∧
      memRead .data .byte (a + 1) t = .ok (v >>> 8) t ∧
      ∀ x, ¬ inWord a x → byteAt t x = byteAt s x) ∧
    (∃ t, memWrite .byte a v s = .ok () t ∧ memRead .data .byte a t = .ok (v &&& 0x00FF) t ∧
      ∀ x, x ≠ a → byteAt t x = byteAt s x)

/-- `20_memory.md` R53, R54: what an odd `SP` or `IP`, a state no run reaches, makes undefined: a push, a pop or
a peek, and the fetch of an instruction. -/
def Obligations.OddPointersAreUndefined : Prop :=
  (∀ (c : Conf) (s : State), DefaultPlatform s → isEven s.ip → ¬ isEven s.sp →
    condHolds c.ex s.fr = true →
    (c.i0 = .peek ∨ c.i0 = .pop ∨ c.i1 = .peek ∨ c.i1 = .pop ∨ c.r = .push) →
    exec (.copy c) s = .fault .unaligned) ∧
  (∀ s : State, Undisturbed s → s.halted = false → ¬ isEven s.ip → step s = .fault .unaligned)

/-- `20_memory.md` R68: without a bus error, an aligned access with a byte where nothing stands is undefined, and
so is an aligned write with a byte in ROM and none where nothing stands. For a word whose two bytes lie in
regions of different kinds the rule says nothing: that one such byte decides is the model's choice (DESIGN
CHOICE, UNSAFE, log 9), and that nothing comes before ROM is too (log 10). -/
def Obligations.RomAndNothingAreUndefined : Prop :=
  ∀ (s : State) (w : Width) (a v : Word), s.params.busErrors = [] → (w = .word → isEven a) →
    ((kindAt s a = .nothing ∨ (w = .word ∧ kindAt s (a + 1) = .nothing)) →
      memWrite w a v s = .fault .unmapped ∧ ∀ k, memRead k w a s = .fault .unmapped) ∧
    (kindAt s a ≠ .nothing → (w = .word → kindAt s (a + 1) ≠ .nothing) →
      (kindAt s a = .rom ∨ (w = .word ∧ kindAt s (a + 1) = .rom)) →
      memWrite w a v s = .fault .writeToRom)

/-- `20_memory.md` R68: a word access that lies in a device region calls the platform's functions, uninterpreted
here, and leaves memory and every register alone (log 8). -/
def Obligations.DeviceAccessesCallThePlatform : Prop :=
  ∀ (s : State) (a v : Word), s.params.busErrors = [] → isEven a →
    kindAt s a = .device → kindAt s (a + 1) = .device →
    (∀ k, let acc : Access := ⟨a, .word, .read, k⟩
      memRead k .word a s = .ok (Config.deviceRead s.device acc)
        { s with device := Config.deviceNext s.device acc (Config.deviceRead s.device acc) }) ∧
    memWrite .word a v s =
      .ok () { s with device := Config.deviceNext s.device ⟨a, .word, .write, .data⟩ v }

/-! ### Interrupts, reset, halting -/

/-- `60_exceptions.md` R231 (with R224, R225, R228): when one interrupt is pending, from `IR` or from a pin,
and not masked, the phase pushes `1 << n` and `IP`, loads `IP` from the table, masks a maskable one, and
changes nothing else. -/
def Obligations.InterruptEntry : Prop :=
  ∀ (s : State) (n : Nat), s.params.variant = .markII → DefaultPlatform s → isEven s.sp →
    (nextSample s).bus = false → n ∈ [1, 2, 4, 5, 6, 7] → pendingBits s = BitVec.ofNat 16 (2 ^ n) →
    (n < 4 ∨ s.fr.getLsbD n = true) →
    let t : State := { afterSample s with
      ir := 0, halted := false, sp := s.sp - 4
      mem := storeWord (storeWord s.mem (s.sp - 2) (BitVec.ofNat 16 (2 ^ n))) (s.sp - 4) s.ip }
    let target := wordAt t (BitVec.ofNat 16 (2 * n))
    isEven target → interruptPhase s = .ok () { t with
      ip := target
      fr := if 4 ≤ n then s.fr &&& ~~~ BitVec.ofNat 16 (2 ^ n) else s.fr }

/-- `10_state.md` R35, `60_exceptions.md` R228: an interrupt-table entry with bit 0 set is undefined when it is loaded
into `IP`, by the spec's decision D3. -/
def Obligations.OddTableEntryIsUndefined : Prop :=
  ∀ (s : State) (n : Nat), s.params.variant = .markII → DefaultPlatform s → isEven s.sp →
    (nextSample s).bus = false → n ∈ interruptOrder → pendingBits s = BitVec.ofNat 16 (2 ^ n) →
    willTake s n = true →
    ¬ isEven (wordAt { s with
      mem := storeWord (storeWord s.mem (s.sp - 2) (BitVec.ofNat 16 (2 ^ n))) (s.sp - 4) s.ip }
      (BitVec.ofNat 16 (2 * n))) →
    step s = .fault .reservedBit

/-- `60_exceptions.md` R226: a trigger of a masked interrupt is lost and has no other effect. -/
def Obligations.MaskedTriggerIsLost : Prop :=
  ∀ (s : State) (n : Nat), s.params.variant = .markII → (nextSample s).bus = false →
    n ∈ [4, 5, 6, 7] → pendingBits s = BitVec.ofNat 16 (2 ^ n) → s.fr.getLsbD n = false →
    interruptPhase s = .ok () { afterSample s with ir := 0 }

/-- `60_exceptions.md` R230: every triggered interrupt that is not masked is entered, and the core goes on in the
handler of the lowest-numbered one. -/
def Obligations.LowestInterruptRunsFirst : Prop :=
  ∀ (s t : State) (m : Nat), s.params.variant = .markII → s.params.memMap = [] →
    (pendingBits s).getLsbD 0 = false → m ∈ interruptOrder → willTake s m = true →
    (∀ k ∈ interruptOrder, k < m → willTake s k = false) →
    interruptPhase s = .ok () t →
    t.ip = wordAt t (BitVec.ofNat 16 (2 * m)) ∧ t.halted = false ∧ t.bp = s.bp ∧
      t.sp = s.sp - BitVec.ofNat 16 (4 * (interruptOrder.filter (willTake s)).length) ∧
      ∀ k, t.fr.getLsbD k = (s.fr.getLsbD k && !(decide (4 ≤ k ∧ k < 8) && willTake s k))

/-- `60_exceptions.md` R228: after the interrupt phase of the SPU Mark II no trigger is left. -/
def Obligations.InterruptPhaseEmptiesIr : Prop :=
  ∀ (s t : State), s.params.variant = .markII → interruptPhase s = .ok () t → t.ir = 0

/-- `60_exceptions.md` R236, R237: the idiom `SETIP [i0:pop] [i1:pop]` run as the handler's first instruction gives
back `IP`, `SP` and, for a maskable interrupt, `FR`; for NMI and BUS it also sets N or C. -/
def Obligations.ReturnFromInterrupt : Prop :=
  ∀ (s t : State) (n : Nat), s.params.variant = .markII → DefaultPlatform s → isEven s.ip →
    s.fr &&& reservedFr s.params = 0 → n ∈ [1, 2, 4, 5, 6, 7] → (n < 4 ∨ s.fr.getLsbD n = true) →
    takeInterrupt n s = .ok () t →
    exec (.setip ⟨.always, .pop, .pop, .no, .discard⟩) t = .next { t with
      ip := s.ip, sp := s.sp
      fr := if n < 4 then s.fr ||| BitVec.ofNat 16 (2 ^ n) else s.fr }

/-- `70_reset_and_hazards.md` R260: the reset sequence of the SPU Mark II, pending from `IR` or from the RST pin,
whatever else is pending; an odd reset entry is undefined. -/
def Obligations.ResetSequenceMarkII : Prop :=
  ∀ s : State, s.params.variant = .markII → DefaultPlatform s → (nextSample s).bus = false →
    (pendingBits s).getLsbD 0 = true →
    (isEven (wordAt s 0x0000) → interruptPhase s = .ok () { afterSample s with
      ip := wordAt s 0x0000, fr := 0, ir := 0, halted := false }) ∧
    (¬ isEven (wordAt s 0x0000) → interruptPhase s = .fault .reservedBit)

/-- `70_reset_and_hazards.md` R261, `60_exceptions.md` R247: the interrupt phase of the SPU Mark II-L is the RST
test alone; the pins NMI, IRQ and BUS have no effect. -/
def Obligations.InterruptPhaseMarkIIL : Prop :=
  ∀ s : State, s.params.variant = .markIIL →
    ((nextSample s).rst = true → interruptPhase s =
      .ok () { afterSample s with ip := 0x0000, fr := 0, halted := false }) ∧
    ((nextSample s).rst = false → interruptPhase s = .ok () (afterSample s))

/-- `10_state.md` R38, `70_reset_and_hazards.md` R260: with a program loaded, the first step from reset takes `IP`
from the word at 0x0000 with FR, IR and `halted` clear, and runs the instruction there (log 1). -/
def Obligations.FirstStepRunsTheResetEntry : Prop :=
  ∀ (m : Memory) (i : Instr),
    let s : State := { State.reset with mem := m }
    let entry := wordAt s 0x0000
    isEven entry → decodeWord (wordAt s entry) = .ok i →
    step s = exec i { afterSample s with ip := entry, fr := 0, ir := 0, halted := false }

/-- `40_execution_cycle.md` R128, `60_exceptions.md` R238: a halted core that takes no interrupt and no reset changes
nothing but to use up its pin sample and to lose masked triggers. -/
def Obligations.HaltedCoreWaits : Prop :=
  (∀ s : State, s.params.variant = .markII → s.halted = true → (nextSample s).bus = false →
    pendingBits s &&& 0xFF09 = 0 → (∀ n ∈ interruptOrder, willTake s n = false) →
    step s = .next { afterSample s with ir := 0 }) ∧
  (∀ s : State, s.params.variant = .markIIL → s.halted = true → (nextSample s).rst = false →
    step s = .next (afterSample s))

/-- `60_exceptions.md` R240, `20_memory.md` R55, R56: where memory is all RAM, an instruction that would complete
on a platform without bus errors, and that makes any access the platform refuses (an immediate, a stack
read, the command's access, the push of the output), is undone whole, and BUS is triggered; an
instruction word that is refused triggers BUS with `IP` still at it. The count of drawn free words and the
devices' state are the model's own (log 11). -/
def Obligations.RefusedAccessTriggersBus : Prop :=
  (∀ (i : Instr) (s t : State), s.params.variant = .markII → s.params.memMap = [] →
    exec i (withoutBusErrors s) = .next t → refuses i s →
    ∃ n, exec i s = .next { s with ir := s.ir ||| 0x0004, draws := n }) ∧
  (∀ s : State, s.params.variant = .markII → Undisturbed s → s.halted = false → isEven s.ip →
    (⟨s.ip, .word, .read, .code⟩ : Access) ∈ s.params.busErrors →
    ∃ n d, step s = .next { afterSample s with ir := 0x0004, draws := n, device := d } ∧
      ((∀ r ∈ s.params.memMap, r.kind ≠ .device) → n = s.draws ∧ d = s.device))

/-- `20_memory.md` R55, R56: where memory is all RAM, an instruction none of whose accesses the platform refuses
does what it does on a platform without bus errors, on both variants. -/
def Obligations.OnlyRefusedAccessesMatter : Prop :=
  ∀ (i : Instr) (s : State), s.params.memMap = [] → ¬ refuses i s →
    (∀ t, exec i (withoutBusErrors s) = .next t → exec i s = .next { t with params := s.params }) ∧
    (∀ e, exec i (withoutBusErrors s) = .fault e → exec i s = .fault e)

/-- `60_exceptions.md` R241, R247: undefined are a bus error in the reset sequence, at either push or the table read
of an interrupt entry, from the BUS pin outside a memory operation (log 6), and on the SPU Mark II-L of
the instruction word or of any access of an instruction. -/
def Obligations.BusErrorOutsideInstructionIsUndefined : Prop :=
  (∀ s : State, s.params.variant = .markII → (nextSample s).bus = true →
    step s = .fault .busErrorOutsideInstruction) ∧
  (∀ s : State, s.params.variant = .markII → (nextSample s).bus = false →
    (pendingBits s).getLsbD 0 = true →
    (⟨0x0000, .word, .read, .code⟩ : Access) ∈ s.params.busErrors →
    step s = .fault .busErrorOutsideInstruction) ∧
  (∀ (s : State) (n : Nat), s.params.variant = .markII → (nextSample s).bus = false →
    isEven s.sp → n ∈ interruptOrder → pendingBits s = BitVec.ofNat 16 (2 ^ n) →
    willTake s n = true →
    (⟨s.sp - 2, .word, .write, .data⟩ : Access) ∈ s.params.busErrors ∨
      (s.params.memMap = [] ∧
        ((⟨s.sp - 4, .word, .write, .data⟩ : Access) ∈ s.params.busErrors ∨
          (⟨BitVec.ofNat 16 (2 * n), .word, .read, .code⟩ : Access) ∈ s.params.busErrors)) →
    step s = .fault .busErrorOutsideInstruction) ∧
  (∀ s : State, s.params.variant = .markIIL → (nextSample s).rst = false → s.halted = false →
    isEven s.ip → (⟨s.ip, .word, .read, .code⟩ : Access) ∈ s.params.busErrors →
    step s = .fault .busErrorOutsideInstruction) ∧
  (∀ (i : Instr) (s t : State), s.params.variant = .markIIL → s.params.memMap = [] →
    exec i (withoutBusErrors s) = .next t → refuses i s →
    exec i s = .fault .busErrorOutsideInstruction)

/-! ### The invariant -/

/-- `10_state.md` R32, R34, R35 and D3: every step from a state whose memory is in canonical form and whose reserved
register bits are zero, on any platform and with any pins, leaves such a state. -/
def Obligations.EveryStepKeepsTheInvariant : Prop :=
  ∀ (s t : State), Inv s → step s = .next t → Inv t

/-- The state after reset meets the invariant, on both variants; `SP`, `BP` and `IP` by the model's choice of their
value there (log 2). -/
def Obligations.ResetMeetsTheInvariant : Prop :=
  Inv State.reset ∧ ∀ v : Variant, Inv (State.powerOn v)
end

