-- ==== Sys2Proof/Laws/Bits.lean ====
section
/-! SUPPORT. The bits of the words the model builds: a bit written into a word, the flags of an output, the
interrupt bits, and parity under the steps of 2 that `SP` and `IP` move in. -/

namespace Sys2Proof.Machine

/-- The word `1 << n`, bit by bit. -/
theorem interruptBit_getLsbD (n k : Nat) (hn : n < 16) :
    (interruptBit n).getLsbD k = decide (k = n) := by
  unfold interruptBit
  have hone : ∀ j, BitVec.getLsbD (1 : Word) j = decide (j = 0) := fun j => by
    rw [show (1 : Word) = 1#16 from rfl, BitVec.getLsbD_one]; simp
  rw [BitVec.getLsbD_shiftLeft, hone]
  by_cases h : k = n
  · subst h; simp [hn]
  · by_cases h' : k < n
    · simp [h, h']
    · simp [h, show k - n ≠ 0 by omega]

/-- A word with one bit written reads so, bit by bit. -/
theorem withBit_getLsbD (v : Word) (i : Nat) (b : Bool) (k : Nat) (hi : i < 16) :
    (withBit v i b).getLsbD k = if k = i then b else v.getLsbD k := by
  have hbit := interruptBit_getLsbD i k hi
  unfold interruptBit at hbit
  unfold withBit
  by_cases hk : k < 16
  · cases b
    · simp only [Bool.false_eq_true, if_false, BitVec.getLsbD_and, BitVec.getLsbD_not, hbit, hk,
        decide_true, Bool.true_and]
      by_cases h : k = i <;> simp [h]
    · simp only [if_true, BitVec.getLsbD_or, hbit]
      by_cases h : k = i <;> simp [h]
  · have hk' : 16 ≤ k := by omega
    have h : k ≠ i := by omega
    simp [BitVec.getLsbD_of_ge _ k hk', h]

/-- The flags of an output, bit by bit (`40_execution_cycle.md` R124). -/
theorem flagsOf_getLsbD (v fr : Word) (k : Nat) :
    (flagsOf v fr).getLsbD k =
      if k = 1 then v.getLsbD 15 else if k = 0 then decide (v = 0) else fr.getLsbD k := by
  unfold flagsOf
  rw [withBit_getLsbD _ _ _ _ (by omega), withBit_getLsbD _ _ _ _ (by omega)]

/-- No common bit with a mask, bit by bit. -/
theorem and_eq_zero_iff (v m : Word) :
    v &&& m = 0 ↔ ∀ k, m.getLsbD k = true → v.getLsbD k = false := by
  constructor
  · intro h k hm
    have := congrArg (fun x => BitVec.getLsbD x k) h
    simpa [hm] using this
  · intro h
    apply BitVec.eq_of_getLsbD_eq
    intro k _
    have := h k
    cases hm : m.getLsbD k <;> simp_all

/-- Bit 0 is the parity. -/
theorem getLsbD_zero_eq (a : Word) : a.getLsbD 0 = decide (a.toNat % 2 = 1) := by
  rw [BitVec.getLsbD, Nat.testBit_zero]

/-- A sum has the parity of its parts. -/
theorem getLsbD_zero_add (a b : Word) : (a + b).getLsbD 0 = (a.getLsbD 0 ^^ b.getLsbD 0) := by
  simp only [getLsbD_zero_eq, BitVec.toNat_add]
  rcases Nat.mod_two_eq_zero_or_one a.toNat with ha | ha <;>
    rcases Nat.mod_two_eq_zero_or_one b.toNat with hb | hb <;>
    simp only [ha, hb] <;>
    simp <;> omega

theorem getLsbD_zero_add_two (a : Word) : (a + 2).getLsbD 0 = a.getLsbD 0 := by
  rw [getLsbD_zero_add, show (2 : Word).getLsbD 0 = false from rfl, Bool.xor_false]

theorem getLsbD_zero_sub_two (a : Word) : (a - 2).getLsbD 0 = a.getLsbD 0 := by
  rw [show a - 2 = a + 0xFFFE from by rw [BitVec.sub_eq_add_neg]; rfl, getLsbD_zero_add,
    show (0xFFFE : Word).getLsbD 0 = false from rfl, Bool.xor_false]

/-- The address after an even one does not wrap (`20_memory.md` R52). -/
theorem toNat_add_one_of_even (a : Word) (h : a.getLsbD 0 = false) :
    (a + 1).toNat = a.toNat + 1 := by
  have hlt := a.isLt
  rw [getLsbD_zero_eq, decide_eq_false_iff_not] at h
  rw [BitVec.toNat_add, show (1 : Word).toNat = 1 from rfl]
  omega

end Sys2Proof.Machine
end

