-- ==== Sys2Proof/Laws/Memory.lean ====
section
/-! SUPPORT. The laws of memory: a read after a write, the canonical form kept by every operation, and equal
memories are equal data. -/

namespace Sys2Proof.Machine

theorem Memory.read_write_same (m : Memory) (x : Nat) (v : Byte) :
    Memory.read (Memory.write m x v) x = some v := by
  induction m with
  | nil => simp [Memory.write, Memory.read]
  | cons c rest ih =>
    obtain ⟨a, b⟩ := c
    simp only [Memory.write]
    split
    · simp [Memory.read]
    · split
      · next h => simp [Memory.read, h]
      · next h => simp [Memory.read, h, ih]

theorem Memory.read_write_other (m : Memory) (x y : Nat) (v : Byte) (h : y ≠ x) :
    Memory.read (Memory.write m x v) y = Memory.read m y := by
  induction m with
  | nil => simp [Memory.write, Memory.read, h]
  | cons c rest ih =>
    obtain ⟨a, b⟩ := c
    simp only [Memory.write]
    split
    · simp [Memory.read, h]
    · split
      · next h' => subst h'; simp [Memory.read, h]
      · simp only [Memory.read, ih]

/-- A weaker lower bound keeps the canonical form. -/
theorem Memory.wfFrom_mono (m : Memory) (lo lo' : Nat) (h : lo' ≤ lo) :
    Memory.wfFrom lo m = true → Memory.wfFrom lo' m = true := by
  cases m with
  | nil => intro _; rfl
  | cons c rest =>
    obtain ⟨a, b⟩ := c
    simp only [Memory.wfFrom, Bool.and_eq_true, decide_eq_true_eq]
    rintro ⟨⟨h1, h2⟩, h3⟩
    exact ⟨⟨by omega, h2⟩, h3⟩

theorem Memory.write_wfFrom (m : Memory) (lo x : Nat) (v : Byte) (hx : lo ≤ x) (hx' : x < 65536) :
    Memory.wfFrom lo m = true → Memory.wfFrom lo (Memory.write m x v) = true := by
  induction m generalizing lo with
  | nil => intro _; simp [Memory.write, Memory.wfFrom, hx, hx']
  | cons c rest ih =>
    obtain ⟨a, b⟩ := c
    simp only [Memory.wfFrom, Bool.and_eq_true, decide_eq_true_eq]
    rintro ⟨⟨h1, h2⟩, h3⟩
    simp only [Memory.write]
    split
    · next h => simp [Memory.wfFrom, hx, hx', h2, h3, show x + 1 ≤ a by omega]
    · split
      · simp [Memory.wfFrom, h1, h2, h3]
      · simp [Memory.wfFrom, h1, h2, ih (a + 1) (by omega) h3]

/-- EVERY MEMORY OPERATION KEEPS THE CANONICAL FORM: a write below 2^16 does. -/
theorem Memory.write_wf (m : Memory) (x : Nat) (v : Byte) (hx : x < 65536) :
    Memory.wf m = true → Memory.wf (Memory.write m x v) = true :=
  Memory.write_wfFrom m 0 x v (Nat.zero_le x) hx

/-- Nothing is listed below a memory's bound. -/
theorem Memory.read_below (m : Memory) (lo x : Nat) (h : Memory.wfFrom lo m = true) (hx : x < lo) :
    Memory.read m x = none := by
  induction m generalizing lo with
  | nil => rfl
  | cons c rest ih =>
    obtain ⟨a, b⟩ := c
    simp only [Memory.wfFrom, Bool.and_eq_true, decide_eq_true_eq] at h
    obtain ⟨⟨h1, _⟩, h3⟩ := h
    simp only [Memory.read, if_neg (show x ≠ a by omega)]
    exact ih (a + 1) h3 (by omega)

/-- Two memories in canonical form that read alike are the same data. -/
theorem Memory.ext_wfFrom (m m' : Memory) (lo : Nat) (h : Memory.wfFrom lo m = true)
    (h' : Memory.wfFrom lo m' = true) (heq : ∀ x, Memory.read m x = Memory.read m' x) : m = m' := by
  induction m generalizing lo m' with
  | nil =>
    cases m' with
    | nil => rfl
    | cons c rest => have := heq c.1; simp [Memory.read] at this
  | cons c rest ih =>
    obtain ⟨a, b⟩ := c
    cases m' with
    | nil => have := heq a; simp [Memory.read] at this
    | cons c' rest' =>
      obtain ⟨a', b'⟩ := c'
      simp only [Memory.wfFrom, Bool.and_eq_true, decide_eq_true_eq] at h h'
      have hr : ∀ x, x < a + 1 → Memory.read rest x = none :=
        fun x hx => Memory.read_below rest (a + 1) x h.2 hx
      have hr' : ∀ x, x < a' + 1 → Memory.read rest' x = none :=
        fun x hx => Memory.read_below rest' (a' + 1) x h'.2 hx
      have haa : a = a' := by
        rcases Nat.lt_trichotomy a a' with hlt | hEq | hgt
        · have := heq a
          simp [Memory.read, if_neg (show a ≠ a' by omega), hr' a (by omega)] at this
        · exact hEq
        · have := heq a'
          simp [Memory.read, if_neg (show a' ≠ a by omega), hr a' (by omega)] at this
      subst haa
      have hb : b = b' := by have := heq a; simpa [Memory.read] using this
      subst hb
      have : rest = rest' := by
        apply ih rest' (a + 1) h.2 h'.2
        intro x
        by_cases hx : x = a
        · subst hx; rw [hr x (by omega), hr' x (by omega)]
        · have := heq x; simpa [Memory.read, hx] using this
      rw [this]

theorem Memory.ext_wf (m m' : Memory) (h : Memory.wf m = true) (h' : Memory.wf m' = true)
    (heq : ∀ x, Memory.read m x = Memory.read m' x) : m = m' :=
  Memory.ext_wfFrom m m' 0 h h' heq

/-- The memory after reset has the canonical form. -/
theorem Memory.reset_wf : Memory.wf State.reset.mem = true := rfl

end Sys2Proof.Machine
end

