-- ==== Sys2Proof/Laws/State.lean ====
section
/-! SUPPORT. One lemma per field that a named update of the state leaves as it was, and one for the field it
writes, so that no later proof unfolds an update. -/

namespace Sys2Proof.Machine

@[simp] theorem advance_sp (s : State) : (advance s).sp = s.sp := rfl
@[simp] theorem advance_bp (s : State) : (advance s).bp = s.bp := rfl
@[simp] theorem advance_fr (s : State) : (advance s).fr = s.fr := rfl
@[simp] theorem advance_ir (s : State) : (advance s).ir = s.ir := rfl
@[simp] theorem advance_halted (s : State) : (advance s).halted = s.halted := rfl
@[simp] theorem advance_mem (s : State) : (advance s).mem = s.mem := rfl
@[simp] theorem advance_params (s : State) : (advance s).params = s.params := rfl
@[simp] theorem advance_pins (s : State) : (advance s).pins = s.pins := rfl
@[simp] theorem advance_samples (s : State) : (advance s).samples = s.samples := rfl
@[simp] theorem advance_draws (s : State) : (advance s).draws = s.draws := rfl
@[simp] theorem advance_device (s : State) : (advance s).device = s.device := rfl

@[simp] theorem skipInput_sp (sel : Input) (s : State) : (skipInput sel s).sp = s.sp := by
  unfold skipInput; split <;> rfl

@[simp] theorem skipInput_bp (sel : Input) (s : State) : (skipInput sel s).bp = s.bp := by
  unfold skipInput; split <;> rfl

@[simp] theorem skipInput_fr (sel : Input) (s : State) : (skipInput sel s).fr = s.fr := by
  unfold skipInput; split <;> rfl

@[simp] theorem skipInput_ir (sel : Input) (s : State) : (skipInput sel s).ir = s.ir := by
  unfold skipInput; split <;> rfl

@[simp] theorem skipInput_halted (sel : Input) (s : State) : (skipInput sel s).halted = s.halted := by
  unfold skipInput; split <;> rfl

@[simp] theorem skipInput_mem (sel : Input) (s : State) : (skipInput sel s).mem = s.mem := by
  unfold skipInput; split <;> rfl

@[simp] theorem skipInput_params (sel : Input) (s : State) : (skipInput sel s).params = s.params := by
  unfold skipInput; split <;> rfl

@[simp] theorem skipInput_pins (sel : Input) (s : State) : (skipInput sel s).pins = s.pins := by
  unfold skipInput; split <;> rfl

@[simp] theorem skipInput_samples (sel : Input) (s : State) : (skipInput sel s).samples = s.samples := by
  unfold skipInput; split <;> rfl

@[simp] theorem skipInput_draws (sel : Input) (s : State) : (skipInput sel s).draws = s.draws := by
  unfold skipInput; split <;> rfl

@[simp] theorem skipInput_device (sel : Input) (s : State) : (skipInput sel s).device = s.device := by
  unfold skipInput; split <;> rfl


@[simp] theorem setCarry_sp (b : Bool) (s : State) : (setCarry b s).sp = s.sp := rfl
@[simp] theorem setCarry_bp (b : Bool) (s : State) : (setCarry b s).bp = s.bp := rfl
@[simp] theorem setCarry_ip (b : Bool) (s : State) : (setCarry b s).ip = s.ip := rfl
@[simp] theorem setCarry_ir (b : Bool) (s : State) : (setCarry b s).ir = s.ir := rfl
@[simp] theorem setCarry_halted (b : Bool) (s : State) : (setCarry b s).halted = s.halted := rfl
@[simp] theorem setCarry_mem (b : Bool) (s : State) : (setCarry b s).mem = s.mem := rfl
@[simp] theorem setCarry_params (b : Bool) (s : State) : (setCarry b s).params = s.params := rfl
@[simp] theorem setCarry_pins (b : Bool) (s : State) : (setCarry b s).pins = s.pins := rfl
@[simp] theorem setCarry_samples (b : Bool) (s : State) : (setCarry b s).samples = s.samples := rfl
@[simp] theorem setCarry_draws (b : Bool) (s : State) : (setCarry b s).draws = s.draws := rfl
@[simp] theorem setCarry_device (b : Bool) (s : State) : (setCarry b s).device = s.device := rfl

@[simp] theorem modifyFlags_sp (f : FlagMod) (v : Word) (s : State) : (modifyFlags f v s).sp = s.sp := by
  cases f <;> rfl

@[simp] theorem modifyFlags_bp (f : FlagMod) (v : Word) (s : State) : (modifyFlags f v s).bp = s.bp := by
  cases f <;> rfl

@[simp] theorem modifyFlags_ip (f : FlagMod) (v : Word) (s : State) : (modifyFlags f v s).ip = s.ip := by
  cases f <;> rfl

@[simp] theorem modifyFlags_ir (f : FlagMod) (v : Word) (s : State) : (modifyFlags f v s).ir = s.ir := by
  cases f <;> rfl

@[simp] theorem modifyFlags_halted (f : FlagMod) (v : Word) (s : State) : (modifyFlags f v s).halted = s.halted := by
  cases f <;> rfl

@[simp] theorem modifyFlags_mem (f : FlagMod) (v : Word) (s : State) : (modifyFlags f v s).mem = s.mem := by
  cases f <;> rfl

@[simp] theorem modifyFlags_params (f : FlagMod) (v : Word) (s : State) : (modifyFlags f v s).params = s.params := by
  cases f <;> rfl

@[simp] theorem modifyFlags_pins (f : FlagMod) (v : Word) (s : State) : (modifyFlags f v s).pins = s.pins := by
  cases f <;> rfl

@[simp] theorem modifyFlags_samples (f : FlagMod) (v : Word) (s : State) : (modifyFlags f v s).samples = s.samples := by
  cases f <;> rfl

@[simp] theorem modifyFlags_draws (f : FlagMod) (v : Word) (s : State) : (modifyFlags f v s).draws = s.draws := by
  cases f <;> rfl

@[simp] theorem modifyFlags_device (f : FlagMod) (v : Word) (s : State) : (modifyFlags f v s).device = s.device := by
  cases f <;> rfl


@[simp] theorem consumePins_sp (s : State) : (consumePins s).sp = s.sp := rfl
@[simp] theorem consumePins_bp (s : State) : (consumePins s).bp = s.bp := rfl
@[simp] theorem consumePins_ip (s : State) : (consumePins s).ip = s.ip := rfl
@[simp] theorem consumePins_fr (s : State) : (consumePins s).fr = s.fr := rfl
@[simp] theorem consumePins_ir (s : State) : (consumePins s).ir = s.ir := rfl
@[simp] theorem consumePins_halted (s : State) : (consumePins s).halted = s.halted := rfl
@[simp] theorem consumePins_mem (s : State) : (consumePins s).mem = s.mem := rfl
@[simp] theorem consumePins_params (s : State) : (consumePins s).params = s.params := rfl
@[simp] theorem consumePins_draws (s : State) : (consumePins s).draws = s.draws := rfl
@[simp] theorem consumePins_device (s : State) : (consumePins s).device = s.device := rfl

@[simp] theorem trigger_sp (n : Nat) (s : State) : (trigger n s).sp = s.sp := by
  unfold trigger; split <;> rfl

@[simp] theorem trigger_bp (n : Nat) (s : State) : (trigger n s).bp = s.bp := by
  unfold trigger; split <;> rfl

@[simp] theorem trigger_ip (n : Nat) (s : State) : (trigger n s).ip = s.ip := by
  unfold trigger; split <;> rfl

@[simp] theorem trigger_fr (n : Nat) (s : State) : (trigger n s).fr = s.fr := by
  unfold trigger; split <;> rfl

@[simp] theorem trigger_halted (n : Nat) (s : State) : (trigger n s).halted = s.halted := by
  unfold trigger; split <;> rfl

@[simp] theorem trigger_mem (n : Nat) (s : State) : (trigger n s).mem = s.mem := by
  unfold trigger; split <;> rfl

@[simp] theorem trigger_params (n : Nat) (s : State) : (trigger n s).params = s.params := by
  unfold trigger; split <;> rfl

@[simp] theorem trigger_pins (n : Nat) (s : State) : (trigger n s).pins = s.pins := by
  unfold trigger; split <;> rfl

@[simp] theorem trigger_samples (n : Nat) (s : State) : (trigger n s).samples = s.samples := by
  unfold trigger; split <;> rfl

@[simp] theorem trigger_draws (n : Nat) (s : State) : (trigger n s).draws = s.draws := by
  unfold trigger; split <;> rfl

@[simp] theorem trigger_device (n : Nat) (s : State) : (trigger n s).device = s.device := by
  unfold trigger; split <;> rfl


@[simp] theorem deviceAccess_sp (acc : Access) (v : Word) (s : State) : (deviceAccess acc v s).sp = s.sp := by
  unfold deviceAccess; split <;> rfl

@[simp] theorem deviceAccess_bp (acc : Access) (v : Word) (s : State) : (deviceAccess acc v s).bp = s.bp := by
  unfold deviceAccess; split <;> rfl

@[simp] theorem deviceAccess_ip (acc : Access) (v : Word) (s : State) : (deviceAccess acc v s).ip = s.ip := by
  unfold deviceAccess; split <;> rfl

@[simp] theorem deviceAccess_fr (acc : Access) (v : Word) (s : State) : (deviceAccess acc v s).fr = s.fr := by
  unfold deviceAccess; split <;> rfl

@[simp] theorem deviceAccess_ir (acc : Access) (v : Word) (s : State) : (deviceAccess acc v s).ir = s.ir := by
  unfold deviceAccess; split <;> rfl

@[simp] theorem deviceAccess_halted (acc : Access) (v : Word) (s : State) : (deviceAccess acc v s).halted = s.halted := by
  unfold deviceAccess; split <;> rfl

@[simp] theorem deviceAccess_mem (acc : Access) (v : Word) (s : State) : (deviceAccess acc v s).mem = s.mem := by
  unfold deviceAccess; split <;> rfl

@[simp] theorem deviceAccess_params (acc : Access) (v : Word) (s : State) : (deviceAccess acc v s).params = s.params := by
  unfold deviceAccess; split <;> rfl

@[simp] theorem deviceAccess_pins (acc : Access) (v : Word) (s : State) : (deviceAccess acc v s).pins = s.pins := by
  unfold deviceAccess; split <;> rfl

@[simp] theorem deviceAccess_samples (acc : Access) (v : Word) (s : State) : (deviceAccess acc v s).samples = s.samples := by
  unfold deviceAccess; split <;> rfl

@[simp] theorem deviceAccess_draws (acc : Access) (v : Word) (s : State) : (deviceAccess acc v s).draws = s.draws := by
  unfold deviceAccess; split <;> rfl


@[simp] theorem writeByte_sp (a : Word) (v : Byte) (s : State) : (writeByte a v s).sp = s.sp := by
  unfold writeByte; split <;> rfl

@[simp] theorem writeByte_bp (a : Word) (v : Byte) (s : State) : (writeByte a v s).bp = s.bp := by
  unfold writeByte; split <;> rfl

@[simp] theorem writeByte_ip (a : Word) (v : Byte) (s : State) : (writeByte a v s).ip = s.ip := by
  unfold writeByte; split <;> rfl

@[simp] theorem writeByte_fr (a : Word) (v : Byte) (s : State) : (writeByte a v s).fr = s.fr := by
  unfold writeByte; split <;> rfl

@[simp] theorem writeByte_ir (a : Word) (v : Byte) (s : State) : (writeByte a v s).ir = s.ir := by
  unfold writeByte; split <;> rfl

@[simp] theorem writeByte_halted (a : Word) (v : Byte) (s : State) : (writeByte a v s).halted = s.halted := by
  unfold writeByte; split <;> rfl

@[simp] theorem writeByte_params (a : Word) (v : Byte) (s : State) : (writeByte a v s).params = s.params := by
  unfold writeByte; split <;> rfl

@[simp] theorem writeByte_pins (a : Word) (v : Byte) (s : State) : (writeByte a v s).pins = s.pins := by
  unfold writeByte; split <;> rfl

@[simp] theorem writeByte_samples (a : Word) (v : Byte) (s : State) : (writeByte a v s).samples = s.samples := by
  unfold writeByte; split <;> rfl

@[simp] theorem writeByte_draws (a : Word) (v : Byte) (s : State) : (writeByte a v s).draws = s.draws := by
  unfold writeByte; split <;> rfl

@[simp] theorem writeByte_device (a : Word) (v : Byte) (s : State) : (writeByte a v s).device = s.device := by
  unfold writeByte; split <;> rfl


@[simp] theorem writeValue_sp (acc : Access) (v : Word) (s : State) : (writeValue acc v s).sp = s.sp := by
  unfold writeValue; split <;> simp

@[simp] theorem writeValue_bp (acc : Access) (v : Word) (s : State) : (writeValue acc v s).bp = s.bp := by
  unfold writeValue; split <;> simp

@[simp] theorem writeValue_ip (acc : Access) (v : Word) (s : State) : (writeValue acc v s).ip = s.ip := by
  unfold writeValue; split <;> simp

@[simp] theorem writeValue_fr (acc : Access) (v : Word) (s : State) : (writeValue acc v s).fr = s.fr := by
  unfold writeValue; split <;> simp

@[simp] theorem writeValue_ir (acc : Access) (v : Word) (s : State) : (writeValue acc v s).ir = s.ir := by
  unfold writeValue; split <;> simp

@[simp] theorem writeValue_halted (acc : Access) (v : Word) (s : State) : (writeValue acc v s).halted = s.halted := by
  unfold writeValue; split <;> simp

@[simp] theorem writeValue_params (acc : Access) (v : Word) (s : State) : (writeValue acc v s).params = s.params := by
  unfold writeValue; split <;> simp

@[simp] theorem writeValue_pins (acc : Access) (v : Word) (s : State) : (writeValue acc v s).pins = s.pins := by
  unfold writeValue; split <;> simp

@[simp] theorem writeValue_samples (acc : Access) (v : Word) (s : State) : (writeValue acc v s).samples = s.samples := by
  unfold writeValue; split <;> simp

@[simp] theorem writeValue_draws (acc : Access) (v : Word) (s : State) : (writeValue acc v s).draws = s.draws := by
  unfold writeValue; split <;> simp

@[simp] theorem writeValue_device (acc : Access) (v : Word) (s : State) : (writeValue acc v s).device = s.device := by
  unfold writeValue; split <;> simp


@[simp] theorem busAbort_sp (s t : State) : (busAbort s t).sp = s.sp := rfl
@[simp] theorem busAbort_bp (s t : State) : (busAbort s t).bp = s.bp := rfl
@[simp] theorem busAbort_ip (s t : State) : (busAbort s t).ip = s.ip := rfl
@[simp] theorem busAbort_fr (s t : State) : (busAbort s t).fr = s.fr := rfl
@[simp] theorem busAbort_halted (s t : State) : (busAbort s t).halted = s.halted := rfl
@[simp] theorem busAbort_mem (s t : State) : (busAbort s t).mem = s.mem := rfl
@[simp] theorem busAbort_params (s t : State) : (busAbort s t).params = s.params := rfl
@[simp] theorem busAbort_pins (s t : State) : (busAbort s t).pins = s.pins := rfl
@[simp] theorem busAbort_samples (s t : State) : (busAbort s t).samples = s.samples := rfl

@[simp] theorem advance_ip (s : State) : (advance s).ip = s.ip + 2 := rfl
@[simp] theorem setCarry_fr (b : Bool) (s : State) : (setCarry b s).fr = withBit s.fr 2 b := rfl
@[simp] theorem consumePins_pins (s : State) : (consumePins s).pins = s.pins.tail := rfl
@[simp] theorem busAbort_ir (s t : State) : (busAbort s t).ir = s.ir ||| interruptBit 2 := rfl
@[simp] theorem busAbort_draws (s t : State) :
    (busAbort s t).draws = if hasDevice s.params then t.draws + 1 else t.draws := rfl
@[simp] theorem busAbort_device (s t : State) :
    (busAbort s t).device = if hasDevice s.params then Config.deviceUndone t.draws else s.device := rfl
@[simp] theorem consumePins_samples (s : State) :
    (consumePins s).samples = if samplesFreely s then s.samples + 1 else s.samples := rfl

@[simp] theorem modifyFlags_no (v : Word) (s : State) : modifyFlags .no v s = s := rfl

@[simp] theorem modifyFlags_yes_fr (v : Word) (s : State) :
    (modifyFlags .yes v s).fr = flagsOf v s.fr := rfl

@[simp] theorem skipInput_ip (sel : Input) (s : State) :
    (skipInput sel s).ip = s.ip + (if sel = .imm then 2 else 0) := by
  unfold skipInput; split <;> simp

theorem trigger_ir_markII (n : Nat) (s : State) (h : s.params.variant = .markII) :
    (trigger n s).ir = s.ir ||| interruptBit n := by
  simp [trigger, h]

theorem trigger_markIIL (n : Nat) (s : State) (h : s.params.variant = .markIIL) : trigger n s = s := by
  simp [trigger, h]

end Sys2Proof.Machine
end

