-- ==== Sys2Proof/Laws/Ops.lean ====
section
/-! SUPPORT. What each shared operation can do, said once: if it answers a value and a state, which; if it
answers a bus error, in which state; and, on the default platform, that it answers. -/

namespace Sys2Proof.Machine

variable {α β : Type}

@[simp] theorem Res.bind_ok (a : α) (s : State) (f : α → State → Res β) :
    (Res.ok a s).bind f = f a s := rfl
@[simp] theorem Res.bind_fault (e : Fault) (f : α → State → Res β) :
    (Res.fault e : Res α).bind f = .fault e := rfl
@[simp] theorem Res.bind_bus (s : State) (f : α → State → Res β) :
    (Res.bus s : Res α).bind f = .bus s := rfl

/-- A sequence answers exactly when both its parts do. -/
theorem Res.bind_eq_ok {r : Res α} {f : α → State → Res β} {b : β} {t : State} :
    r.bind f = .ok b t ↔ ∃ a s, r = .ok a s ∧ f a s = .ok b t := by
  cases r <;> simp

/-- A sequence ends in a bus error in its first part or in its second. -/
theorem Res.bind_eq_bus {r : Res α} {f : α → State → Res β} {t : State} :
    r.bind f = .bus t ↔ r = .bus t ∨ ∃ a s, r = .ok a s ∧ f a s = .bus t := by
  cases r <;> simp

/-- A sequence faults in its first part or in its second. -/
theorem Res.bind_eq_fault {r : Res α} {f : α → State → Res β} {e : Fault} :
    r.bind f = .fault e ↔ r = .fault e ∨ ∃ a s, r = .ok a s ∧ f a s = .fault e := by
  cases r <;> simp

/-! ### Accesses -/

/-- On the default platform no access touches anything but RAM. -/
theorem touches_default {s : State} (h : DefaultPlatform s) (acc : Access) (k : RegionKind)
    (hk : k ≠ .ram) : touches s acc k = false := by
  have hr : ∀ a, kindAt s a = .ram := fun a => by simp [kindAt, h.1, kindIn]
  unfold touches Access.bytes
  cases acc.width <;> simp [hr, Ne.symm hk]

theorem kindAt_default {s : State} (h : DefaultPlatform s) (a : Word) : kindAt s a = .ram := by
  simp [kindAt, h.1, kindIn]

theorem checkAccess_ok {acc : Access} {s t : State} {u : Unit} (h : checkAccess acc s = .ok u t) :
    t = s ∧ (acc.width = .word → acc.addr.getLsbD 0 = false) ∧ acc ∉ s.params.busErrors ∧
      touches s acc .nothing = false ∧ (acc.dir = .write → touches s acc .rom = false) := by
  unfold checkAccess at h
  split at h
  · cases h
  · next h1 =>
    split at h
    · cases h
    · next h2 =>
      split at h
      · cases h
      · next h3 =>
        split at h
        · cases h
        · next h4 =>
          cases h
          refine ⟨rfl, fun hw => ?_, h2, by simpa using h3, fun hd => ?_⟩
          · cases hb : acc.addr.getLsbD 0
            · rfl
            · exact absurd ⟨hw, hb⟩ h1
          · cases hb : touches s acc .rom
            · rfl
            · exact absurd ⟨hd, hb⟩ h4

theorem checkAccess_bus {acc : Access} {s t : State} (h : checkAccess acc s = .bus t) :
    t = s ∧ acc ∈ s.params.busErrors := by
  unfold checkAccess at h
  split at h
  · cases h
  · split at h
    · next h2 => cases h; exact ⟨rfl, h2⟩
    · split at h
      · cases h
      · split at h <;> cases h

theorem checkAccess_default {s : State} (h : DefaultPlatform s) (acc : Access)
    (ha : acc.width = .word → acc.addr.getLsbD 0 = false) : checkAccess acc s = .ok () s := by
  unfold checkAccess
  have h1 : ¬ (acc.width = .word ∧ acc.addr.getLsbD 0 = true) := by
    rintro ⟨hw, hb⟩; rw [ha hw] at hb; cases hb
  rw [if_neg h1, if_neg (by rw [h.2]; exact List.not_mem_nil),
    if_neg (by rw [touches_default h acc _ (by decide)]; decide),
    if_neg (by rw [touches_default h acc _ (by decide)]; rintro ⟨_, hb⟩; cases hb)]

theorem memRead_ok {k : AccessKind} {w : Width} {a v : Word} {s t : State}
    (h : memRead k w a s = .ok v t) :
    v = readValue s ⟨a, w, .read, k⟩ (Config.deviceRead s.device ⟨a, w, .read, k⟩) ∧
      t = deviceAccess ⟨a, w, .read, k⟩ v s ∧ (w = .word → a.getLsbD 0 = false) ∧
      (⟨a, w, .read, k⟩ : Access) ∉ s.params.busErrors := by
  unfold memRead at h
  obtain ⟨_, s', h1, h2⟩ := Res.bind_eq_ok.1 h
  obtain ⟨rfl, hev, hb, _, _⟩ := checkAccess_ok h1
  cases h2
  exact ⟨rfl, rfl, hev, hb⟩

theorem memRead_bus {k : AccessKind} {w : Width} {a : Word} {s t : State}
    (h : memRead k w a s = .bus t) : t = s ∧ (⟨a, w, .read, k⟩ : Access) ∈ s.params.busErrors := by
  unfold memRead at h
  rcases Res.bind_eq_bus.1 h with h | ⟨_, s', _, h2⟩
  · exact checkAccess_bus h
  · cases h2

/-- A read changes nothing but, where a device stands, the devices' state. -/
theorem memRead_state {k : AccessKind} {w : Width} {a v : Word} {s t : State}
    (h : memRead k w a s = .ok v t) : t = { s with device := t.device } := by
  obtain ⟨_, rfl, _, _⟩ := memRead_ok h
  unfold deviceAccess; split <;> rfl

theorem deviceAccess_default {s : State} (h : DefaultPlatform s) (acc : Access) (v : Word) :
    deviceAccess acc v s = s := by
  unfold deviceAccess
  rw [if_neg (by rw [touches_default h acc _ (by decide)]; decide)]

theorem readByte_default {s : State} (h : DefaultPlatform s) (a : Word) (b : Byte) :
    readByte s a b = byteAt s a := by
  simp [readByte, kindAt_default h]

theorem memRead_word_default {s : State} (h : DefaultPlatform s) (k : AccessKind) (a : Word)
    (ha : a.getLsbD 0 = false) : memRead k .word a s = .ok (wordAt s a) s := by
  simp only [memRead]
  rw [checkAccess_default h _ (fun _ => ha)]
  simp [readValue, readByte_default h, wordAt, deviceAccess_default h]

theorem memRead_byte_default {s : State} (h : DefaultPlatform s) (k : AccessKind) (a : Word) :
    memRead k .byte a s = .ok (wordOfBytes (byteAt s a) 0) s := by
  simp only [memRead]
  rw [checkAccess_default h _ (fun hw => by cases hw)]
  simp [readValue, readByte_default h, deviceAccess_default h]

theorem fetch16_default {s : State} (h : DefaultPlatform s) (a : Word) (ha : a.getLsbD 0 = false) :
    fetch16 a s = .ok (wordAt s a) s := memRead_word_default h .code a ha

/-! ### Writes -/

theorem memWrite_ok {w : Width} {a v : Word} {s t : State} {u : Unit}
    (h : memWrite w a v s = .ok u t) :
    t = deviceAccess ⟨a, w, .write, .data⟩ (carried w v) (writeValue ⟨a, w, .write, .data⟩ v s) ∧
      (w = .word → a.getLsbD 0 = false) ∧
      (⟨a, w, .write, .data⟩ : Access) ∉ s.params.busErrors := by
  unfold memWrite at h
  obtain ⟨_, s', h1, h2⟩ := Res.bind_eq_ok.1 h
  obtain ⟨rfl, hev, hb, _, _⟩ := checkAccess_ok h1
  cases h2
  exact ⟨rfl, hev, hb⟩

theorem memWrite_bus {w : Width} {a v : Word} {s t : State} (h : memWrite w a v s = .bus t) :
    t = s ∧ (⟨a, w, .write, .data⟩ : Access) ∈ s.params.busErrors := by
  unfold memWrite at h
  rcases Res.bind_eq_bus.1 h with h | ⟨_, s', _, h2⟩
  · exact checkAccess_bus h
  · cases h2

theorem byteAt_writeByte_other (a x : Word) (v : Byte) (s : State) (h : x ≠ a) :
    byteAt (writeByte a v s) x = byteAt s x := by
  unfold writeByte
  split
  · rfl
  · simp only [byteAt]
    rw [Memory.read_write_other _ _ _ _ (fun he => h (BitVec.eq_of_toNat_eq he))]

theorem byteAt_writeByte_same (a : Word) (v : Byte) (s : State) (h : kindAt s a ≠ .device) :
    byteAt (writeByte a v s) a = v := by
  simp [writeByte, h, byteAt, Memory.read_write_same]

theorem writeByte_wf (a : Word) (v : Byte) (s : State) (h : Memory.wf s.mem = true) :
    Memory.wf (writeByte a v s).mem = true := by
  unfold writeByte
  split
  · exact h
  · exact Memory.write_wf _ _ _ a.isLt h

theorem writeValue_wf (acc : Access) (v : Word) (s : State) (h : Memory.wf s.mem = true) :
    Memory.wf (writeValue acc v s).mem = true := by
  unfold writeValue
  cases acc.width
  · exact writeByte_wf _ _ _ h
  · exact writeByte_wf _ _ _ (writeByte_wf _ _ _ h)

theorem byteAt_writeValue_other (acc : Access) (v : Word) (s : State) (x : Word)
    (h : x ∉ Access.bytes acc) : byteAt (writeValue acc v s) x = byteAt s x := by
  unfold writeValue
  unfold Access.bytes at h
  cases hw : acc.width <;> simp only [hw, List.mem_cons, List.not_mem_nil, or_false, not_or] at h ⊢
  · exact byteAt_writeByte_other _ _ _ _ h
  · rw [byteAt_writeByte_other _ _ _ _ h.2, byteAt_writeByte_other _ _ _ _ h.1]

@[simp] theorem byteAt_deviceAccess (acc : Access) (v : Word) (s : State) (x : Word) :
    byteAt (deviceAccess acc v s) x = byteAt s x := by
  simp [byteAt]

/-- A write changes memory at its own bytes alone, and, where a device stands, the devices' state. -/
theorem memWrite_state {w : Width} {a v : Word} {s t : State} {u : Unit}
    (h : memWrite w a v s = .ok u t) :
    t = { s with mem := t.mem, device := t.device } ∧
      (Memory.wf s.mem = true → Memory.wf t.mem = true) ∧
      ∀ x, x ∉ Access.bytes ⟨a, w, .write, .data⟩ → byteAt t x = byteAt s x := by
  obtain ⟨rfl, _, _⟩ := memWrite_ok h
  refine ⟨?_, fun hwf => ?_, fun x hx => ?_⟩
  · apply State.ext <;> simp
  · rw [deviceAccess_mem]; exact writeValue_wf _ _ _ hwf
  · rw [byteAt_deviceAccess, byteAt_writeValue_other _ _ _ _ hx]

theorem writeByte_default {s : State} (h : DefaultPlatform s) (a : Word) (v : Byte) :
    writeByte a v s = { s with mem := Memory.write s.mem a.toNat v } := by
  simp [writeByte, kindAt_default h]

theorem memWrite_word_default {s : State} (h : DefaultPlatform s) (a v : Word)
    (ha : a.getLsbD 0 = false) :
    memWrite .word a v s = .ok () { s with mem := storeWord s.mem a v } := by
  simp only [memWrite]
  rw [checkAccess_default h _ (fun _ => ha)]
  simp only [Res.bind_ok, writeValue]
  rw [writeByte_default h]
  have h' : DefaultPlatform { s with mem := Memory.write s.mem a.toNat (lowByte v) } := h
  rw [writeByte_default h']
  have h'' : DefaultPlatform { s with mem := storeWord s.mem a v } := h
  exact congrArg (Res.ok ()) (deviceAccess_default h'' _ _)

theorem memWrite_byte_default {s : State} (h : DefaultPlatform s) (a v : Word) :
    memWrite .byte a v s = .ok () { s with mem := Memory.write s.mem a.toNat (lowByte v) } := by
  simp only [memWrite]
  rw [checkAccess_default h _ (fun hw => by cases hw)]
  simp only [Res.bind_ok, writeValue]
  rw [writeByte_default h]
  have h' : DefaultPlatform { s with mem := Memory.write s.mem a.toNat (lowByte v) } := h
  exact congrArg (Res.ok ()) (deviceAccess_default h' _ _)

/-! ### The stack -/

theorem push_ok {v : Word} {s t : State} {u : Unit} (h : push v s = .ok u t) :
    t = { s with sp := s.sp - 2, mem := t.mem, device := t.device } ∧
      (Memory.wf s.mem = true → Memory.wf t.mem = true) ∧ s.sp.getLsbD 0 = false ∧
      ∀ x, ¬ inWord (s.sp - 2) x → byteAt t x = byteAt s x := by
  obtain ⟨h1, h2, h3⟩ := memWrite_state h
  refine ⟨h1, h2, ?_, fun x hx => ?_⟩
  · have := (memWrite_ok h).2.1 rfl
    rwa [getLsbD_zero_sub_two] at this
  · have := h3 x (by simpa [Access.bytes] using hx)
    simpa [byteAt] using this

theorem push_bus {v : Word} {s t : State} (h : push v s = .bus t) :
    t = { s with sp := s.sp - 2 } := (memWrite_bus h).1

theorem push_default {s : State} (h : DefaultPlatform s) (v : Word) (hs : isEven s.sp) :
    push v s = .ok () { s with sp := s.sp - 2, mem := storeWord s.mem (s.sp - 2) v } :=
  memWrite_word_default (s := { s with sp := s.sp - 2 }) h _ _
    (by rw [getLsbD_zero_sub_two]; exact hs)

theorem peek_ok {v : Word} {s t : State} (h : peek s = .ok v t) :
    t = { s with device := t.device } := memRead_state h

theorem peek_bus {s t : State} (h : peek s = .bus t) : t = s := (memRead_bus h).1

theorem peek_default {s : State} (h : DefaultPlatform s) (hs : isEven s.sp) :
    peek s = .ok (wordAt s s.sp) s := memRead_word_default h _ _ hs

theorem pop_ok {v : Word} {s t : State} (h : pop s = .ok v t) :
    t = { s with sp := s.sp + 2, device := t.device } := by
  obtain ⟨a, s', h1, h2⟩ := Res.bind_eq_ok.1 h
  have := peek_ok h1
  cases h2
  rw [this]

theorem pop_bus {s t : State} (h : pop s = .bus t) : t = s := by
  rcases Res.bind_eq_bus.1 h with h | ⟨_, _, _, h2⟩
  · exact peek_bus h
  · cases h2

theorem pop_default {s : State} (h : DefaultPlatform s) (hs : isEven s.sp) :
    pop s = .ok (wordAt s s.sp) { s with sp := s.sp + 2 } := by
  rw [pop, peek_default h hs]; rfl

/-! ### Register writes -/

theorem writeSp_ok {v : Word} {s t : State} {u : Unit} (h : writeSp v s = .ok u t) :
    t = { s with sp := v } ∧ isEven v := by
  unfold writeSp at h; split at h
  · cases h
  · next hv => cases h; exact ⟨rfl, Bool.eq_false_iff.2 hv⟩

theorem writeBp_ok {v : Word} {s t : State} {u : Unit} (h : writeBp v s = .ok u t) :
    t = { s with bp := v } ∧ isEven v := by
  unfold writeBp at h; split at h
  · cases h
  · next hv => cases h; exact ⟨rfl, Bool.eq_false_iff.2 hv⟩

theorem writeIp_ok {v : Word} {s t : State} {u : Unit} (h : writeIp v s = .ok u t) :
    t = { s with ip := v } ∧ isEven v := by
  unfold writeIp at h; split at h
  · cases h
  · next hv => cases h; exact ⟨rfl, Bool.eq_false_iff.2 hv⟩

theorem writeFr_ok {v : Word} {s t : State} {u : Unit} (h : writeFr v s = .ok u t) :
    t = { s with fr := v } ∧ v &&& reservedFr s.params = 0 := by
  unfold writeFr at h; split at h
  · next hv => cases h; exact ⟨rfl, hv⟩
  · cases h

theorem writeIp_even {v : Word} (s : State) (h : isEven v) : writeIp v s = .ok () { s with ip := v } := by
  unfold writeIp; rw [if_neg (by rw [h]; decide)]

theorem writeSp_even {v : Word} (s : State) (h : isEven v) : writeSp v s = .ok () { s with sp := v } := by
  unfold writeSp; rw [if_neg (by rw [h]; decide)]

theorem writeBp_even {v : Word} (s : State) (h : isEven v) : writeBp v s = .ok () { s with bp := v } := by
  unfold writeBp; rw [if_neg (by rw [h]; decide)]

theorem writeFr_legal {v : Word} (s : State) (h : v &&& reservedFr s.params = 0) :
    writeFr v s = .ok () { s with fr := v } := by
  unfold writeFr; rw [if_pos h]

/-- A register write meets no bus error. -/
theorem writeRegister_not_bus (v : Word) (s t : State) :
    writeSp v s ≠ .bus t ∧ writeBp v s ≠ .bus t ∧ writeIp v s ≠ .bus t ∧ writeFr v s ≠ .bus t := by
  unfold writeSp writeBp writeIp writeFr
  refine ⟨?_, ?_, ?_, ?_⟩ <;> split <;> exact fun h => by cases h

/-! ### The terms of the statements -/

/-- The flags of an output are those of the table (`40_execution_cycle.md` R124). -/
theorem flagsOf_eq_withZN (output fr : Word) : flagsOf output fr = withZN output fr := by
  have hn : output.getLsbD 15 = decide (output ≥ 0x8000) := by
    have h : output.getLsbD 15 = output.msb := rfl
    rw [h, BitVec.msb_eq_decide]; rfl
  unfold flagsOf withZN
  rw [hn]
  by_cases hz : output = 0 <;> by_cases hq : output ≥ 0x8000 <;>
    simp only [hz, hq, withBit, decide_true, decide_false, if_true, if_false, Bool.false_eq_true] <;>
    (apply BitVec.eq_of_getLsbD_eq; intro k hk; interval_cases k <;> simp)

/-- The sample a step takes is the next one of the environment (`60_exceptions.md` R244). -/
theorem samplePins_eq_nextSample (s : State) : samplePins s = nextSample s := by
  unfold samplePins nextSample
  cases hp : s.pins <;> cases he : s.params.env <;> rfl

theorem consumePins_eq_afterSample (s : State) : consumePins s = afterSample s := by
  unfold consumePins afterSample samplesFreely
  apply State.ext <;> simp

/-- The triggers of a step, with the pins as bits 0, 1 and 7 (`60_exceptions.md` R223 to R225). -/
theorem pendingBits_eq (s : State) : s.ir ||| envBits (samplePins s) = pendingBits s := by
  rw [samplePins_eq_nextSample]
  unfold envBits pendingBits interruptBit
  simp only [BitVec.or_assoc]
  rfl

/-! ### Transfers and interrupts -/

theorem transfer_ok {target bits out : Word} {s t : State} (h : transfer target bits s = .ok out t) :
    out = s.ip ∧ t = { s with ip := target, fr := s.fr ||| bits } ∧ isEven target ∧
      (s.fr ||| bits) &&& reservedFr s.params = 0 := by
  obtain ⟨_, s1, h1, h⟩ := Res.bind_eq_ok.1 h
  obtain ⟨_, s2, h2, h⟩ := Res.bind_eq_ok.1 h
  obtain ⟨rfl, hev⟩ := writeIp_ok h1
  obtain ⟨rfl, hres⟩ := writeFr_ok h2
  cases h
  exact ⟨rfl, rfl, hev, hres⟩

theorem transfer_legal {target bits : Word} {s : State} (ht : isEven target)
    (hb : (s.fr ||| bits) &&& reservedFr s.params = 0) :
    transfer target bits s = .ok s.ip { s with ip := target, fr := s.fr ||| bits } := by
  unfold transfer
  rw [writeIp_even s ht, Res.bind_ok, writeFr_legal]
  · rfl
  · exact hb

theorem transfer_not_bus (target bits : Word) (s t : State) : transfer target bits s ≠ .bus t := by
  intro h
  rcases Res.bind_eq_bus.1 h with h | ⟨_, _, _, h⟩
  · exact (writeRegister_not_bus _ _ _).2.2.1 h
  · rcases Res.bind_eq_bus.1 h with h | ⟨_, _, _, h⟩
    · exact (writeRegister_not_bus _ _ _).2.2.2 h
    · cases h

/-- TAKING AN INTERRUPT, said once (`60_exceptions.md` R231): the four accesses it makes, in order, and
the state they leave. -/
theorem takeInterrupt_ok {n : Nat} {s t : State} {u : Unit} (h : takeInterrupt n s = .ok u t) :
    ∃ s1 s2 s3 target,
      push (interruptBit n) { s with halted := false } = .ok () s1 ∧
      push s1.ip s1 = .ok () s2 ∧
      fetch16 (BitVec.ofNat 16 (2 * n)) s2 = .ok target s3 ∧ isEven target ∧
      t = { s3 with ip := target
                    fr := if 4 ≤ n then s3.fr &&& ~~~ interruptBit n else s3.fr } := by
  obtain ⟨_, s1, h1, h⟩ := Res.bind_eq_ok.1 h
  obtain ⟨_, s2, h2, h⟩ := Res.bind_eq_ok.1 h
  obtain ⟨target, s3, h3, h⟩ := Res.bind_eq_ok.1 h
  obtain ⟨_, s4, h4, h⟩ := Res.bind_eq_ok.1 h
  obtain ⟨rfl, hev⟩ := writeIp_ok h4
  refine ⟨s1, s2, s3, target, h1, h2, h3, hev, ?_⟩
  split at h
  · next hn => cases h; simp [hn]
  · next hn => cases h; simp [hn]

/-- What taking an interrupt leaves of the state it started in. -/
theorem takeInterrupt_state {n : Nat} {s t : State} {u : Unit} (h : takeInterrupt n s = .ok u t) :
    t = { s with sp := s.sp - 4, ip := t.ip, halted := false, mem := t.mem, device := t.device
                 fr := if 4 ≤ n then s.fr &&& ~~~ interruptBit n else s.fr } ∧
      isEven s.sp ∧ isEven t.ip ∧ (Memory.wf s.mem = true → Memory.wf t.mem = true) := by
  obtain ⟨s1, s2, s3, target, h1, h2, h3, hev, rfl⟩ := takeInterrupt_ok h
  obtain ⟨e1, w1, p1, _⟩ := push_ok h1
  obtain ⟨e2, w2, _, _⟩ := push_ok h2
  have e3 := memRead_state h3
  have hsub : s.sp - 2 - 2 = s.sp - 4 := by
    rw [BitVec.sub_sub]; rfl
  refine ⟨?_, p1, hev, fun hw => ?_⟩
  · rw [e3, e2, e1]
    simp only [hsub]
  · have : s3.mem = s2.mem := by rw [e3]
    show Memory.wf s3.mem = true
    rw [this]; exact w2 (w1 hw)

/-- One pass of the interrupt loop: nothing, a trigger lost, or an interrupt taken. -/
theorem serveInterrupt_cases {n : Nat} {s t : State} {u : Unit} (h : serveInterrupt n s = .ok u t) :
    (s.ir.getLsbD n = false ∧ t = s) ∨
    (s.ir.getLsbD n = true ∧ unmasked n s = false ∧ t = { s with ir := s.ir &&& ~~~ interruptBit n }) ∨
    (s.ir.getLsbD n = true ∧ unmasked n s = true ∧
      takeInterrupt n { s with ir := s.ir &&& ~~~ interruptBit n } = .ok () t) := by
  unfold serveInterrupt at h
  dsimp only at h
  split at h
  · next hn =>
    split at h
    · next hm => exact .inr (.inr ⟨hn, hm, h⟩)
    · next hm => cases h; exact .inr (.inl ⟨hn, Bool.eq_false_iff.2 hm, rfl⟩)
  · next hn => cases h; exact .inl ⟨Bool.eq_false_iff.2 hn, rfl⟩

theorem resetSequence_ok {s t : State} {u : Unit} (h : resetSequence s = .ok u t) :
    ∃ target s', fetch16 0x0000 s = .ok target s' ∧ isEven target ∧
      t = { s' with ip := target, fr := 0, ir := 0, halted := false } := by
  obtain ⟨target, s', h1, h⟩ := Res.bind_eq_ok.1 h
  obtain ⟨_, s2, h2, h⟩ := Res.bind_eq_ok.1 h
  obtain ⟨rfl, hev⟩ := writeIp_ok h2
  cases h
  exact ⟨target, s', h1, hev, rfl⟩

/-- The interrupt phase of the SPU Mark II answers only by a reset or by the loop
(`60_exceptions.md` R228). -/
theorem interruptPhaseII_ok {s t : State} {u : Unit} (h : interruptPhaseII s = .ok u t) :
    (samplePins s).bus = false ∧
    (((s.ir ||| envBits (samplePins s)).getLsbD 0 = true ∧
        resetSequence { consumePins s with ir := s.ir ||| envBits (samplePins s) } = .ok () t) ∨
     ((s.ir ||| envBits (samplePins s)).getLsbD 0 = false ∧
        (s.ir ||| envBits (samplePins s)) &&& reservedIr = 0 ∧
        serveInterrupts interruptOrder
          { consumePins s with ir := s.ir ||| envBits (samplePins s) } = .ok () t)) := by
  unfold interruptPhaseII at h
  dsimp only at h
  split at h
  · cases h
  · next hb =>
    refine ⟨Bool.eq_false_iff.2 hb, ?_⟩
    split at h
    · next h0 => exact .inl ⟨h0, h⟩
    · next h0 =>
      split at h
      · next hr => exact .inr ⟨Bool.eq_false_iff.2 h0, hr, h⟩
      · cases h

/-- The outcome of a step is a next state in two ways: the instruction completed, or a bus error undid it
on the SPU Mark II (`60_exceptions.md` R240). -/
theorem finish_next {s t : State} {r : Res Unit} (h : finish s r = .next t) :
    r = .ok () t ∨ ∃ at', r = .bus at' ∧ s.params.variant = .markII ∧ t = busAbort s at' := by
  cases r with
  | ok u s' => cases h; exact .inl rfl
  | fault e => cases h
  | bus at' =>
    simp only [finish] at h
    cases hv : s.params.variant <;> simp only [hv] at h
    · cases h; exact .inr ⟨at', rfl, rfl, rfl⟩
    · cases h

end Sys2Proof.Machine
end

