-- ==== Sys2Proof/Laws/Execute.lean ====
section
/-! SUPPORT. What the parts of an instruction and of a step can do, said once: the inputs, the output, the
frame around a command, each command, the fetch and the step. -/

namespace Sys2Proof.Machine

/-! ### Inputs and output -/

/-- Fetching an input moves `IP` past an immediate or `SP` past a popped word, and, where a device stands,
the devices' state. -/
theorem fetchInput_ok {sel : Input} {v : Word} {s t : State} (h : fetchInput sel s = .ok v t) :
    t = { s with ip := s.ip + (if sel = .imm then 2 else 0)
                 sp := s.sp + (if sel = .pop then 2 else 0), device := t.device } := by
  cases sel with
  | zero => cases h; apply State.ext <;> simp
  | imm =>
    obtain ⟨a, s', h1, h2⟩ := Res.bind_eq_ok.1 h
    have := memRead_state h1
    cases h2
    rw [this]; apply State.ext <;> simp
  | peek => have := peek_ok h; rw [this]; apply State.ext <;> simp
  | pop => have := pop_ok h; rw [this]; apply State.ext <;> simp

theorem fetchInput_bus {sel : Input} {s t : State} (h : fetchInput sel s = .bus t) : t = s := by
  cases sel with
  | zero => cases h
  | imm =>
    rcases Res.bind_eq_bus.1 h with h | ⟨_, _, _, h2⟩
    · exact (memRead_bus h).1
    · cases h2
  | peek => exact peek_bus h
  | pop => exact pop_bus h

/-- On the default platform an input is what the table says (`40_execution_cycle.md` R116). -/
theorem fetchInput_default {s : State} (h : Ready s) (sel : Input) :
    fetchInput sel s = .ok (inputValue sel (wordAt s s.ip) (wordAt s s.sp))
      { s with ip := s.ip + (if sel = .imm then 2 else 0)
               sp := s.sp + (if sel = .pop then 2 else 0) } := by
  obtain ⟨hd, hip, hsp⟩ := h
  cases sel with
  | zero => simp [fetchInput, inputValue]
  | imm => simp [fetchInput, fetch16_default hd _ hip, inputValue, advance]
  | peek => simp [fetchInput, peek_default hd hsp, inputValue]
  | pop => simp [fetchInput, pop_default hd hsp, inputValue]

/-- The output is dropped, or pushed. -/
theorem putOutput_ok {r : OutputMode} {v : Word} {s t : State} {u : Unit}
    (h : putOutput r v s = .ok u t) : (r = .discard ∧ t = s) ∨ (r = .push ∧ push v s = .ok () t) := by
  cases r with
  | discard => cases h; exact .inl ⟨rfl, rfl⟩
  | push => exact .inr ⟨rfl, h⟩

theorem putOutput_bus {r : OutputMode} {v : Word} {s t : State} (h : putOutput r v s = .bus t) :
    r = .push ∧ t = { s with sp := s.sp - 2 } := by
  cases r with
  | discard => cases h
  | push => exact ⟨rfl, push_bus h⟩

/-! ### The frame around a command -/

/-- The frame of `execute` with the condition read on the flags before the instruction. -/
theorem execute_eq (c : Conf) (command : Command) (s : State) :
    execute c command s =
      if condHolds c.ex s.fr = true then
        (fetchInput c.i0 (advance s)).bind fun v0 s1 =>
        (fetchInput c.i1 s1).bind fun v1 s2 =>
        (command v0 v1 s2).bind fun out s3 =>
        (putOutput c.r out s3).bind fun _ s4 => .ok () (modifyFlags c.f out s4)
      else .ok () (skipInput c.i1 (skipInput c.i0 (advance s))) := rfl

/-- An instruction that completes was skipped, or fetched its inputs, ran its command, put its output and
modified the flags, in this order (`40_execution_cycle.md` R113, R122, R125). -/
theorem execute_ok {c : Conf} {command : Command} {s t : State} {u : Unit}
    (h : execute c command s = .ok u t) :
    (condHolds c.ex s.fr = false ∧ t = skipInput c.i1 (skipInput c.i0 (advance s))) ∨
    (condHolds c.ex s.fr = true ∧ ∃ v0 v1 out s2 s3 s4,
      InputsAre c s v0 v1 s2 ∧ command v0 v1 s2 = .ok out s3 ∧
      putOutput c.r out s3 = .ok () s4 ∧ t = modifyFlags c.f out s4) := by
  rw [execute_eq] at h
  split at h
  · next hc =>
    obtain ⟨v0, s1, h1, h⟩ := Res.bind_eq_ok.1 h
    obtain ⟨v1, s2, h2, h⟩ := Res.bind_eq_ok.1 h
    obtain ⟨out, s3, h3, h⟩ := Res.bind_eq_ok.1 h
    obtain ⟨_, s4, h4, h⟩ := Res.bind_eq_ok.1 h
    cases h
    exact .inr ⟨hc, v0, v1, out, s2, s3, s4, ⟨s1, h1, h2⟩, h3, h4, rfl⟩
  · next hc => cases h; exact .inl ⟨Bool.eq_false_iff.2 hc, rfl⟩

/-- A bus error ends an executed instruction at an input, in its command or at its output. -/
theorem execute_bus {c : Conf} {command : Command} {s t : State} (h : execute c command s = .bus t) :
    condHolds c.ex s.fr = true ∧
    (fetchInput c.i0 (advance s) = .bus t ∨
     (∃ v0 s1, fetchInput c.i0 (advance s) = .ok v0 s1 ∧ fetchInput c.i1 s1 = .bus t) ∨
     (∃ v0 v1 s2, InputsAre c s v0 v1 s2 ∧ command v0 v1 s2 = .bus t) ∨
     (∃ v0 v1 out s2 s3, InputsAre c s v0 v1 s2 ∧ command v0 v1 s2 = .ok out s3 ∧
       putOutput c.r out s3 = .bus t)) := by
  rw [execute_eq] at h
  split at h
  · next hc =>
    refine ⟨hc, ?_⟩
    rcases Res.bind_eq_bus.1 h with h | ⟨v0, s1, h1, h⟩
    · exact .inl h
    rcases Res.bind_eq_bus.1 h with h | ⟨v1, s2, h2, h⟩
    · exact .inr (.inl ⟨v0, s1, h1, h⟩)
    rcases Res.bind_eq_bus.1 h with h | ⟨out, s3, h3, h⟩
    · exact .inr (.inr (.inl ⟨v0, v1, s2, ⟨s1, h1, h2⟩, h⟩))
    rcases Res.bind_eq_bus.1 h with h | ⟨_, s4, _, h⟩
    · exact .inr (.inr (.inr ⟨v0, v1, out, s2, s3, ⟨s1, h1, h2⟩, h3, h⟩))
    · cases h
  · cases h

/-- The state in which a command runs, whatever the platform (`40_execution_cycle.md` R118). -/
theorem inputsAre_state {c : Conf} {s t : State} {v0 v1 : Word} (h : InputsAre c s v0 v1 t) :
    t = { s with ip := nextIp c s, sp := spAfterInputs c s, device := t.device } := by
  obtain ⟨s', h1, h2⟩ := h
  have e1 := fetchInput_ok h1
  have e2 := fetchInput_ok h2
  rw [e2, e1]
  apply State.ext <;> simp [nextIp, spAfterInputs]

/-- A step of 2, taken or not, keeps parity. -/
theorem isEven_add_ite {a : Word} {p : Prop} [Decidable p] (h : isEven a) :
    isEven (a + (if p then 2 else 0)) := by
  unfold isEven
  split
  · rw [getLsbD_zero_add_two]; exact h
  · exact (congrArg (fun x : Word => x.getLsbD 0) (BitVec.add_zero a)).trans h

theorem isEven_add_two {a : Word} (h : isEven a) : isEven (a + 2) := by
  unfold isEven; rw [getLsbD_zero_add_two]; exact h

theorem isEven_sub_two {a : Word} (h : isEven a) : isEven (a - 2) := by
  unfold isEven; rw [getLsbD_zero_sub_two]; exact h

theorem nextIp_even {c : Conf} {s : State} (h : isEven s.ip) : isEven (nextIp c s) :=
  isEven_add_ite (isEven_add_ite (isEven_add_two h))

theorem spAfterInputs_even {c : Conf} {s : State} (h : isEven s.sp) : isEven (spAfterInputs c s) :=
  isEven_add_ite (isEven_add_ite h)

/-- On the default platform the inputs are those of the table (`40_execution_cycle.md` R118). -/
theorem inputsAre_default {s : State} (h : Ready s) (c : Conf) :
    InputsAre c s (input0Of c s) (input1Of c s) (afterInputs c s) := by
  obtain ⟨hd, hip, hsp⟩ := h
  have h1 := fetchInput_default (s := advance s) ⟨hd, isEven_add_two hip, hsp⟩ c.i0
  have hr : Ready { s with ip := s.ip + 2 + (if c.i0 = .imm then 2 else 0)
                           sp := s.sp + (if c.i0 = .pop then 2 else 0) } :=
    ⟨hd, isEven_add_ite (isEven_add_two hip), isEven_add_ite hsp⟩
  have h2 := fetchInput_default hr c.i1
  have hi1 : inputValue c.i1
      (wordAt s (s.ip + 2 + (if c.i0 = .imm then 2 else 0)))
      (wordAt s (s.sp + (if c.i0 = .pop then 2 else 0))) = input1Of c s := by
    have h4 : s.ip + 2 + 2 = s.ip + 4 := by rw [BitVec.add_assoc]; rfl
    unfold input1Of
    congr 2
    · split
      · exact h4
      · exact BitVec.add_zero _
    · split
      · rfl
      · exact BitVec.add_zero _
  exact ⟨_, h1, h2.trans (congrArg (fun v => Res.ok v (afterInputs c s)) hi1)⟩

/-- An executed instruction whose inputs and command are known runs as far as its output. -/
theorem execute_of_inputs {c : Conf} {command : Command} {s s2 : State} {v0 v1 : Word}
    (hc : condHolds c.ex s.fr = true) (hin : InputsAre c s v0 v1 s2) :
    execute c command s =
      (command v0 v1 s2).bind fun out s3 =>
        (putOutput c.r out s3).bind fun _ s4 => .ok () (modifyFlags c.f out s4) := by
  obtain ⟨s1, h1, h2⟩ := hin
  rw [execute_eq, if_pos hc, h1, Res.bind_ok, h2, Res.bind_ok]

/-- On the default platform the output is delivered (`40_execution_cycle.md` R123, R124). -/
theorem putOutput_default {s : State} (h : DefaultPlatform s) (hs : isEven s.sp) (c : Conf)
    (out : Word) :
    ((putOutput c.r out s).bind fun _ s4 => (.ok () (modifyFlags c.f out s4) : Res Unit)) =
      .ok () (deliver c out s) := by
  unfold deliver
  simp only [← flagsOf_eq_withZN]
  cases hr : c.r with
  | discard => simp only [putOutput, Res.bind_ok]; cases c.f <;> rfl
  | push => simp only [putOutput, push_default h out hs, Res.bind_ok]; cases c.f <;> rfl

/-- THE RESULT OF AN INSTRUCTION on the default platform, from that of its command: the lemma every
completion statement rests on. -/
theorem runInstr_default {c : Conf} {command : Command} {s t : State} {out : Word} (h : Ready s)
    (hc : condHolds c.ex s.fr = true)
    (hcmd : command (input0Of c s) (input1Of c s) (afterInputs c s) = .ok out t)
    (hd : DefaultPlatform t) (hs : isEven t.sp) :
    runInstr c command s = .next (deliver c out t) := by
  unfold runInstr
  rw [execute_of_inputs hc (inputsAre_default h c), hcmd, Res.bind_ok, putOutput_default hd hs]
  rfl

/-- An instruction whose command faults on its inputs faults. -/
theorem runInstr_default_fault {c : Conf} {command : Command} {s : State} {e : Fault} (h : Ready s)
    (hc : condHolds c.ex s.fr = true)
    (hcmd : command (input0Of c s) (input1Of c s) (afterInputs c s) = .fault e) :
    runInstr c command s = .fault e := by
  unfold runInstr
  rw [execute_of_inputs hc (inputsAre_default h c), hcmd]
  rfl

/-! ### Every instruction as its configuration and its command -/

/-- The command of each instruction. -/
def commandMeaning : Instr → Command
  | .copy _ => copyCommand
  | .get _ => getCommand
  | .set _ => setCommand
  | .store8 _ => store8Command
  | .store16 _ => store16Command
  | .load8 _ => load8Command
  | .load16 _ => load16Command
  | .cpuid _ => cpuidCommand
  | .halt _ => haltCommand
  | .frget _ => frgetCommand
  | .frset _ => frsetCommand
  | .bpget _ => bpgetCommand
  | .bpset _ => bpsetCommand
  | .spget _ => spgetCommand
  | .spset _ => spsetCommand
  | .add _ => addCommand
  | .sub _ => subCommand
  | .mul _ => mulCommand
  | .div _ => divCommand
  | .mod _ => modCommand
  | .and _ => andCommand
  | .or _ => orCommand
  | .xor _ => xorCommand
  | .not _ => notCommand
  | .signext _ => signextCommand
  | .rol _ => rolCommand
  | .ror _ => rorCommand
  | .bswap _ => bswapCommand
  | .asr _ => asrCommand
  | .lsl _ => lslCommand
  | .lsr _ => lsrCommand
  | .setip _ => setipCommand
  | .addip _ => addipCommand
  | .intr _ => intrCommand

theorem exec_eq_runInstr (i : Instr) (s : State) : exec i s = runInstr i.conf (commandMeaning i) s := by
  cases i <;> rfl

/-- `exec` answers a next state in two ways: the instruction completed, or a bus error undid it. -/
theorem exec_next {i : Instr} {s t : State} (h : exec i s = .next t) :
    execute i.conf (commandMeaning i) s = .ok () t ∨
      ∃ at', execute i.conf (commandMeaning i) s = .bus at' ∧ s.params.variant = .markII ∧
        t = busAbort s at' := by
  rw [exec_eq_runInstr] at h
  exact finish_next h

/-! ### The commands -/

theorem compute_ok {f : Word → Word → Word} {v0 v1 out : Word} {s t : State}
    (h : compute f v0 v1 s = .ok out t) : out = f v0 v1 ∧ t = s := by
  cases h; exact ⟨rfl, rfl⟩

theorem draw_ok {out : Word} {s t : State} (h : draw s = .ok out t) :
    out = Config.freeWord s.draws ∧ t = { s with draws := s.draws + 1 } := by
  cases h; exact ⟨rfl, rfl⟩

theorem setCommand_ok {v0 v1 out : Word} {s t : State} (h : setCommand v0 v1 s = .ok out t) :
    out = v1 ∧ memWrite .word (frameAddress s v0) v1 s = .ok () t := by
  obtain ⟨_, s', h1, h2⟩ := Res.bind_eq_ok.1 h
  cases h2; exact ⟨rfl, h1⟩

theorem store8Command_ok {v0 v1 out : Word} {s t : State} (h : store8Command v0 v1 s = .ok out t) :
    out = v0 &&& 0x00FF ∧ memWrite .byte v1 v0 s = .ok () t := by
  obtain ⟨_, s', h1, h2⟩ := Res.bind_eq_ok.1 h
  cases h2; exact ⟨rfl, h1⟩

theorem store16Command_ok {v0 v1 out : Word} {s t : State} (h : store16Command v0 v1 s = .ok out t) :
    out = v0 ∧ memWrite .word v1 v0 s = .ok () t := by
  obtain ⟨_, s', h1, h2⟩ := Res.bind_eq_ok.1 h
  cases h2; exact ⟨rfl, h1⟩

theorem cpuidCommand_ok {v0 v1 out : Word} {s t : State} (h : cpuidCommand v0 v1 s = .ok out t) :
    t = { s with draws := t.draws } := by
  unfold cpuidCommand at h
  split at h
  · cases h; rfl
  · obtain ⟨_, rfl⟩ := draw_ok h; rfl

theorem haltCommand_ok {v0 v1 out : Word} {s t : State} (h : haltCommand v0 v1 s = .ok out t) :
    t = { s with halted := true, draws := s.draws + 1 } := by
  obtain ⟨_, rfl⟩ := draw_ok h; rfl

theorem frsetCommand_ok {v0 v1 out : Word} {s t : State} (h : frsetCommand v0 v1 s = .ok out t) :
    out = s.fr ∧ t = { s with fr := (v0 &&& ~~~ v1) ||| (s.fr &&& v1) } ∧
      ((v0 &&& ~~~ v1) ||| (s.fr &&& v1)) &&& reservedFr s.params = 0 := by
  obtain ⟨_, s', h1, h2⟩ := Res.bind_eq_ok.1 h
  obtain ⟨rfl, hr⟩ := writeFr_ok h1
  cases h2; exact ⟨rfl, rfl, hr⟩

theorem bpsetCommand_ok {v0 v1 out : Word} {s t : State} (h : bpsetCommand v0 v1 s = .ok out t) :
    out = s.bp ∧ t = { s with bp := v0 } ∧ isEven v0 := by
  obtain ⟨_, s', h1, h2⟩ := Res.bind_eq_ok.1 h
  obtain ⟨rfl, hr⟩ := writeBp_ok h1
  cases h2; exact ⟨rfl, rfl, hr⟩

theorem spsetCommand_ok {v0 v1 out : Word} {s t : State} (h : spsetCommand v0 v1 s = .ok out t) :
    out = s.sp ∧ t = { s with sp := v0 } ∧ isEven v0 := by
  obtain ⟨_, s', h1, h2⟩ := Res.bind_eq_ok.1 h
  obtain ⟨rfl, hr⟩ := writeSp_ok h1
  cases h2; exact ⟨rfl, rfl, hr⟩

/-- `DIV` and `MOD` change nothing but, for a zero divisor, the trigger of ARITH and the count of free
words. -/
theorem divCommand_ok {v0 v1 out : Word} {s t : State} (h : divCommand v0 v1 s = .ok out t) :
    t = s ∨ (v1 = 0 ∧ t = { trigger 4 s with draws := s.draws + 1 }) := by
  unfold divCommand divideByZero at h
  split at h
  · next hz => obtain ⟨_, rfl⟩ := draw_ok h; exact .inr ⟨hz, by simp⟩
  · cases h; exact .inl rfl

theorem modCommand_ok {v0 v1 out : Word} {s t : State} (h : modCommand v0 v1 s = .ok out t) :
    t = s ∨ (v1 = 0 ∧ t = { trigger 4 s with draws := s.draws + 1 }) := by
  unfold modCommand divideByZero at h
  split at h
  · next hz => obtain ⟨_, rfl⟩ := draw_ok h; exact .inr ⟨hz, by simp⟩
  · cases h; exact .inl rfl

theorem intrCommand_ok {v0 v1 out : Word} {s t : State} (h : intrCommand v0 v1 s = .ok out t) :
    out = v0 ∧ t = { s with ir := s.ir ||| v0 } ∧ v0 &&& reservedIr = 0 ∧
      s.params.variant = .markII := by
  unfold intrCommand at h
  split at h
  · next hv =>
    split at h
    · next hr => cases h; exact ⟨rfl, rfl, hr, hv⟩
    · cases h
  · cases h

/-! ### The step -/

theorem fetchInstr_ok {i : Instr} {s t : State} (h : fetchInstr s = .ok i t) :
    ∃ w, fetch16 s.ip s = .ok w t ∧ decodeWord w = .ok i := by
  obtain ⟨w, s', h1, h2⟩ := Res.bind_eq_ok.1 h
  split at h2
  · next hd => cases h2; exact ⟨w, h1, hd⟩
  · cases h2

theorem fetchInstr_bus {s t : State} (h : fetchInstr s = .bus t) : t = s := by
  rcases Res.bind_eq_bus.1 h with h | ⟨_, _, _, h2⟩
  · exact (memRead_bus h).1
  · split at h2 <;> cases h2

/-- A step answers a next state in three ways: the core stays halted, an instruction answers it, or a bus
error on the instruction word does (`40_execution_cycle.md` R113, R128, `60_exceptions.md` R240). -/
theorem step_next {s t : State} (h : step s = .next t) :
    ∃ s1, interruptPhase s = .ok () s1 ∧
      ((s1.halted = true ∧ t = s1) ∨
       (s1.halted = false ∧ ∃ i s2, fetchInstr s1 = .ok i s2 ∧ exec i s2 = .next t) ∨
       (s1.halted = false ∧ fetchInstr s1 = .bus s1 ∧ s1.params.variant = .markII ∧
         t = busAbort s1 s1)) := by
  unfold step cycle at h
  split at h
  · next u s1 hp =>
    refine ⟨s1, hp, ?_⟩
    unfold instructionPhase at h
    split at h
    · next hh => cases h; exact .inl ⟨hh, rfl⟩
    · next hh =>
      have hh' := Bool.eq_false_iff.2 hh
      split at h
      · next i s2 hf => exact .inr (.inl ⟨hh', i, s2, hf, h⟩)
      · cases h
      · next at' hf =>
        have := fetchInstr_bus hf
        subst this
        rcases finish_next h with h | ⟨at'', h1, hv, h2⟩
        · cases h
        · cases h1; exact .inr (.inr ⟨hh', hf, hv, h2⟩)
  · cases h
  · cases h

end Sys2Proof.Machine
end

