-- ==== Sys2Proof/Laws/PerInstr.lean ====
section
/-! SUPPORT. Statements about every instruction as syntax, one lemma per constructor. `EncodedFields`: the
fields of an instruction's word, read back, are the instruction's own (`30_encoding.md` R81). -/

namespace Sys2Proof

/-- The fields of a word packed as `30_encoding.md` R81 packs them. -/
theorem packed_fields (cmd : BitVec 6) (r f : BitVec 1) (i1 i0 : BitVec 2) (ex : BitVec 3) (w : Word)
    (hw : w = (0 : BitVec 1) ++ cmd ++ r ++ f ++ i1 ++ i0 ++ ex) :
    w.getLsbD 15 = false ∧ w.extractLsb' 9 6 = cmd ∧ w.getLsbD 8 = r.getLsbD 0 ∧
      w.getLsbD 7 = f.getLsbD 0 ∧ w.extractLsb' 5 2 = i1 ∧ w.extractLsb' 3 2 = i0 ∧
      w.extractLsb' 0 3 = ex := by
  have hbit : ∀ k, w.getLsbD k =
      if k < 3 then ex.getLsbD k
      else if k < 5 then i0.getLsbD (k - 3)
      else if k < 7 then i1.getLsbD (k - 5)
      else if k < 8 then f.getLsbD (k - 7)
      else if k < 9 then r.getLsbD (k - 8)
      else if k < 15 then cmd.getLsbD (k - 9) else false := by
    intro k
    subst hw
    simp only [BitVec.getLsbD_append]
    repeat' split
    all_goals first | rfl | omega | simp
  refine ⟨by simp [-BitVec.getLsbD_eq_getElem, hbit], ?_, by simp [-BitVec.getLsbD_eq_getElem, hbit],
    by simp [-BitVec.getLsbD_eq_getElem, hbit], ?_, ?_, ?_⟩
  all_goals
    apply BitVec.eq_of_getLsbD_eq
    intro k hk
    simp only [BitVec.getLsbD_extractLsb', hbit]
    interval_cases k <;> simp

theorem conditionOf_conditionCode (x : Condition) : conditionOf (conditionCode x) = x := by
  cases x <;> rfl

theorem inputOf_inputCode (x : Input) : inputOf (inputCode x) = x := by cases x <;> rfl

/-- The fields read back from an instruction's word are the instruction's own. -/
def Laws.EncodedFields.Statement (i : Instr) : Prop :=
  (encodeWord i).getLsbD 15 = false ∧ (encodeWord i).extractLsb' 9 6 = commandCode i ∧
    confOf (encodeWord i) = i.conf

/-- The family's lemma for any instruction, from its configuration and its command code. -/
theorem encodedFields_of (i : Instr) : Laws.EncodedFields.Statement i := by
  obtain ⟨h15, hcmd, hr, hf, h1, h0, hex⟩ :=
    packed_fields (commandCode i) (outputCode i.conf.r) (flagModCode i.conf.f) (inputCode i.conf.i1)
      (inputCode i.conf.i0) (conditionCode i.conf.ex) (encodeWord i) rfl
  refine ⟨h15, hcmd, ?_⟩
  unfold confOf
  have hfm : ∀ x, (if (flagModCode x).getLsbD 0 then FlagMod.yes else .no) = x := by
    intro x; cases x <;> rfl
  have hom : ∀ x, (if (outputCode x).getLsbD 0 then OutputMode.push else .discard) = x := by
    intro x; cases x <;> rfl
  rw [hex, h0, h1, hr, hf, conditionOf_conditionCode, inputOf_inputCode, inputOf_inputCode, hfm, hom]

theorem Laws.EncodedFields.copy (c : Conf) : Laws.EncodedFields.Statement (.copy c) := encodedFields_of _
theorem Laws.EncodedFields.get (c : Conf) : Laws.EncodedFields.Statement (.get c) := encodedFields_of _
theorem Laws.EncodedFields.set (c : Conf) : Laws.EncodedFields.Statement (.set c) := encodedFields_of _
theorem Laws.EncodedFields.store8 (c : Conf) : Laws.EncodedFields.Statement (.store8 c) := encodedFields_of _
theorem Laws.EncodedFields.store16 (c : Conf) : Laws.EncodedFields.Statement (.store16 c) := encodedFields_of _
theorem Laws.EncodedFields.load8 (c : Conf) : Laws.EncodedFields.Statement (.load8 c) := encodedFields_of _
theorem Laws.EncodedFields.load16 (c : Conf) : Laws.EncodedFields.Statement (.load16 c) := encodedFields_of _
theorem Laws.EncodedFields.cpuid (c : Conf) : Laws.EncodedFields.Statement (.cpuid c) := encodedFields_of _
theorem Laws.EncodedFields.halt (c : Conf) : Laws.EncodedFields.Statement (.halt c) := encodedFields_of _
theorem Laws.EncodedFields.frget (c : Conf) : Laws.EncodedFields.Statement (.frget c) := encodedFields_of _
theorem Laws.EncodedFields.frset (c : Conf) : Laws.EncodedFields.Statement (.frset c) := encodedFields_of _
theorem Laws.EncodedFields.bpget (c : Conf) : Laws.EncodedFields.Statement (.bpget c) := encodedFields_of _
theorem Laws.EncodedFields.bpset (c : Conf) : Laws.EncodedFields.Statement (.bpset c) := encodedFields_of _
theorem Laws.EncodedFields.spget (c : Conf) : Laws.EncodedFields.Statement (.spget c) := encodedFields_of _
theorem Laws.EncodedFields.spset (c : Conf) : Laws.EncodedFields.Statement (.spset c) := encodedFields_of _
theorem Laws.EncodedFields.add (c : Conf) : Laws.EncodedFields.Statement (.add c) := encodedFields_of _
theorem Laws.EncodedFields.sub (c : Conf) : Laws.EncodedFields.Statement (.sub c) := encodedFields_of _
theorem Laws.EncodedFields.mul (c : Conf) : Laws.EncodedFields.Statement (.mul c) := encodedFields_of _
theorem Laws.EncodedFields.div (c : Conf) : Laws.EncodedFields.Statement (.div c) := encodedFields_of _
theorem Laws.EncodedFields.mod (c : Conf) : Laws.EncodedFields.Statement (.mod c) := encodedFields_of _
theorem Laws.EncodedFields.and (c : Conf) : Laws.EncodedFields.Statement (.and c) := encodedFields_of _
theorem Laws.EncodedFields.or (c : Conf) : Laws.EncodedFields.Statement (.or c) := encodedFields_of _
theorem Laws.EncodedFields.xor (c : Conf) : Laws.EncodedFields.Statement (.xor c) := encodedFields_of _
theorem Laws.EncodedFields.not (c : Conf) : Laws.EncodedFields.Statement (.not c) := encodedFields_of _
theorem Laws.EncodedFields.signext (c : Conf) : Laws.EncodedFields.Statement (.signext c) := encodedFields_of _
theorem Laws.EncodedFields.rol (c : Conf) : Laws.EncodedFields.Statement (.rol c) := encodedFields_of _
theorem Laws.EncodedFields.ror (c : Conf) : Laws.EncodedFields.Statement (.ror c) := encodedFields_of _
theorem Laws.EncodedFields.bswap (c : Conf) : Laws.EncodedFields.Statement (.bswap c) := encodedFields_of _
theorem Laws.EncodedFields.asr (c : Conf) : Laws.EncodedFields.Statement (.asr c) := encodedFields_of _
theorem Laws.EncodedFields.lsl (c : Conf) : Laws.EncodedFields.Statement (.lsl c) := encodedFields_of _
theorem Laws.EncodedFields.lsr (c : Conf) : Laws.EncodedFields.Statement (.lsr c) := encodedFields_of _
theorem Laws.EncodedFields.setip (c : Conf) : Laws.EncodedFields.Statement (.setip c) := encodedFields_of _
theorem Laws.EncodedFields.addip (c : Conf) : Laws.EncodedFields.Statement (.addip c) := encodedFields_of _
theorem Laws.EncodedFields.intr (c : Conf) : Laws.EncodedFields.Statement (.intr c) := encodedFields_of _

end Sys2Proof
end

