-- ==== Sys2Proof/Tests/Slice0.lean ====
section
/-! SUPPORT. Tests: what the well-formedness check refuses, every constructor's decoding, one or two steps
of each instruction, taking an interrupt, and a witness for the hypotheses of each statement. Every
expected result is a row of `95_test_vectors.md`, named in the docstring by its section, unless the
docstring says otherwise. -/

open Sys2Proof Sys2Proof.Machine

/-! ### Helpers -/

/-- Modifiers all zero. -/
def Tests.plain : Conf := ⟨.always, .zero, .zero, .no, .discard⟩

/-- Both inputs immediate, the output pushed. -/
def Tests.both : Conf := ⟨.always, .imm, .imm, .no, .push⟩

/-- An SPU Mark II with code at 0x1000, `SP = 7FFC`, `BP = 4000`, words in memory, and a quiet sample of
the pins next. -/
def Tests.state (fr : Word) (words : List (Word × Word)) : State :=
  { State.reset with
    ip := 0x1000, sp := 0x7FFC, bp := 0x4000, fr := fr, ir := 0, pins := [Pins.quiet]
    mem := words.foldl (fun m p => storeWord m p.1 p.2) [] }

/-- The state with a word at 0x1000 and two words after it. -/
def Tests.code (fr w a b : Word) : State :=
  Tests.state fr [(0x1000, w), (0x1002, a), (0x1004, b)]

/-- What a step leaves, if it answers a next state. -/
def Tests.after {α : Type} (s : State) (look : State → α) : Option α :=
  match step s with
  | .next t => some (look t)
  | .fault _ | .refused _ => none

/-- The pushed output and `FR` after one step of a word with both inputs immediate and `r` = push. -/
def Tests.output (w a b fr : Word) : Option (Word × Word) :=
  Tests.after (Tests.code fr w a b) fun t => (wordAt t t.sp, t.fr)

/-- The reason a step faults for, if it does. -/
def Tests.faultOf (s : State) : Option Fault :=
  match step s with
  | .fault e => some e
  | .next _ | .refused _ => none

/-- Whether an outcome is a next state. -/
def Tests.isNext (o : Host.Outcome State Fault Refusal) : Bool :=
  match o with
  | .next _ => true
  | .fault _ | .refused _ => false

/-- Whether an operation succeeds. -/
def Tests.isOk (r : Res Unit) : Bool :=
  match r with
  | .ok _ _ => true
  | .fault _ | .bus _ => false

theorem Tests.next_of {o : Host.Outcome State Fault Refusal} (h : Tests.isNext o = true) :
    ∃ t, o = .next t := by
  cases o with
  | next t => exact ⟨t, rfl⟩
  | fault _ => cases h
  | refused _ => cases h

theorem Tests.ok_of {r : Res Unit} (h : Tests.isOk r = true) : ∃ t, r = .ok () t := by
  cases r with
  | ok _ t => exact ⟨t, rfl⟩
  | fault _ => cases h
  | bus _ => cases h

open Tests

/-! ### Well-formedness -/

/-- spec/opcode_table.json: `INTR` is of the SPU Mark II alone. -/
theorem test_intr_ill_formed_on_markIIL : (Instr.intr plain).wellFormed .markIIL = false := by decide

theorem test_intr_well_formed_on_markII : (Instr.intr plain).wellFormed .markII = true := by decide

theorem test_copy_well_formed_on_both :
    (Instr.copy both).wellFormed .markII = true ∧ (Instr.copy both).wellFormed .markIIL = true := by
  decide

/-! ### Decoding: 2.1 and 2.2 -/

/-- 2.2: the base word of every command. -/
theorem test_decode_base_words :
    [0x0000, 0x0400, 0x0600, 0x0800, 0x0A00, 0x0C00, 0x0E00, 0x1000, 0x1200, 0x1400, 0x1600, 0x1800,
      0x1A00, 0x1C00, 0x1E00, 0x2000, 0x2200, 0x2400, 0x2600, 0x2800, 0x2A00, 0x2C00, 0x2E00, 0x3000,
      0x3200, 0x3400, 0x3600, 0x3800, 0x3A00, 0x3C00, 0x3E00, 0x4000, 0x4200, 0x4400].map
        (decodeTableWord 16) =
    [.copy plain, .get plain, .set plain, .store8 plain, .store16 plain, .load8 plain, .load16 plain,
      .cpuid plain, .halt plain, .frget plain, .frset plain, .bpget plain, .bpset plain, .spget plain,
      .spset plain, .add plain, .sub plain, .mul plain, .div plain, .mod plain, .and plain, .or plain,
      .xor plain, .not plain, .signext plain, .rol plain, .ror plain, .bswap plain, .asr plain,
      .lsl plain, .lsr plain, .setip plain, .addip plain, .intr plain].map some := by
  decide

/-- 2.1, bit by bit: data movement. -/
theorem test_decode_store16 : decodeWord 0b0000101000101000 =
    .ok (.store16 ⟨.always, .imm, .imm, .no, .discard⟩) := by rfl

/-- 2.1, bit by bit: data movement with flags and a push. -/
theorem test_decode_load16 : decodeWord 0b0000111110001000 =
    .ok (.load16 ⟨.always, .imm, .zero, .yes, .push⟩) := by rfl

/-- Program P5: `FRSET [i0:imm]` = 1608, registers. -/
theorem test_decode_frset : decodeWord 0b0001011000001000 =
    .ok (.frset ⟨.always, .imm, .zero, .no, .discard⟩) := by rfl

/-- 2.1, bit by bit: arithmetic. -/
theorem test_decode_sub : decodeWord 0b0010001110111000 =
    .ok (.sub ⟨.always, .pop, .imm, .yes, .push⟩) := by rfl

/-- Program P2: `BSWAP [i0:peek] [r:push]` = 3910, logic. -/
theorem test_decode_bswap : decodeWord 0b0011100100010000 =
    .ok (.bswap ⟨.always, .peek, .zero, .no, .push⟩) := by rfl

/-- 2.1, bit by bit: control, all modifiers set. -/
theorem test_decode_intr : decodeWord 0b0100010111111111 =
    .ok (.intr ⟨.overflow, .pop, .pop, .yes, .push⟩) := by rfl

/-- 2.1: the reserved encodings. -/
theorem test_decode_reserved :
    decodeWord 0x0200 = .error .reservedCommand ∧ decodeWord 0x4600 = .error .reservedCommand ∧
    decodeWord 0x7E00 = .error .reservedCommand ∧ decodeWord 0x8000 = .error .reservedBit15 :=
  ⟨rfl, rfl, rfl, rfl⟩

/-- 2.1: the word 23B8 is the bytes B8, 23 in memory. -/
theorem test_encode_bytes :
    encodeBytes (.sub ⟨.always, .pop, .imm, .yes, .push⟩) = [0xB8, 0x23] := by decide

theorem test_decode_truncated : decode [0xB8] = .error .truncated := rfl

/-! ### Configuration: 3.2 to 3.4 -/

/-- 3.2: `pop pop` and `imm imm`, with `SP` and `IP` after. -/
theorem test_input_order :
    (let s := state 0 [(0x1000, 0x0078), (0x1002, 0xAAAA), (0x1004, 0xBBBB), (0x7FFC, 0x1111),
        (0x7FFE, 0x2222)]
     (input0Of ⟨.always, .pop, .pop, .no, .discard⟩ s,
      input1Of ⟨.always, .pop, .pop, .no, .discard⟩ s,
      input0Of ⟨.always, .imm, .imm, .no, .discard⟩ s,
      input1Of ⟨.always, .imm, .imm, .no, .discard⟩ s,
      after s fun t => (t.sp, t.ip))) =
    ((0x1111 : Word), (0x2222 : Word), (0xAAAA : Word), (0xBBBB : Word),
      some ((0x8000 : Word), (0x1002 : Word))) := by
  decide

/-- 3.3: a skipped `ADD` steps over its immediates and leaves C. -/
theorem test_skip : after (code 0x0004 0x2029 1 2) (fun t => (t.ip, t.fr, t.sp)) =
    some (0x1006, 0x0004, 0x7FFC) := by decide

/-- 3.4: Z and N from the output, the enables untouched. -/
theorem test_flags : after (code 0x00FC 0x0088 0 0) State.fr = some 0x00FD ∧
    after (code 0x0001 0x0088 0x8000 0) State.fr = some 0x0002 := by decide

/-! ### Data movement: 4.1 -/

theorem test_copy : output 0x0128 0x1234 0x5678 0 = some (0x1234, 0) := by decide

/-- 4.1: `GET` with index FFFF reads below `BP`. -/
theorem test_get_wraps : after (state 0 [(0x1000, 0x0528), (0x1002, 0xFFFF), (0x1004, 0), (0x3FFE, 0x0BAD)])
    (fun t => wordAt t t.sp) = some 0x0BAD := by decide

theorem test_set : after (code 0 0x0728 0x0001 0x1234)
    (fun t => (byteAt t 0x4002, byteAt t 0x4003, wordAt t t.sp)) = some (0x34, 0x12, 0x1234) := by decide

theorem test_store8 :
    after (state 0 [(0x1000, 0x0928), (0x1002, 0x1234), (0x1004, 0x3001), (0x3000, 0xFFFF)])
      (fun t => (wordAt t 0x3000, wordAt t t.sp)) = some (0x34FF, 0x0034) := by decide

theorem test_store16 : after (code 0 0x0B28 0xBEEF 0x3000)
    (fun t => (byteAt t 0x3000, byteAt t 0x3001, wordAt t t.sp)) = some (0xEF, 0xBE, 0xBEEF) := by decide

theorem test_store16_odd : faultOf (code 0 0x0B28 0xBEEF 0x3001) = some .unaligned := by decide

theorem test_load8 : after (state 0 [(0x1000, 0x0D28), (0x1002, 0x3001), (0x1004, 0), (0x3000, 0xBEEF)])
    (fun t => wordAt t t.sp) = some 0x00BE := by decide

/-- 4.1: the last aligned word. -/
theorem test_load16_last :
    after (state 0 [(0x1000, 0x0F28), (0x1002, 0xFFFE), (0x1004, 0), (0xFFFE, 0x1357)])
      (fun t => wordAt t t.sp) = some 0x1357 := by decide

theorem test_load16_odd : faultOf (code 0 0x0F28 0x3001 0) = some .unaligned := by decide

/-! ### System and registers: 4.2 -/

theorem test_cpuid : output 0x1128 0 0 0 = some (0, 0) := by decide

theorem test_halt : after (code 0 0x1200 0 0) (fun t => (t.halted, t.ip)) = some (true, 0x1002) := by
  decide

theorem test_frget : output 0x1528 0 0x00F0 0x0085 = some (0x0005, 0x0085) := by decide

theorem test_frset : output 0x1728 0x0028 0xFFD7 0x0001 = some (0x0001, 0x0029) := by decide

theorem test_frset_reserved : faultOf (code 0 0x1728 0x0100 0) = some .reservedBit := by decide

theorem test_bpget : output 0x1928 0 0 0 = some (0x4000, 0) := by decide

theorem test_bpset : after (code 0 0x1B28 0x5000 0) (fun t => (t.bp, wordAt t t.sp)) =
    some (0x5000, 0x4000) := by decide

theorem test_bpset_odd : faultOf (code 0 0x1B28 0x5001 0) = some .reservedBit := by decide

/-- 4.2: the output is `SP` after the pop (1D18 = `SPGET [i0:pop] [r:push]`). -/
theorem test_spget_after_pop : after (state 0 [(0x1000, 0x1D18), (0x7FFC, 0x1111)])
    (fun t => (t.sp, wordAt t t.sp)) = some (0x7FFC, 0x7FFE) := by decide

theorem test_spset_pushes_on_new_stack : after (code 0 0x1F28 0x6000 0)
    (fun t => (t.sp, wordAt t 0x5FFE)) = some (0x5FFE, 0x7FFC) := by decide

theorem test_spset_odd : faultOf (code 0 0x1F28 0x6001 0) = some .reservedBit := by decide

/-! ### Arithmetic: 4.3 -/

theorem test_add_carries : output 0x2128 0xFFFF 0xFFFF 0x000C = some (0xFFFF, 0x000C) := by decide

theorem test_add_without_ce : output 0x2128 5 5 0x0004 = some (0x000A, 0) := by decide

theorem test_sub_borrows : output 0x2328 3 5 0 = some (0xFFFE, 0x0004) := by decide

theorem test_sub_with_carry : output 0x2328 0 0xFFFF 0x000C = some (0, 0x000C) := by decide

theorem test_mul_carries : output 0x2528 0x0100 0x0100 0 = some (0, 0x0004) := by decide

theorem test_mul_without_carry : output 0x2528 0x00FF 0x0101 0x0004 = some (0xFFFF, 0) := by decide

theorem test_div_truncates : output 0x2728 0xFFF9 0x0002 0 = some (0xFFFD, 0) := by decide

/-- 4.3: a division by zero triggers ARITH. -/
theorem test_div_by_zero : after (code 0x0010 0x2728 7 0) (fun t => (t.ir, t.fr)) =
    some (0x0010, 0x0010) := by decide

theorem test_mod_of_negative : output 0x2928 0xFFF9 0x0002 0 = some (0xFFFF, 0) := by decide

theorem test_mod_overflow : output 0x2928 0x8000 0xFFFF 0 = some (0, 0) := by decide

/-! ### Logic: 4.4 -/

theorem test_and : output 0x2B28 0xF0F0 0xFF00 0 = some (0xF000, 0) := by decide

theorem test_or : output 0x2D28 0xF0F0 0x0F00 0 = some (0xFFF0, 0) := by decide

theorem test_xor : output 0x2F28 0xFFFF 0xAAAA 0 = some (0x5555, 0) := by decide

theorem test_not : output 0x3128 0x00FF 0 0 = some (0xFF00, 0) := by decide

theorem test_signext : output 0x3328 0x1280 0 0 = some (0xFF80, 0) := by decide

theorem test_signext_positive : output 0x3328 0xFF7F 0 0 = some (0x007F, 0) := by decide

theorem test_rol : output 0x3528 0x8001 0 0 = some (0x0003, 0) := by decide

theorem test_ror : output 0x3728 0x8001 0 0 = some (0xC000, 0) := by decide

theorem test_bswap : output 0x3928 0x1234 0 0 = some (0x3412, 0) := by decide

theorem test_asr : output 0x3B28 0x8000 0 0 = some (0xC000, 0) := by decide

/-- 4.4: the bit shifted out is lost, C stays, and `input1` does not count. -/
theorem test_lsl : output 0x3D28 0x0001 0x0004 0x0004 = some (0x0002, 0x0004) := by decide

theorem test_lsr : output 0x3F28 0x8001 0 0 = some (0x4000, 0) := by decide

/-! ### Control: 4.5 -/

/-- 4.5, at 1000 and not 0304: a call pushes the address of the next instruction. -/
theorem test_setip_call : after (code 0 0x4108 0x0320 0) (fun t => (t.ip, t.sp, wordAt t t.sp)) =
    some (0x0320, 0x7FFA, 0x1004) := by decide

theorem test_setip_flags : after (code 0x0001 0x4028 0x0200 0x0008) (fun t => (t.ip, t.fr)) =
    some (0x0200, 0x0009) := by decide

/-- 4.5, at 1000 and not 0400: a jump to itself. -/
theorem test_addip_back : after (code 0 0x4208 0xFFFC 0) State.ip = some 0x1000 := by decide

theorem test_addip_odd : faultOf (code 0 0x4208 0x0001 0) = some .reservedBit := by decide

theorem test_intr : after (code 0x0020 0x4408 0x0020 0) (fun t => (t.ir, t.ip)) =
    some (0x0020, 0x1004) := by decide

theorem test_intr_reserved : faultOf (code 0 0x4408 0x0008 0) = some .reservedBit := by decide

/-! ### Interrupts and reset: 5 and 6 -/

/-- 5.1: NMI and IRQ at once. -/
theorem test_two_interrupts :
    (match interruptPhase { state 0x0080 [(0x0002, 0x0600), (0x000E, 0x0700)] with
        ir := 0x0082, ip := 0x0500, sp := 0x8000 } with
     | .ok _ t => some (t.ip, t.sp, t.fr, t.ir, wordAt t 0x7FF8, wordAt t 0x7FFA, wordAt t 0x7FFC,
         wordAt t 0x7FFE)
     | .fault _ | .bus _ => none) =
    some (0x0600, 0x7FF8, 0x0000, 0x0000, 0x0700, 0x0002, 0x0500, 0x0080) := by decide

/-- 5.4: a pin wakes a halted core, and the same step runs the handler's first instruction. -/
theorem test_wake :
    after { state 0x0080 [(0x000E, 0x0700), (0x0700, 0x0000)] with
        halted := true, ip := 0x010E, sp := 0x8000, pins := [⟨false, false, true, false⟩] }
      (fun t => (t.ip, t.halted, t.fr, wordAt t 0x7FFC, wordAt t 0x7FFE)) =
    some (0x0702, false, 0x0000, 0x010E, 0x0080) := by decide

/-- 5.5: a refused write is rolled back and triggers BUS. -/
theorem test_bus_error :
    (let s := state 0 [(0x1000, 0x0A38), (0x1002, 0x9000), (0x7FFC, 0x0055)]
     after { s with params := { s.params with busErrors := [⟨0x9000, .word, .write, .data⟩] } }
       fun t => (t.ip, t.sp, t.ir)) = some (0x1000, 0x7FFC, 0x0004) := by decide

/-- P5, step 1: from reset, with the reset entry 0100 and `SPSET [i0:imm] 8000` there. -/
theorem test_first_step :
    after { State.reset with
        pins := [Pins.quiet]
        mem := storeWord (storeWord (storeWord [] 0 0x0100) 0x0100 0x1E08) 0x0102 0x8000 }
      (fun t => (t.ip, t.sp, t.fr, t.ir)) = some (0x0104, 0x8000, 0x0000, 0x0000) := by decide

/-- The host's placing: `ADD` runs as the first instruction after reset. -/
theorem test_withFetchWord : after (State.reset.withFetchWord 16 0x2000) (fun t => (t.ip, t.ir)) =
    some (0x0012, 0) := by decide

/-! ### Witnesses: states that meet the hypotheses of the statements, clause by clause -/

/-- An executed instruction with both inputs immediate and `r` = push, on a small state. -/
theorem witness_runs (w a b fr : Word) : Runs both (code fr w a b) :=
  ⟨⟨⟨rfl, rfl⟩, show isEven (0x1000 : Word) by decide, show isEven (0x7FFC : Word) by decide⟩, rfl⟩

theorem witness_ReservedWordsAreUndefined :
    (∀ w : Word, let s := code 0 w 0 0
      Undisturbed s ∧ s.halted = false ∧ DefaultPlatform s ∧ isEven s.ip) ∧
    (wordAt (code 0 0x8000 0 0) 0x1000).getLsbD 15 = true ∧
    ((wordAt (code 0 0x0200 0 0) 0x1000).extractLsb' 9 6).toNat = 1 ∧
    ((wordAt (code 0 0x4600 0 0) 0x1000).extractLsb' 9 6).toNat = 35 ∧
    ((wordAt (code 0 0x7E00 0 0) 0x1000).extractLsb' 9 6).toNat = 63 :=
  ⟨fun _ => ⟨⟨rfl, rfl⟩, rfl, ⟨rfl, rfl⟩, show isEven (0x1000 : Word) by decide⟩, by decide, by decide,
    by decide, by decide⟩

theorem witness_StepRunsDecodedInstruction :
    let s := code 0 0x2128 1 2
    (∃ s1 s2 w i, interruptPhase s = .ok () s1 ∧ s1.halted = false ∧ fetch16 s1.ip s1 = .ok w s2 ∧
      decodeWord w = .ok i) ∧
    Undisturbed s ∧ s.halted = false ∧ DefaultPlatform s ∧ isEven s.ip ∧
      decode [byteAt s s.ip, byteAt s (s.ip + 1), 0] = .ok (.add both, [0]) :=
  ⟨⟨_, _, _, _, rfl, rfl, rfl, rfl⟩, by decide, by decide, by decide, by decide, rfl⟩

theorem witness_SkippedInstructionOnlyAdvances :
    condHolds (Instr.add ⟨.zero, .imm, .imm, .no, .push⟩).conf.ex (code 0 0 0 0).fr = false := by decide

theorem witness_CopyOutputsInput0 : Runs both (code 0 0x0128 0x1234 0) := witness_runs _ _ _ _

/-- With and without `f`, for a zero and a negative output. -/
theorem witness_FlagModificationFollowsTheOutput :
    (let c : Conf := ⟨.always, .imm, .zero, .yes, .discard⟩
     Runs c (code 0x00FE 0x0088 0 0) ∧ Runs c (code 0x00FD 0x0088 0x8000 0) ∧ c.f = .yes) ∧
    Runs both (code 0x00FE 0x0128 0 0) ∧ both.f = .no := by decide

/-- The last aligned address, and an odd one. -/
theorem witness_Load16OutputsTheWord :
    (Runs both (code 0 0x0F28 0xFFFE 0) ∧ isEven (input0Of both (code 0 0x0F28 0xFFFE 0))) ∧
    (Runs both (code 0 0x0F28 0xFFFF 0) ∧ ¬ isEven (input0Of both (code 0 0x0F28 0xFFFF 0))) := by
  decide

/-- An even address, and an odd one by an odd `BP`, which no run reaches. -/
theorem witness_GetAndLoad8OutputMemory :
    (let s := code 0 0x0528 0xFFFF 0
     Runs both s ∧ isEven (s.bp + 2 * input0Of both s)) ∧
    (let s : State := { code 0 0x0528 0xFFFF 0 with bp := 0x4001 }
     Runs both s ∧ ¬ isEven (s.bp + 2 * input0Of both s)) := by decide

/-- Each clause: an even and an odd frame address, an even and an odd address to store at. -/
theorem witness_StoresWriteMemoryAndOutput :
    (let s := code 0 0x0728 1 0xFFFE
     Runs both s ∧ isEven (s.bp + 2 * input0Of both s) ∧ isEven (input1Of both s)) ∧
    (let s : State := { code 0 0x0728 1 0xFFFF with bp := 0x4001 }
     Runs both s ∧ ¬ isEven (s.bp + 2 * input0Of both s) ∧ ¬ isEven (input1Of both s)) := by decide

theorem witness_CpuidOutputsZeroOrFree :
    (let s := code 0 0x1128 0 0
     Runs both s ∧ (input0Of both s = 0 ∧ input1Of both s = 0)) ∧
    (let s := code 0 0x1128 0 1
     Runs both s ∧ ¬ (input0Of both s = 0 ∧ input1Of both s = 0)) := by decide

theorem witness_HaltStopsTheCore : Runs both (code 0 0x1328 0 0) := witness_runs _ _ _ _

theorem witness_RegisterReadsOutputTheRegister : Runs both (code 0x0085 0x1528 0 0x00F0) :=
  witness_runs _ _ _ _

/-- A legal value and one with the lowest reserved bit, on both variants. -/
theorem witness_FrsetReplacesUnmaskedBits :
    (let s := code 0 0x1728 0x00FF 0
     Runs both s ∧ ((input0Of both s &&& ~~~ input1Of both s) ||| (s.fr &&& input1Of both s)) &&& 0xFF00 = 0) ∧
    (let s := code 0 0x1728 0x0100 0
     Runs both s ∧ ((input0Of both s &&& ~~~ input1Of both s) ||| (s.fr &&& input1Of both s)) &&& 0xFF00 ≠ 0) ∧
    (let s : State := { code 0 0x1728 0x000F 0 with params := Params.default .markIIL }
     Runs both s ∧ ((input0Of both s &&& ~~~ input1Of both s) ||| (s.fr &&& input1Of both s)) &&& 0xFFF0 = 0) ∧
    (let s : State := { code 0 0x1728 0x0010 0 with params := Params.default .markIIL }
     Runs both s ∧ ((input0Of both s &&& ~~~ input1Of both s) ||| (s.fr &&& input1Of both s)) &&& 0xFFF0 ≠ 0) := by
  decide

theorem witness_PointerWritesOutputTheOldValue :
    (Runs both (code 0 0x1F28 0xFFFE 0) ∧ isEven (input0Of both (code 0 0x1F28 0xFFFE 0))) ∧
    (Runs both (code 0 0x1F28 0x0001 0) ∧ ¬ isEven (input0Of both (code 0 0x1F28 0x0001 0))) := by
  decide

theorem witness_AddResultAndCarry : Runs both (code 0x000C 0x2128 0xFFFF 0) := witness_runs _ _ _ _

theorem witness_SubResultAndBorrow : Runs both (code 0x000C 0x2328 0 0) := witness_runs _ _ _ _

/-- By default, with both inputs just below 0x8000, and with a zero input. -/
theorem witness_MulResultAndCarry :
    (let s := code 0 0x2528 0x7FFF 0x7FFF
     Runs both s ∧ s.params.mulCarry = .unsignedProduct ∧
       (input0Of both s).toNat < 0x8000 ∧ (input1Of both s).toNat < 0x8000) ∧
    (let s := code 0 0x2528 0xFFFF 0
     Runs both s ∧ (input0Of both s = 0 ∨ input1Of both s = 0)) := by decide

/-- A non-negative dividend with a positive divisor, and -32768 / -1. -/
theorem witness_DivisionResults :
    (let s := code 0 0x2728 0x7FFF 1
     Runs both s ∧ input1Of both s ≠ 0 ∧ 0 ≤ (input0Of both s).toInt ∧ 0 < (input1Of both s).toInt ∧
       ¬ (input0Of both s = 0x8000 ∧ input1Of both s = 0xFFFF) ∧ s.params.divMod = .truncate) ∧
    (let s := code 0 0x2728 0x8000 0xFFFF
     Runs both s ∧ input1Of both s ≠ 0 ∧ (input0Of both s = 0x8000 ∧ input1Of both s = 0xFFFF) ∧
       s.params.divMod = .truncate) := by decide

theorem witness_DivisionByZeroTriggersArith :
    (let s := code 0 0x2728 7 0
     Runs both s ∧ input1Of both s = 0) ∧
    (let s : State := { code 0 0x2728 7 0 with params := Params.default .markIIL }
     Runs both s ∧ input1Of both s = 0) := by decide

theorem witness_LogicAndShiftOutputs : Runs both (code 0 0x2B28 0xF0F0 0xFF00) := witness_runs _ _ _ _

/-- A legal transfer, an odd target, and a reserved bit of `FR`. -/
theorem witness_TransfersSetIpAndFlags :
    (let s := code 0 0x4128 0xFFFC 0x00FF
     Runs both s ∧ isEven (input0Of both s) ∧ isEven (nextIp both s + input0Of both s) ∧
       (s.fr ||| input1Of both s) &&& reservedFr s.params = 0) ∧
    (let s := code 0 0x4128 0x0001 0
     Runs both s ∧ ¬ isEven (input0Of both s) ∧ ¬ isEven (nextIp both s + input0Of both s)) ∧
    (let s := code 0 0x4128 0 0x0100
     Runs both s ∧ ¬ ((s.fr ||| input1Of both s) &&& reservedFr s.params = 0)) := by decide

theorem witness_IntrTriggersInterrupts :
    (let s := code 0 0x4528 0x00F7 0
     Runs both s ∧ s.params.variant = .markII ∧ input0Of both s &&& 0xFF08 = 0) ∧
    (let s := code 0 0x4528 0x0008 0
     Runs both s ∧ s.params.variant = .markII ∧ input0Of both s &&& 0xFF08 ≠ 0) ∧
    (let s : State := { code 0 0x4528 0x0020 0 with params := Params.default .markIIL }
     Runs both s ∧ s.params.variant = .markIIL) := by decide

/-- The state of the frame statements' witnesses: inputs 3000 and 0002. -/
def Tests.framed : State := code 0 0x0000 0x3000 0x0002

/-- The inputs' fetches of an instruction there. -/
theorem witness_inputs : InputsAre both framed 0x3000 2 (afterInputs both framed) :=
  inputsAre_default (s := framed) ⟨⟨rfl, rfl⟩, by decide, by decide⟩ both

/-- Every instruction of the frame statements but `FRSET` and `INTR` executes to a next state there. -/
theorem witness_frames :
    framed.params.busErrors = [] ∧ condHolds both.ex framed.fr = true ∧
    ∀ i ∈ ([.copy both, .get both, .load8 both, .load16 both, .cpuid both, .frget both, .bpget both,
        .spget both, .and both, .or both, .xor both, .not both, .signext both, .rol both, .ror both,
        .bswap both, .asr both, .lsl both, .lsr both, .add both, .sub both, .mul both, .div both,
        .mod both, .set both, .store8 both, .store16 both, .bpset both, .halt both, .spset both,
        .setip both, .addip both] : List Instr), isNext (exec i framed) = true := by decide

theorem witness_FrameOfComputingCommands :
    framed.params.busErrors = [] ∧ condHolds both.ex framed.fr = true ∧
      ∃ t, exec (.load16 both) framed = .next t := ⟨rfl, rfl, next_of (by decide)⟩

theorem witness_FrameOfCarryCommands :
    framed.params.busErrors = [] ∧ condHolds both.ex framed.fr = true ∧
      ∃ t, exec (.add both) framed = .next t := ⟨rfl, rfl, next_of (by decide)⟩

/-- The divisor is not zero. -/
theorem witness_FrameOfDivision :
    framed.params.busErrors = [] ∧ condHolds both.ex framed.fr = true ∧
      (∃ t, exec (.div both) framed = .next t) ∧
      ∃ v0 v1 s2, InputsAre both framed v0 v1 s2 ∧ v1 ≠ 0 :=
  ⟨rfl, rfl, next_of (by decide), _, _, _, witness_inputs, by decide⟩

theorem witness_FrameOfStores :
    framed.params.busErrors = [] ∧ condHolds both.ex framed.fr = true ∧
      InputsAre both framed 0x3000 2 (afterInputs both framed) ∧
      (∃ t, exec (.set both) framed = .next t) ∧ (∃ t, exec (.store8 both) framed = .next t) ∧
      ∃ t, exec (.store16 both) framed = .next t :=
  ⟨rfl, rfl, witness_inputs, next_of (by decide), next_of (by decide), next_of (by decide)⟩

/-- `FRSET` of 0030 under the mask 0002, and the others. -/
theorem witness_FrameOfRegisterWriters :
    let s := code 0 0 0x0030 0x0002
    s.params.busErrors = [] ∧ condHolds both.ex s.fr = true ∧
    ∀ i ∈ ([.bpset both, .frset both, .halt both] : List Instr), isNext (exec i s) = true := by decide

theorem witness_FrameOfSpset :
    framed.params.busErrors = [] ∧ condHolds both.ex framed.fr = true ∧
      InputsAre both framed 0x3000 2 (afterInputs both framed) ∧
      ∃ t, exec (.spset both) framed = .next t :=
  ⟨rfl, rfl, witness_inputs, next_of (by decide)⟩

/-- A transfer to 0030 and an `INTR` of 0030. -/
theorem witness_FrameOfControl :
    let s := code 0 0 0x0030 0x0002
    s.params.busErrors = [] ∧ condHolds both.ex s.fr = true ∧
    ∀ i ∈ ([.setip both, .addip both, .intr both] : List Instr), isNext (exec i s) = true := by decide

theorem witness_OnlyTransfersLeaveTheSequence :
    (∀ c, Instr.add both ≠ .setip c ∧ Instr.add both ≠ .addip c) ∧
    (code 0 0x2128 1 2).params.busErrors = [] ∧ isNext (exec (.add both) (code 0 0x2128 1 2)) = true :=
  ⟨fun _ => ⟨nofun, nofun⟩, by decide, by decide⟩

theorem witness_FlagsHaveFewWriters :
    (∀ c, Instr.and both ≠ .frset c ∧ Instr.and both ≠ .setip c ∧ Instr.and both ≠ .addip c) ∧
    (∀ c, Instr.and both ≠ .add c ∧ Instr.and both ≠ .sub c ∧ Instr.and both ≠ .mul c) ∧
    (Instr.and both).conf.f = .no ∧ isNext (exec (.and both) (code 0 0x2B28 1 2)) = true :=
  ⟨fun _ => ⟨nofun, nofun, nofun⟩, fun _ => ⟨nofun, nofun, nofun⟩, rfl, by decide⟩

theorem witness_OnlyBpsetWritesBp :
    after (code 0 0x1B28 0x5000 0) (fun t => decide (t.bp ≠ (code 0 0x1B28 0x5000 0).bp)) =
      some true := by decide

/-- An instruction that changes `halted`, and a phase that leaves a halted core halted. -/
theorem witness_OnlyHaltHalts :
    after (code 0 0x1200 0 0) (fun t => decide (t.halted ≠ (code 0 0x1200 0 0).halted)) = some true ∧
    after { code 0 0x1200 0 0 with halted := true } State.halted = some true := by decide

theorem witness_IrHasFewWriters :
    (∀ c, Instr.div both ≠ .intr c) ∧ isNext (exec (.div both) (code 0 0x2728 7 0)) = true :=
  ⟨nofun, by decide⟩

/-- An SPU Mark II at 0x1000 whose platform refuses one access. -/
def Tests.refusing (acc : Access) (s : State) : State :=
  { s with params := { s.params with busErrors := [acc] } }

theorem witness_BusErrorCancelsTheInstruction :
    (∀ c, Instr.store16 both ≠ .intr c) ∧
    (let s := refusing ⟨0x9000, .word, .write, .data⟩ (code 0 0x0B28 0 0x9000)
     s.ir.getLsbD 2 = false ∧
       (match exec (.store16 both) s with
        | .next t => t.ir.getLsbD 2
        | .fault _ | .refused _ => false) = true) :=
  ⟨nofun, by decide⟩

theorem witness_NoStepChangesTheParameters : isNext (step (code 0 0x2128 1 2)) = true := by decide

theorem witness_WritesReadBackLittleEndian :
    DefaultPlatform (code 0 0 0 0) ∧ isEven (0xFFFE : Word) := by decide

/-- An odd `SP`, for an input and for the push, and an odd `IP`. -/
theorem witness_OddPointersAreUndefined :
    (let s : State := { code 0 0x0118 0 0 with sp := 0x7FFD }
     DefaultPlatform s ∧ isEven s.ip ∧ ¬ isEven s.sp ∧ condHolds Condition.always s.fr = true) ∧
    (let s : State := { code 0 0 0 0 with ip := 0x1001 }
     Undisturbed s ∧ s.halted = false ∧ ¬ isEven s.ip) := by decide

/-- A platform with ROM up to 0x0FFF, nothing up to 0x1FFF and devices up to 0x2FFF. -/
def Tests.mapped : State :=
  { code 0 0 0 0 with
    params := { Params.default .markII with
      memMap := [⟨0, 0x1000, .rom⟩, ⟨0x1000, 0x1000, .nothing⟩, ⟨0x2000, 0x1000, .device⟩] } }

/-- A byte and a word at each end of a region, a word with one byte in each of two, and the last byte of
ROM, which stands before a hole. -/
theorem witness_RomAndNothingAreUndefined :
    mapped.params.busErrors = [] ∧
    kindAt mapped 0x1000 = .nothing ∧ kindAt mapped (0x1FFE + 1) = .nothing ∧ isEven (0x1FFE : Word) ∧
    (kindAt mapped 0x0FFE ≠ .nothing ∧ kindAt mapped (0x0FFE + 1) ≠ .nothing ∧
      kindAt mapped 0x0FFE = .rom ∧ isEven (0x0FFE : Word)) ∧
    (kindAt mapped 0x0FFF = .rom ∧ kindAt mapped (0x0FFF + 1) = .nothing) := by decide

theorem witness_DeviceAccessesCallThePlatform :
    mapped.params.busErrors = [] ∧ isEven (0x2FFE : Word) ∧ kindAt mapped 0x2FFE = .device ∧
      kindAt mapped (0x2FFE + 1) = .device := by decide

/-- Each interrupt number, from `IR`, with its enable bit set and its table entry even. -/
theorem witness_InterruptEntry :
    ∀ n ∈ [1, 2, 4, 5, 6, 7],
      let bit := BitVec.ofNat 16 (2 ^ n)
      let s : State := { state bit [(BitVec.ofNat 16 (2 * n), 0x0700)] with ir := bit }
      s.params.variant = .markII ∧ DefaultPlatform s ∧ isEven s.sp ∧ (nextSample s).bus = false ∧
        pendingBits s = bit ∧ (n < 4 ∨ s.fr.getLsbD n = true) ∧
        isEven (wordAt s (BitVec.ofNat 16 (2 * n))) := by decide

/-- From a pin: the IRQ of 5.4. -/
theorem witness_InterruptEntry_pin :
    let s : State := { state 0x0080 [(0x000E, 0x0700)] with pins := [⟨false, false, true, false⟩] }
    pendingBits s = 0x0080 ∧ s.fr.getLsbD 7 = true := by decide

theorem witness_OddTableEntryIsUndefined :
    ∀ n ∈ interruptOrder,
      let bit := BitVec.ofNat 16 (2 ^ n)
      let s : State := { state bit [(BitVec.ofNat 16 (2 * n), 0x0701)] with ir := bit }
      s.params.variant = .markII ∧ DefaultPlatform s ∧ isEven s.sp ∧ (nextSample s).bus = false ∧
        pendingBits s = bit ∧ willTake s n = true ∧
        ¬ isEven (wordAt { s with mem := storeWord (storeWord s.mem (s.sp - 2) bit) (s.sp - 4) s.ip }
          (BitVec.ofNat 16 (2 * n))) := by decide

theorem witness_MaskedTriggerIsLost :
    ∀ n ∈ [4, 5, 6, 7],
      let bit := BitVec.ofNat 16 (2 ^ n)
      let s : State := { state (~~~ bit &&& 0x00FF) [] with ir := bit }
      s.params.variant = .markII ∧ (nextSample s).bus = false ∧ pendingBits s = bit ∧
        s.fr.getLsbD n = false := by decide

/-- The state of 5.1. -/
theorem witness_LowestInterruptRunsFirst :
    let s : State := { state 0x0080 [(0x0002, 0x0600), (0x000E, 0x0700)] with ir := 0x0082 }
    s.params.variant = .markII ∧ s.params.memMap = [] ∧ (pendingBits s).getLsbD 0 = false ∧
      willTake s 1 = true ∧ (∀ k ∈ interruptOrder, k < 1 → willTake s k = false) ∧
      ∃ t, interruptPhase s = .ok () t :=
  ⟨rfl, rfl, by decide, by decide, by decide, ok_of (by decide)⟩

theorem witness_InterruptPhaseEmptiesIr :
    let s : State := { state 0 [] with ir := 0x00F0 }
    s.params.variant = .markII ∧ isOk (interruptPhase s) = true := by decide

theorem witness_ReturnFromInterrupt :
    ∀ n ∈ [1, 2, 4, 5, 6, 7],
      let s := state (BitVec.ofNat 16 (2 ^ n) &&& 0x00F0) [(BitVec.ofNat 16 (2 * n), 0x0700)]
      s.params.variant = .markII ∧ DefaultPlatform s ∧ isEven s.ip ∧
        s.fr &&& reservedFr s.params = 0 ∧ (n < 4 ∨ s.fr.getLsbD n = true) ∧
        isOk (takeInterrupt n s) = true := by decide

/-- A reset pending from `IR`, from the pin, and with an odd entry. -/
theorem witness_ResetSequenceMarkII :
    (let s : State := { state 0x00FF [(0, 0x0100)] with ir := 0x0083 }
     s.params.variant = .markII ∧ DefaultPlatform s ∧ (nextSample s).bus = false ∧
       (pendingBits s).getLsbD 0 = true ∧ isEven (wordAt s 0x0000)) ∧
    (let s : State := { state 0 [(0, 0x0101)] with pins := [⟨true, false, false, false⟩] }
     (pendingBits s).getLsbD 0 = true ∧ ¬ isEven (wordAt s 0x0000)) := by decide

theorem witness_InterruptPhaseMarkIIL :
    (let s : State := { State.powerOn .markIIL with pins := [⟨true, false, false, true⟩] }
     s.params.variant = .markIIL ∧ (nextSample s).rst = true) ∧
    (let s : State := { State.powerOn .markIIL with pins := [⟨false, true, true, true⟩] }
     s.params.variant = .markIIL ∧ (nextSample s).rst = false) := by decide

theorem witness_FirstStepRunsTheResetEntry :
    let s : State := { State.reset with mem := storeWord (storeWord [] 0 0x0100) 0x0100 0x2000 }
    isEven (wordAt s 0) ∧ wordAt s (wordAt s 0) = 0x2000 ∧
      decodeWord 0x2000 = .ok (.add plain) := ⟨by decide, by decide, rfl⟩

/-- A masked trigger while halted, and the SPU Mark II-L. -/
theorem witness_HaltedCoreWaits :
    (let s : State := { state 0 [] with ir := 0x0080, halted := true }
     s.params.variant = .markII ∧ s.halted = true ∧ (nextSample s).bus = false ∧
       pendingBits s &&& 0xFF09 = 0 ∧ ∀ n ∈ interruptOrder, willTake s n = false) ∧
    (let s : State := { State.powerOn .markIIL with halted := true, pins := [Pins.quiet] }
     s.params.variant = .markIIL ∧ s.halted = true ∧ (nextSample s).rst = false) := by decide

/-- Each kind of access refused: an immediate, a stack read, the command's access and the pushed output,
of instructions that complete without bus errors; and the instruction word, on a platform without
devices. -/
theorem witness_RefusedAccessTriggersBus :
    (let pops : Conf := ⟨.always, .pop, .imm, .no, .push⟩
     ∀ p ∈ ([(⟨0x1002, .word, .read, .code⟩, .intr pops), (⟨0x7FFC, .word, .read, .data⟩, .intr pops),
         (⟨0x9000, .byte, .write, .data⟩, .store8 pops), (⟨0x9000, .word, .write, .data⟩, .store16 pops),
         (⟨0x0020, .word, .read, .data⟩, .load16 pops), (⟨0x0020, .byte, .read, .data⟩, .load8 pops),
         (⟨0x4040, .word, .read, .data⟩, .get pops), (⟨0x4040, .word, .write, .data⟩, .set pops),
         (⟨0x7FFC, .word, .write, .data⟩, .intr pops),
         (⟨0x001E, .word, .write, .data⟩, .spset pops)] : List (Access × Instr)),
       let s := refusing p.1 (state 0 [(0x1002, 0x9000), (0x7FFC, 0x0020)])
       s.params.variant = .markII ∧ s.params.memMap = [] ∧
         isNext (exec p.2 (withoutBusErrors s)) = true ∧
         ((accessesOf p.2 s).any fun acc => decide (acc ∈ s.params.busErrors)) = true) ∧
    (let s := refusing ⟨0x1000, .word, .read, .code⟩ (code 0 0 0 0)
     s.params.variant = .markII ∧ Undisturbed s ∧ s.halted = false ∧ isEven s.ip ∧
       (⟨s.ip, .word, .read, .code⟩ : Access) ∈ s.params.busErrors ∧
       ∀ r ∈ s.params.memMap, r.kind ≠ .device) := by decide

/-- An instruction that completes and one that faults, beside a refused access that is not theirs. -/
theorem witness_OnlyRefusedAccessesMatter :
    (let s := refusing ⟨0x9000, .word, .write, .data⟩ (code 0 0x0B28 0 0x3000)
     s.params.memMap = [] ∧ (∀ acc ∈ accessesOf (.store16 both) s, acc ∉ s.params.busErrors) ∧
       isNext (exec (.store16 both) (withoutBusErrors s)) = true) ∧
    (let s := refusing ⟨0x9000, .word, .write, .data⟩ (code 0 0x0B28 0 0x3001)
     s.params.memMap = [] ∧ (∀ acc ∈ accessesOf (.store16 both) s, acc ∉ s.params.busErrors) ∧
       (match exec (.store16 both) (withoutBusErrors s) with
        | .fault _ => true
        | .next _ | .refused _ => false) = true) := by decide

/-- The BUS pin, the reset entry, both pushes and the table read of an NMI, and the SPU Mark II-L. -/
theorem witness_BusErrorOutsideInstructionIsUndefined :
    (let s : State := { code 0 0 0 0 with pins := [⟨false, false, false, true⟩] }
     s.params.variant = .markII ∧ (nextSample s).bus = true) ∧
    (let s := refusing ⟨0x0000, .word, .read, .code⟩ { State.reset with pins := [Pins.quiet] }
     (nextSample s).bus = false ∧ (pendingBits s).getLsbD 0 = true ∧
       (⟨0x0000, .word, .read, .code⟩ : Access) ∈ s.params.busErrors) ∧
    (let s := refusing ⟨0x7FFA, .word, .write, .data⟩ { code 0 0 0 0 with ir := 0x0002 }
     (nextSample s).bus = false ∧ isEven s.sp ∧ pendingBits s = 0x0002 ∧ willTake s 1 = true ∧
       (⟨s.sp - 2, .word, .write, .data⟩ : Access) ∈ s.params.busErrors) ∧
    (let s := refusing ⟨0x7FF8, .word, .write, .data⟩ { code 0 0 0 0 with ir := 0x0002 }
     willTake s 1 = true ∧ s.params.memMap = [] ∧
       (⟨s.sp - 4, .word, .write, .data⟩ : Access) ∈ s.params.busErrors) ∧
    (let s := refusing ⟨0x0002, .word, .read, .code⟩ { code 0 0 0 0 with ir := 0x0002 }
     willTake s 1 = true ∧ s.params.memMap = [] ∧
       (⟨BitVec.ofNat 16 (2 * 1), .word, .read, .code⟩ : Access) ∈ s.params.busErrors) ∧
    (let s := refusing ⟨0x0000, .word, .read, .code⟩
       { State.powerOn .markIIL with pins := [Pins.quiet] }
     (nextSample s).rst = false ∧ s.halted = false ∧ isEven s.ip ∧
       (⟨s.ip, .word, .read, .code⟩ : Access) ∈ s.params.busErrors) := by decide

theorem witness_BusErrorOutsideInstruction_markIIL :
    let s : State := { code 0 0x0B28 0 0x9000 with
      params := { Params.default .markIIL with busErrors := [⟨0x9000, .word, .write, .data⟩] } }
    s.params.variant = .markIIL ∧ s.params.memMap = [] ∧
      isNext (exec (.store16 both) (withoutBusErrors s)) = true ∧
      ((accessesOf (.store16 both) s).any fun acc => decide (acc ∈ s.params.busErrors)) = true := by
  decide

theorem witness_EveryStepKeepsTheInvariant :
    Inv (code 0x0020 0x4528 0x0020 0) ∧ isNext (step (code 0x0020 0x4528 0x0020 0)) = true := by decide

/-- `00_scope.md` R6: at reset no sample is listed, so each pin is what the environment freely gives. -/
theorem test_env_unconstrained :
    nextSample State.reset =
      ⟨Config.pinSignalled 0 .rst, Config.pinSignalled 0 .nmi, Config.pinSignalled 0 .irq, false⟩ := rfl
end

/-! ## The parameters of `00_scope.md` R6 (O40)

Each shared operation leaves the record `params` of the state as it was, so each instruction, the
interrupt phase and the step do. -/

namespace Sys2Proof.Machine

/-! ### The shared operations -/

theorem memRead_params {k : AccessKind} {w : Width} {a v : Word} {s t : State}
    (h : memRead k w a s = .ok v t) : t.params = s.params := by
  rw [memRead_state h]

theorem memWrite_params {w : Width} {a v : Word} {s t : State} {u : Unit}
    (h : memWrite w a v s = .ok u t) : t.params = s.params := by
  rw [(memWrite_state h).1]

theorem fetchInstr_params {i : Instr} {s t : State} (h : fetchInstr s = .ok i t) :
    t.params = s.params := by
  obtain ⟨_, hword, _⟩ := fetchInstr_ok h
  exact memRead_params hword

theorem transfer_params {target bits out : Word} {s t : State} (h : transfer target bits s = .ok out t) :
    t.params = s.params := by
  obtain ⟨_, rfl, _, _⟩ := transfer_ok h
  rfl

/-! ### The interrupt phase -/

theorem takeInterrupt_params {n : Nat} {s t : State} {u : Unit} (h : takeInterrupt n s = .ok u t) :
    t.params = s.params := by
  rw [(takeInterrupt_state h).1]

theorem serveInterrupt_params {n : Nat} {s t : State} {u : Unit} (h : serveInterrupt n s = .ok u t) :
    t.params = s.params := by
  rcases serveInterrupt_cases h with ⟨_, rfl⟩ | ⟨_, _, rfl⟩ | ⟨_, _, htake⟩
  · rfl
  · rfl
  · have hcleared := takeInterrupt_params htake
    exact hcleared

theorem serveInterrupts_params {ns : List Nat} {s t : State} {u : Unit}
    (h : serveInterrupts ns s = .ok u t) : t.params = s.params := by
  induction ns generalizing s with
  | nil => cases h; rfl
  | cons n rest ih =>
    obtain ⟨_, s', hfirst, hrest⟩ := Res.bind_eq_ok.1 h
    exact (ih hrest).trans (serveInterrupt_params hfirst)

theorem resetSequence_params {s t : State} {u : Unit} (h : resetSequence s = .ok u t) :
    t.params = s.params := by
  obtain ⟨_, s', hentry, _, rfl⟩ := resetSequence_ok h
  have hread : s'.params = s.params := memRead_params hentry
  exact hread

theorem interruptPhaseII_params {s t : State} {u : Unit} (h : interruptPhaseII s = .ok u t) :
    t.params = s.params := by
  obtain ⟨_, ⟨_, hreset⟩ | ⟨_, _, hserve⟩⟩ := interruptPhaseII_ok h
  · have hsampled := resetSequence_params hreset
    exact hsampled
  · have hsampled := serveInterrupts_params hserve
    exact hsampled

theorem interruptPhaseL_params {s t : State} {u : Unit} (h : interruptPhaseL s = .ok u t) :
    t.params = s.params := by
  cases h
  split <;> rfl

theorem interruptPhase_params {s t : State} {u : Unit} (h : interruptPhase s = .ok u t) :
    t.params = s.params := by
  unfold interruptPhase at h
  split at h
  · exact interruptPhaseII_params h
  · exact interruptPhaseL_params h

/-! ### The instructions -/

theorem inputsAre_params {c : Conf} {s t : State} {v0 v1 : Word} (h : InputsAre c s v0 v1 t) :
    t.params = s.params := by
  rw [inputsAre_state h]

theorem putOutput_params {r : OutputMode} {v : Word} {s t : State} {u : Unit}
    (h : putOutput r v s = .ok u t) : t.params = s.params := by
  rcases putOutput_ok h with ⟨_, rfl⟩ | ⟨_, hpush⟩
  · rfl
  · rw [(push_ok hpush).1]

/-- What `DIV` and `MOD` answer, a zero divisor's ARITH trigger included, keeps the parameters. -/
theorem eq_or_divideByZero_params {v1 : Word} {s t : State}
    (h : t = s ∨ (v1 = 0 ∧ t = { trigger 4 s with draws := s.draws + 1 })) : t.params = s.params := by
  rcases h with rfl | ⟨_, rfl⟩
  · rfl
  · exact trigger_params 4 s

theorem commandMeaning_params {i : Instr} {v0 v1 out : Word} {s t : State}
    (h : commandMeaning i v0 v1 s = .ok out t) : t.params = s.params := by
  cases i with
  | get _ | load8 _ | load16 _ => exact memRead_params h
  | set _ => exact memWrite_params (setCommand_ok h).2
  | store8 _ => exact memWrite_params (store8Command_ok h).2
  | store16 _ => exact memWrite_params (store16Command_ok h).2
  | cpuid _ => rw [cpuidCommand_ok h]
  | halt _ => obtain rfl := haltCommand_ok (v0 := v0) (v1 := v1) h; rfl
  | frset _ => obtain ⟨_, rfl, _⟩ := frsetCommand_ok h; rfl
  | bpset _ => obtain ⟨_, rfl, _⟩ := bpsetCommand_ok (v1 := v1) h; rfl
  | spset _ => obtain ⟨_, rfl, _⟩ := spsetCommand_ok (v1 := v1) h; rfl
  | div _ => exact eq_or_divideByZero_params (divCommand_ok h)
  | mod _ => exact eq_or_divideByZero_params (modCommand_ok h)
  | setip _ | addip _ => exact transfer_params h
  | intr _ => obtain ⟨_, rfl, _, _⟩ := intrCommand_ok (v1 := v1) h; rfl
  | add _ | sub _ | mul _ => cases h; exact setCarry_params _ s
  | frget _ | bpget _ | spget _ => cases h; rfl
  | copy _ | and _ | or _ | xor _ | not _ | signext _ | rol _ | ror _ | bswap _ | asr _ | lsl _ | lsr _ =>
    cases h; rfl

theorem execute_params {i : Instr} {s t : State} {u : Unit}
    (h : execute i.conf (commandMeaning i) s = .ok u t) : t.params = s.params := by
  rcases execute_ok h with ⟨_, rfl⟩ | ⟨_, v0, v1, out, s2, s3, s4, hin, hcmd, hout, rfl⟩
  · simp
  · calc (modifyFlags i.conf.f out s4).params
      _ = s4.params := modifyFlags_params _ _ _
      _ = s3.params := putOutput_params hout
      _ = s2.params := commandMeaning_params hcmd
      _ = s.params := inputsAre_params hin

theorem exec_params {i : Instr} {s t : State} (h : exec i s = .next t) : t.params = s.params := by
  rcases exec_next h with hdone | ⟨at', _, _, rfl⟩
  · exact execute_params hdone
  · exact busAbort_params s at'

/-! ### The step -/

/-- Settles O40: the interrupt phase keeps the parameters, and so does each of the three ways in which a
step goes on from it. -/
theorem noStepChangesTheParameters : Obligations.NoStepChangesTheParameters := by
  intro s t h
  obtain ⟨s1, hphase, hrest⟩ := step_next h
  have hs1 : s1.params = s.params := interruptPhase_params hphase
  rcases hrest with ⟨_, rfl⟩ | ⟨_, i, s2, hfetch, hexec⟩ | ⟨_, _, _, rfl⟩
  · exact hs1
  · calc t.params
      _ = s2.params := exec_params hexec
      _ = s1.params := fetchInstr_params hfetch
      _ = s.params := hs1
  · exact (busAbort_params s1 s1).trans hs1

end Sys2Proof.Machine

/-! ## The registers: who writes which, and what every step keeps (O58, O35 to O38, O59, O46, O53)

What a command can do to the state is said once, in `CommandEffect`. Each statement about the writers of a
register, and the invariant, is a case split over it. -/

namespace Sys2Proof.Machine

/-! ### What a command can do -/

/-- The effects of the commands of `41_data_movement.md` to `45_control.md`, on the state after the inputs. A
written register holds a legal value. -/
inductive CommandEffect : Instr → State → State → Prop where
  | keepsRegisters {i : Instr} {s t : State}
      (same : t = { s with mem := t.mem, draws := t.draws, device := t.device })
      (wf : Memory.wf s.mem = true → Memory.wf t.mem = true) : CommandEffect i s t
  | carry {i : Instr} {s : State} (writer : ∃ c, i = .add c ∨ i = .sub c ∨ i = .mul c) (b : Bool) :
      CommandEffect i s (setCarry b s)
  | arith {i : Instr} {s : State} (writer : ∃ c, i = .div c ∨ i = .mod c) (n : Nat) :
      CommandEffect i s { trigger 4 s with draws := n }
  | transfer {i : Instr} {s : State} {target flags : Word} (writer : ∃ c, i = .setip c ∨ i = .addip c)
      (even : isEven target) (legal : flags &&& reservedFr s.params = 0) :
      CommandEffect i s { s with ip := target, fr := flags }
  | halt {s : State} (c : Conf) (n : Nat) : CommandEffect (.halt c) s { s with halted := true, draws := n }
  | frset {s : State} {flags : Word} (c : Conf) (legal : flags &&& reservedFr s.params = 0) :
      CommandEffect (.frset c) s { s with fr := flags }
  | bpset {s : State} {v : Word} (c : Conf) (even : isEven v) : CommandEffect (.bpset c) s { s with bp := v }
  | spset {s : State} {v : Word} (c : Conf) (even : isEven v) : CommandEffect (.spset c) s { s with sp := v }
  | intr {s : State} {bits : Word} (c : Conf) (legal : bits &&& reservedIr = 0) :
      CommandEffect (.intr c) s { s with ir := s.ir ||| bits }

theorem CommandEffect.unchanged {i : Instr} {s : State} : CommandEffect i s s := .keepsRegisters rfl id

theorem CommandEffect.of_memRead {i : Instr} {k : AccessKind} {w : Width} {a v : Word} {s t : State}
    (h : memRead k w a s = .ok v t) : CommandEffect i s t :=
  .keepsRegisters (by rw [memRead_state h]) (by rw [memRead_state h]; exact id)

theorem CommandEffect.of_memWrite {i : Instr} {w : Width} {a v : Word} {s t : State} {u : Unit}
    (h : memWrite w a v s = .ok u t) : CommandEffect i s t := by
  obtain ⟨hstate, hwf, _⟩ := memWrite_state h
  exact .keepsRegisters (by rw [hstate]) hwf

theorem CommandEffect.of_transfer {i : Instr} {target bits out : Word} {s t : State}
    (writer : ∃ c, i = .setip c ∨ i = .addip c) (h : Machine.transfer target bits s = .ok out t) :
    CommandEffect i s t := by
  obtain ⟨_, rfl, heven, hlegal⟩ := transfer_ok h
  exact .transfer writer heven hlegal

/-- `DIV` and `MOD`: nothing, or ARITH for a zero divisor. -/
theorem CommandEffect.of_division {i : Instr} {v1 : Word} {s t : State}
    (writer : ∃ c, i = .div c ∨ i = .mod c)
    (h : t = s ∨ (v1 = 0 ∧ t = { trigger 4 s with draws := s.draws + 1 })) : CommandEffect i s t := by
  rcases h with rfl | ⟨_, rfl⟩
  · exact .unchanged
  · exact .arith writer _

/-- EVERY COMMAND HAS ONE OF THESE EFFECTS. -/
theorem commandMeaning_effect {i : Instr} {v0 v1 out : Word} {s t : State}
    (h : commandMeaning i v0 v1 s = .ok out t) : CommandEffect i s t := by
  cases i with
  | get _ | load8 _ | load16 _ => exact .of_memRead h
  | set _ => exact .of_memWrite (setCommand_ok h).2
  | store8 _ => exact .of_memWrite (store8Command_ok h).2
  | store16 _ => exact .of_memWrite (store16Command_ok h).2
  | cpuid _ =>
    have hdraws := cpuidCommand_ok h
    exact .keepsRegisters (by rw [hdraws]) (by rw [hdraws]; exact id)
  | halt c => obtain rfl := haltCommand_ok (v0 := v0) (v1 := v1) h; exact .halt c _
  | frset c => obtain ⟨_, rfl, hlegal⟩ := frsetCommand_ok h; exact .frset c hlegal
  | bpset c => obtain ⟨_, rfl, heven⟩ := bpsetCommand_ok (v1 := v1) h; exact .bpset c heven
  | spset c => obtain ⟨_, rfl, heven⟩ := spsetCommand_ok (v1 := v1) h; exact .spset c heven
  | div c => exact .of_division ⟨c, .inl rfl⟩ (divCommand_ok h)
  | mod c => exact .of_division ⟨c, .inr rfl⟩ (modCommand_ok h)
  | setip c => exact .of_transfer ⟨c, .inl rfl⟩ h
  | addip c => exact .of_transfer ⟨c, .inr rfl⟩ h
  | intr c => obtain ⟨_, rfl, hlegal, _⟩ := intrCommand_ok (v1 := v1) h; exact .intr c hlegal
  | add c => cases h; exact .carry ⟨c, .inl rfl⟩ _
  | sub c => cases h; exact .carry ⟨c, .inr (.inl rfl)⟩ _
  | mul c => cases h; exact .carry ⟨c, .inr (.inr rfl)⟩ _
  | frget _ | bpget _ | spget _ => cases h; exact .unchanged
  | copy _ | and _ | or _ | xor _ | not _ | signext _ | rol _ | ror _ | bswap _ | asr _ | lsl _ | lsr _ =>
    cases h; exact .unchanged

/-! ### What an instruction can do around its command -/

/-- `BP`, `FR`, `IR` and `halted` are as before: the registers that neither an input's fetch nor the push of
the output touches (`40_execution_cycle.md` R116, R123). -/
structure SameControl (s t : State) : Prop where
  bp : t.bp = s.bp
  fr : t.fr = s.fr
  ir : t.ir = s.ir
  halted : t.halted = s.halted

theorem sameControl_of_inputsAre {c : Conf} {s t : State} {v0 v1 : Word} (h : InputsAre c s v0 v1 t) :
    SameControl s t := by
  rw [inputsAre_state h]; exact ⟨rfl, rfl, rfl, rfl⟩

theorem sameControl_of_putOutput {r : OutputMode} {v : Word} {s t : State} {u : Unit}
    (h : putOutput r v s = .ok u t) : SameControl s t := by
  rcases putOutput_ok h with ⟨_, rfl⟩ | ⟨_, hpush⟩
  · exact ⟨rfl, rfl, rfl, rfl⟩
  · rw [(push_ok hpush).1]; exact ⟨rfl, rfl, rfl, rfl⟩

/-- An instruction that is skipped steps over its immediates alone (`40_execution_cycle.md` R122). -/
theorem skipped_eq (c : Conf) (s : State) :
    skipInput c.i1 (skipInput c.i0 (advance s)) = { s with ip := nextIp c s } := by
  apply State.ext <;> simp [nextIp]

/-! #### Where a refused access comes from -/

/-- A sequence whose second part meets no bus error was refused in its first. -/
theorem Res.bus_of_bind {α β : Type} {r : Res α} {f : α → State → Res β} {t : State}
    (h : r.bind f = .bus t) (hf : ∀ a s, f a s ≠ .bus t) : r = .bus t := by
  rcases Res.bind_eq_bus.1 h with hfirst | ⟨a, s, _, hrest⟩
  · exact hfirst
  · exact absurd hrest (hf a s)

theorem fetchInput_bus_refused {sel : Input} {s t : State} (h : fetchInput sel s = .bus t) :
    s.params.busErrors ≠ [] := by
  have hread : ∃ k w a, memRead k w a s = .bus t := by
    cases sel with
    | zero => cases h
    | imm => exact ⟨_, _, _, Res.bus_of_bind h nofun⟩
    | peek => exact ⟨_, _, _, h⟩
    | pop => exact ⟨_, _, _, Res.bus_of_bind h nofun⟩
  obtain ⟨_, _, _, hread⟩ := hread
  exact List.ne_nil_of_mem (memRead_bus hread).2

theorem putOutput_bus_refused {r : OutputMode} {v : Word} {s t : State} (h : putOutput r v s = .bus t) :
    s.params.busErrors ≠ [] := by
  cases r with
  | discard => cases h
  | push => exact List.ne_nil_of_mem (memWrite_bus h).2

theorem commandMeaning_bus_refused {i : Instr} {v0 v1 : Word} {s t : State}
    (h : commandMeaning i v0 v1 s = .bus t) : s.params.busErrors ≠ [] := by
  cases i with
  | get _ | load8 _ | load16 _ => exact List.ne_nil_of_mem (memRead_bus h).2
  | set _ | store8 _ | store16 _ => exact List.ne_nil_of_mem (memWrite_bus (Res.bus_of_bind h nofun)).2
  | setip _ | addip _ => exact absurd h (transfer_not_bus _ _ _ _)
  | cpuid _ => simp only [commandMeaning, cpuidCommand, draw] at h; split at h <;> cases h
  | div _ | mod _ =>
    simp only [commandMeaning, divCommand, modCommand, divideByZero, draw] at h; split at h <;> cases h
  | intr _ =>
    simp only [commandMeaning, intrCommand] at h
    split at h
    · split at h <;> cases h
    · cases h
  | frset _ => exact absurd (Res.bus_of_bind h nofun) (writeRegister_not_bus _ _ _).2.2.2
  | bpset _ => exact absurd (Res.bus_of_bind h nofun) (writeRegister_not_bus _ _ _).2.1
  | spset _ => exact absurd (Res.bus_of_bind h nofun) (writeRegister_not_bus _ _ _).1
  | halt _ | add _ | sub _ | mul _ | frget _ | bpget _ | spget _ => cases h
  | copy _ | and _ | or _ | xor _ | not _ | signext _ | rol _ | ror _ | bswap _ | asr _ | lsl _ | lsr _ =>
    cases h

theorem execute_bus_refused {i : Instr} {s t : State} (h : execute i.conf (commandMeaning i) s = .bus t) :
    s.params.busErrors ≠ [] := by
  obtain ⟨_, h0 | ⟨v0, s1, h0, h1⟩ | ⟨v0, v1, s2, hin, hcmd⟩ | ⟨v0, v1, out, s2, s3, hin, hcmd, hout⟩⟩ :=
    execute_bus h
  · exact fetchInput_bus_refused (s := advance s) h0
  · have hrefused := fetchInput_bus_refused h1
    rwa [fetchInput_ok h0] at hrefused
  · have hrefused := commandMeaning_bus_refused hcmd
    rwa [inputsAre_params hin] at hrefused
  · have hrefused := putOutput_bus_refused hout
    rwa [commandMeaning_params hcmd, inputsAre_params hin] at hrefused

/-- `exec` answers a next state in three ways: the instruction was skipped; its command had its effect
between the inputs and the output; or a refused access undid it. -/
theorem exec_cases {i : Instr} {s t : State} (h : exec i s = .next t) :
    t = { s with ip := nextIp i.conf s } ∨
    (∃ out s2 s3 s4, SameControl s s2 ∧ CommandEffect i s2 s3 ∧ SameControl s3 s4 ∧
      t = modifyFlags i.conf.f out s4) ∨
    (s.params.busErrors ≠ [] ∧ ∃ at', t = busAbort s at') := by
  rcases exec_next h with hdone | ⟨at', hbus, _, rfl⟩
  · rcases execute_ok hdone with ⟨_, rfl⟩ | ⟨_, v0, v1, out, s2, s3, s4, hin, hcmd, hout, rfl⟩
    · exact .inl (skipped_eq _ _)
    · exact .inr (.inl ⟨out, s2, s3, s4, sameControl_of_inputsAre hin, commandMeaning_effect hcmd,
        sameControl_of_putOutput hout, rfl⟩)
  · exact .inr (.inr ⟨execute_bus_refused hbus, at', rfl⟩)

/-! ### The writers of each register among the instructions -/

theorem CommandEffect.bp_eq {i : Instr} {s t : State} (h : CommandEffect i s t) :
    t.bp = s.bp ∨ ∃ c, i = .bpset c := by
  cases h with
  | keepsRegisters same _ => rw [same]; exact .inl rfl
  | bpset c _ => exact .inr ⟨c, rfl⟩
  | arith _ _ => exact .inl (trigger_bp 4 s)
  | carry | transfer | halt | frset | spset | intr => exact .inl rfl

theorem CommandEffect.halted_eq {i : Instr} {s t : State} (h : CommandEffect i s t) :
    t.halted = s.halted ∨ (t.halted = true ∧ ∃ c, i = .halt c) := by
  cases h with
  | keepsRegisters same _ => rw [same]; exact .inl rfl
  | halt c _ => exact .inr ⟨rfl, c, rfl⟩
  | arith _ _ => exact .inl (trigger_halted 4 s)
  | carry | transfer | bpset | frset | spset | intr => exact .inl rfl

theorem CommandEffect.ir_eq {i : Instr} {s t : State} (h : CommandEffect i s t) :
    t.ir = s.ir ∨ ((∃ c, i = .div c ∨ i = .mod c) ∧ t.ir = s.ir ||| interruptBit 4) ∨ ∃ c, i = .intr c := by
  cases h with
  | keepsRegisters same _ => rw [same]; exact .inl rfl
  | intr c _ => exact .inr (.inr ⟨c, rfl⟩)
  | arith writer _ =>
    cases hv : s.params.variant with
    | markII => exact .inr (.inl ⟨writer, trigger_ir_markII 4 s hv⟩)
    | markIIL => rw [trigger_markIIL 4 s hv]; exact .inl rfl
  | carry | transfer | bpset | frset | spset | halt => exact .inl rfl

/-- A command other than `FRSET`, `SETIP` and `ADDIP` writes no flag, or C alone. -/
theorem CommandEffect.fr_getLsbD {i : Instr} {s t : State} (h : CommandEffect i s t)
    (hi : ∀ c, i ≠ .frset c ∧ i ≠ .setip c ∧ i ≠ .addip c) (k : Nat)
    (hcarry : k = 2 → ∀ c, i ≠ .add c ∧ i ≠ .sub c ∧ i ≠ .mul c) :
    t.fr.getLsbD k = s.fr.getLsbD k := by
  cases h with
  | keepsRegisters same _ => rw [same]
  | carry writer b =>
    have hk : k ≠ 2 := by
      intro hk
      obtain ⟨c, hc⟩ := writer
      obtain ⟨hadd, hsub, hmul⟩ := hcarry hk c
      exact hc.elim hadd (Or.rec hsub hmul)
    rw [setCarry_fr, withBit_getLsbD _ _ _ _ (by omega), if_neg hk]
  | transfer writer _ _ =>
    obtain ⟨c, hc⟩ := writer
    exact absurd hc (not_or.2 (hi c).2)
  | frset c _ => exact absurd rfl (hi c).1
  | arith _ _ => exact congrArg (fun fr : Word => fr.getLsbD k) (trigger_fr 4 s)
  | halt | bpset | spset | intr => exact rfl

/-- The flag modification writes Z and N alone, and only if `f` is yes (`40_execution_cycle.md` R124). -/
theorem modifyFlags_fr_getLsbD (f : FlagMod) (v : Word) (s : State) (k : Nat) (hk : k < 2 → f = .no) :
    (modifyFlags f v s).fr.getLsbD k = s.fr.getLsbD k := by
  cases f with
  | no => rfl
  | yes =>
    have hk' : ¬ k < 2 := fun hlt => nomatch hk hlt
    rw [modifyFlags_yes_fr, flagsOf_getLsbD, if_neg (by omega), if_neg (by omega)]

theorem exec_fr_getLsbD {i : Instr} {s t : State} (h : exec i s = .next t)
    (hi : ∀ c, i ≠ .frset c ∧ i ≠ .setip c ∧ i ≠ .addip c) (k : Nat) (hzn : k < 2 → i.conf.f = .no)
    (hcarry : k = 2 → ∀ c, i ≠ .add c ∧ i ≠ .sub c ∧ i ≠ .mul c) :
    t.fr.getLsbD k = s.fr.getLsbD k := by
  rcases exec_cases h with rfl | ⟨out, s2, s3, s4, hin, heffect, hout, rfl⟩ | ⟨_, at', rfl⟩
  · rfl
  · rw [modifyFlags_fr_getLsbD _ _ _ k hzn, hout.fr, heffect.fr_getLsbD hi k hcarry, hin.fr]
  · rfl

/-- Settles O35: the three clauses are the flags Z and N, the flag C, and the bits above. -/
theorem flagsHaveFewWriters : Obligations.FlagsHaveFewWriters := by
  intro i s t hi h
  have hbit := exec_fr_getLsbD h hi
  refine ⟨fun hf => ⟨?_, ?_⟩, fun hcarry => ?_, fun k hk => ?_⟩
  · exact hbit 0 (fun _ => hf) (by omega)
  · exact hbit 1 (fun _ => hf) (by omega)
  · exact hbit 2 (by omega) (fun _ => hcarry)
  · exact hbit k (by omega) (by omega)

theorem exec_bp_eq {i : Instr} {s t : State} (h : exec i s = .next t) : t.bp = s.bp ∨ ∃ c, i = .bpset c := by
  rcases exec_cases h with rfl | ⟨out, s2, s3, s4, hin, heffect, hout, rfl⟩ | ⟨_, at', rfl⟩
  · exact .inl rfl
  · rw [modifyFlags_bp, hout.bp, ← hin.bp]; exact heffect.bp_eq
  · exact .inl rfl

/-- Settles O38: what the command may write, and the BUS trigger of an undone instruction. -/
theorem irHasFewWriters : Obligations.IrHasFewWriters := by
  intro i s t hi h
  rcases exec_cases h with rfl | ⟨out, s2, s3, s4, hin, heffect, hout, rfl⟩ | ⟨hrefused, at', rfl⟩
  · exact .inl rfl
  · rw [modifyFlags_ir, hout.ir, ← hin.ir]
    rcases heffect.ir_eq with hsame | harith | ⟨c, hintr⟩
    · exact .inl hsame
    · exact .inr (.inr harith)
    · exact absurd hintr (hi c)
  · exact .inr (.inl ⟨hrefused, busAbort_ir s at'⟩)

/-! ### What the interrupt phase keeps -/

/-- What holds before the interrupt loop holds after it, if every pass keeps it. -/
theorem serveInterrupts_keeps {P : State → Prop} {ns : List Nat} {s t : State} {u : Unit}
    (hpass : ∀ (n : Nat) (s t : State), serveInterrupt n s = .ok () t → P s → P t)
    (h : serveInterrupts ns s = .ok u t) (hs : P s) : P t := by
  induction ns generalizing s with
  | nil => cases h; exact hs
  | cons n rest ih =>
    obtain ⟨_, s', hfirst, hrest⟩ := Res.bind_eq_ok.1 h
    exact ih hrest (hpass n s s' hfirst hs)

/-- The interrupt phase leaves `BP`, and it can only wake the core (`70_reset_and_hazards.md` R260,
`60_exceptions.md` R231). -/
structure PhaseFrame (s t : State) : Prop where
  bp : t.bp = s.bp
  halted : t.halted = true → s.halted = true

theorem serveInterrupt_frame {n : Nat} {s t : State} {u : Unit} (h : serveInterrupt n s = .ok u t) :
    PhaseFrame s t := by
  rcases serveInterrupt_cases h with ⟨_, rfl⟩ | ⟨_, _, rfl⟩ | ⟨_, _, htake⟩
  · exact ⟨rfl, id⟩
  · exact ⟨rfl, id⟩
  · rw [(takeInterrupt_state htake).1]
    exact ⟨rfl, nofun⟩

theorem serveInterrupts_frame {ns : List Nat} {s t : State} {u : Unit}
    (h : serveInterrupts ns s = .ok u t) : PhaseFrame s t :=
  serveInterrupts_keeps (P := PhaseFrame s)
    (fun _ _ _ hpass hs =>
      have hstep := serveInterrupt_frame hpass
      ⟨hstep.bp.trans hs.bp, hs.halted ∘ hstep.halted⟩)
    h ⟨rfl, id⟩

theorem resetSequence_frame {s t : State} {u : Unit} (h : resetSequence s = .ok u t) : PhaseFrame s t := by
  obtain ⟨_, s', hentry, _, rfl⟩ := resetSequence_ok h
  exact ⟨show s'.bp = s.bp by rw [memRead_state hentry], nofun⟩

/-- The interrupt phase answers by a reset or by the loop on the SPU Mark II, by the RST test on the SPU
Mark II-L. -/
theorem interruptPhase_frame {s t : State} {u : Unit} (h : interruptPhase s = .ok u t) : PhaseFrame s t := by
  unfold interruptPhase at h
  split at h
  · obtain ⟨_, ⟨_, hreset⟩ | ⟨_, _, hserve⟩⟩ := interruptPhaseII_ok h
    · have hframe := resetSequence_frame hreset
      exact ⟨hframe.bp, hframe.halted⟩
    · have hframe := serveInterrupts_frame hserve
      exact ⟨hframe.bp, hframe.halted⟩
  · cases h
    split
    · exact ⟨rfl, nofun⟩
    · exact ⟨rfl, id⟩

/-- Settles O37: of the commands `HALT` alone writes `halted`, and the interrupt phase only clears it. -/
theorem onlyHaltHalts : Obligations.OnlyHaltHalts := by
  refine ⟨fun i s t h hne => ?_, fun s t h => (interruptPhase_frame h).halted⟩
  rcases exec_cases h with rfl | ⟨out, s2, s3, s4, hin, heffect, hout, rfl⟩ | ⟨_, at', rfl⟩
  · exact absurd rfl hne
  · rw [modifyFlags_halted, hout.halted, ← hin.halted] at hne
    rw [modifyFlags_halted, hout.halted]
    exact heffect.halted_eq.resolve_left hne
  · exact absurd rfl hne

/-- Settles O36: the interrupt phase and the fetch keep `BP`, so the instruction changed it. -/
theorem onlyBpsetWritesBp : Obligations.OnlyBpsetWritesBp := by
  intro s t h hne
  obtain ⟨s1, hphase, hrest⟩ := step_next h
  have hs1 : s1.bp = s.bp := (interruptPhase_frame hphase).bp
  rcases hrest with ⟨_, rfl⟩ | ⟨_, i, s2, hfetch, hexec⟩ | ⟨_, _, _, rfl⟩
  · exact absurd hs1 hne
  · obtain ⟨_, hword, _⟩ := fetchInstr_ok hfetch
    have hs2 : s2.bp = s1.bp := by rw [memRead_state hword]
    rcases exec_bp_eq hexec with hkept | ⟨c, rfl⟩
    · exact absurd (hkept.trans (hs2.trans hs1)) hne
    · exact ⟨s1, s2, c, hphase, hfetch⟩
  · exact absurd hs1 hne

/-! ### The invariant -/

/-! #### Masks of reserved bits -/

theorem or_and_eq_zero {v w m : Word} (hv : v &&& m = 0) (hw : w &&& m = 0) : (v ||| w) &&& m = 0 := by
  rw [and_eq_zero_iff] at *
  intro k hk
  rw [BitVec.getLsbD_or, hv k hk, hw k hk]; rfl

theorem and_and_eq_zero {v m : Word} (w : Word) (hv : v &&& m = 0) : (v &&& w) &&& m = 0 := by
  rw [and_eq_zero_iff] at *
  intro k hk
  rw [BitVec.getLsbD_and, hv k hk]; rfl

/-- Z, N, C and CE are reserved on neither variant (`10_state.md` R32). -/
theorem reservedFr_getLsbD_low (p : Params) (k : Nat) (hk : k < 4) : (reservedFr p).getLsbD k = false := by
  unfold reservedFr
  split <;> interval_cases k <;> rfl

theorem withBit_and_reservedFr {p : Params} {fr : Word} (k : Nat) (b : Bool) (hk : k < 4)
    (h : fr &&& reservedFr p = 0) : withBit fr k b &&& reservedFr p = 0 := by
  rw [and_eq_zero_iff] at *
  intro j hj
  have hjk : j ≠ k := by
    rintro rfl
    rw [reservedFr_getLsbD_low p j hk] at hj
    cases hj
  rw [withBit_getLsbD _ _ _ _ (by omega), if_neg hjk, h j hj]

theorem flagsOf_and_reservedFr {p : Params} {fr : Word} (v : Word) (h : fr &&& reservedFr p = 0) :
    flagsOf v fr &&& reservedFr p = 0 :=
  withBit_and_reservedFr 1 _ (by omega) (withBit_and_reservedFr 0 _ (by omega) h)

/-! #### The parts of an instruction -/

theorem skipped_inv {c : Conf} {s : State} (h : Inv s) : Inv { s with ip := nextIp c s } := by
  obtain ⟨hmem, hsp, hbp, hip, hfr, hir⟩ := h
  exact ⟨hmem, hsp, hbp, nextIp_even hip, hfr, hir⟩

theorem memRead_inv {k : AccessKind} {w : Width} {a v : Word} {s t : State}
    (h : memRead k w a s = .ok v t) (hs : Inv s) : Inv t := by
  rw [memRead_state h]; exact hs

theorem inputsAre_inv {c : Conf} {s t : State} {v0 v1 : Word} (h : InputsAre c s v0 v1 t) (hs : Inv s) :
    Inv t := by
  obtain ⟨hmem, hsp, hbp, hip, hfr, hir⟩ := hs
  rw [inputsAre_state h]
  exact ⟨hmem, spAfterInputs_even hsp, hbp, nextIp_even hip, hfr, hir⟩

theorem trigger_inv {n : Nat} {s : State} (hn : interruptBit n &&& reservedIr = 0) (h : Inv s) :
    Inv (trigger n s) := by
  cases hv : s.params.variant with
  | markIIL => rw [trigger_markIIL n s hv]; exact h
  | markII =>
    obtain ⟨hmem, hsp, hbp, hip, hfr, hir⟩ := h
    have hir' : (trigger n s).ir &&& reservedIr = 0 := by
      rw [trigger_ir_markII n s hv]; exact or_and_eq_zero hir hn
    exact ⟨by simpa using hmem, by simpa using hsp, by simpa using hbp, by simpa using hip,
      by simpa using hfr, hir'⟩

theorem CommandEffect.inv {i : Instr} {s t : State} (h : CommandEffect i s t) (hs : Inv s) : Inv t := by
  have htrigger : Inv (trigger 4 s) := trigger_inv (by decide) hs
  obtain ⟨hmem, hsp, hbp, hip, hfr, hir⟩ := hs
  cases h with
  | keepsRegisters same wf => rw [same]; exact ⟨wf hmem, hsp, hbp, hip, hfr, hir⟩
  | carry _ b => exact ⟨hmem, hsp, hbp, hip, withBit_and_reservedFr 2 b (by omega) hfr, hir⟩
  | arith _ n => exact htrigger
  | transfer _ even legal => exact ⟨hmem, hsp, hbp, even, legal, hir⟩
  | halt c n => exact ⟨hmem, hsp, hbp, hip, hfr, hir⟩
  | frset c legal => exact ⟨hmem, hsp, hbp, hip, legal, hir⟩
  | bpset c even => exact ⟨hmem, hsp, even, hip, hfr, hir⟩
  | spset c even => exact ⟨hmem, even, hbp, hip, hfr, hir⟩
  | intr c legal => exact ⟨hmem, hsp, hbp, hip, hfr, or_and_eq_zero hir legal⟩

theorem putOutput_inv {r : OutputMode} {v : Word} {s t : State} {u : Unit}
    (h : putOutput r v s = .ok u t) (hs : Inv s) : Inv t := by
  rcases putOutput_ok h with ⟨_, rfl⟩ | ⟨_, hpush⟩
  · exact hs
  · obtain ⟨hmem, hsp, hbp, hip, hfr, hir⟩ := hs
    obtain ⟨hstate, hwf, _, _⟩ := push_ok hpush
    rw [hstate]
    exact ⟨hwf hmem, isEven_sub_two hsp, hbp, hip, hfr, hir⟩

theorem modifyFlags_inv {s : State} (f : FlagMod) (v : Word) (h : Inv s) : Inv (modifyFlags f v s) := by
  cases f with
  | no => exact h
  | yes =>
    obtain ⟨hmem, hsp, hbp, hip, hfr, hir⟩ := h
    exact ⟨hmem, hsp, hbp, hip, flagsOf_and_reservedFr v hfr, hir⟩

theorem busAbort_inv {s : State} (at' : State) (h : Inv s) : Inv (busAbort s at') := by
  obtain ⟨hmem, hsp, hbp, hip, hfr, hir⟩ := h
  exact ⟨hmem, hsp, hbp, hip, hfr, or_and_eq_zero hir (by decide)⟩

theorem exec_inv {i : Instr} {s t : State} (h : exec i s = .next t) (hs : Inv s) : Inv t := by
  rcases exec_next h with hdone | ⟨at', _, _, rfl⟩
  · rcases execute_ok hdone with ⟨_, rfl⟩ | ⟨_, v0, v1, out, s2, s3, s4, hin, hcmd, hout, rfl⟩
    · rw [skipped_eq]; exact skipped_inv hs
    · have hs2 : Inv s2 := inputsAre_inv hin hs
      have hs3 : Inv s3 := (commandMeaning_effect hcmd).inv hs2
      exact modifyFlags_inv _ _ (putOutput_inv hout hs3)
  · exact busAbort_inv at' hs

/-! #### The interrupt phase and the step -/

/-- Clearing a trigger, and taking its interrupt, set no reserved bit. -/
theorem serveInterrupt_inv {n : Nat} {s t : State} {u : Unit} (h : serveInterrupt n s = .ok u t)
    (hs : Inv s) : Inv t := by
  obtain ⟨hmem, hsp, hbp, hip, hfr, hir⟩ := hs
  have hcleared := and_and_eq_zero (~~~ interruptBit n) hir
  rcases serveInterrupt_cases h with ⟨_, rfl⟩ | ⟨_, _, rfl⟩ | ⟨_, _, htake⟩
  · exact ⟨hmem, hsp, hbp, hip, hfr, hir⟩
  · exact ⟨hmem, hsp, hbp, hip, hfr, hcleared⟩
  · obtain ⟨hstate, _, heven, hwf⟩ := takeInterrupt_state htake
    have hsp' : isEven (s.sp - 4) := by
      rw [show s.sp - 4 = s.sp - 2 - 2 by rw [BitVec.sub_sub]; rfl]
      exact isEven_sub_two (isEven_sub_two hsp)
    have hfr' : (if 4 ≤ n then s.fr &&& ~~~ interruptBit n else s.fr) &&& reservedFr s.params = 0 := by
      split
      · exact and_and_eq_zero _ hfr
      · exact hfr
    rw [hstate]
    exact ⟨hwf hmem, hsp', hbp, heven, hfr', hcleared⟩

theorem resetSequence_inv {s t : State} {u : Unit} (h : resetSequence s = .ok u t)
    (hmem : Memory.wf s.mem = true) (hsp : isEven s.sp) (hbp : isEven s.bp) : Inv t := by
  obtain ⟨target, s', hentry, heven, rfl⟩ := resetSequence_ok h
  rw [memRead_state hentry]
  exact ⟨hmem, hsp, hbp, heven, BitVec.zero_and, BitVec.zero_and⟩

theorem interruptPhaseII_inv {s t : State} {u : Unit} (h : interruptPhaseII s = .ok u t) (hs : Inv s) :
    Inv t := by
  obtain ⟨hmem, hsp, hbp, hip, hfr, _⟩ := hs
  obtain ⟨_, ⟨_, hreset⟩ | ⟨_, hlegal, hserve⟩⟩ := interruptPhaseII_ok h
  · exact resetSequence_inv hreset hmem hsp hbp
  · exact serveInterrupts_keeps (P := Inv) (fun _ _ _ => serveInterrupt_inv) hserve
      ⟨hmem, hsp, hbp, hip, hfr, hlegal⟩

theorem interruptPhaseL_inv {s t : State} {u : Unit} (h : interruptPhaseL s = .ok u t) (hs : Inv s) :
    Inv t := by
  obtain ⟨hmem, hsp, hbp, hip, hfr, hir⟩ := hs
  cases h
  split
  · exact ⟨hmem, hsp, hbp, BitVec.getLsbD_zero, BitVec.zero_and, hir⟩
  · exact ⟨hmem, hsp, hbp, hip, hfr, hir⟩

theorem interruptPhase_inv {s t : State} {u : Unit} (h : interruptPhase s = .ok u t) (hs : Inv s) :
    Inv t := by
  unfold interruptPhase at h
  split at h
  · exact interruptPhaseII_inv h hs
  · exact interruptPhaseL_inv h hs

/-- Settles O58: the interrupt phase keeps the invariant, and so does each of the three ways in which a step
goes on from it. -/
theorem everyStepKeepsTheInvariant : Obligations.EveryStepKeepsTheInvariant := by
  intro s t hs h
  obtain ⟨s1, hphase, hrest⟩ := step_next h
  have hs1 : Inv s1 := interruptPhase_inv hphase hs
  rcases hrest with ⟨_, rfl⟩ | ⟨_, i, s2, hfetch, hexec⟩ | ⟨_, _, _, rfl⟩
  · exact hs1
  · obtain ⟨_, hword, _⟩ := fetchInstr_ok hfetch
    exact exec_inv hexec (memRead_inv hword hs1)
  · exact busAbort_inv s1 hs1

/-- Every register is zero at power-on but for the pending reset, bit 0 of `IR` (`10_state.md` R38; log 2). -/
theorem powerOn_inv (v : Variant) : Inv (State.powerOn v) := by
  have hir : (State.powerOn v).ir &&& reservedIr = 0 := by cases v <;> rfl
  have hzero : isEven 0 := BitVec.getLsbD_zero
  exact ⟨rfl, hzero, hzero, hzero, BitVec.zero_and, hir⟩

/-- Settles O59: the state after reset is the SPU Mark II at power-on. -/
theorem resetMeetsTheInvariant : Obligations.ResetMeetsTheInvariant :=
  ⟨powerOn_inv .markII, powerOn_inv⟩

/-! ### Reset and interrupt entry on the default platform -/

/-- The state in which the interrupt phase of the SPU Mark II looks for triggers: the pins are sampled and
their triggers are in `IR` (`60_exceptions.md` R228 steps 0 and 1). -/
def sampled (s : State) : State := { afterSample s with ir := pendingBits s }

theorem interruptPhase_markII {s : State} (hv : s.params.variant = .markII)
    (hbus : (nextSample s).bus = false) :
    interruptPhase s =
      if (pendingBits s).getLsbD 0 = true then resetSequence (sampled s)
      else if pendingBits s &&& reservedIr = 0 then serveInterrupts interruptOrder (sampled s)
      else .fault .reservedBit := by
  rw [← samplePins_eq_nextSample] at hbus
  have hir : (afterSample s).ir ||| envBits (samplePins s) = pendingBits s := pendingBits_eq s
  unfold interruptPhase interruptPhaseII
  simp only [hv, hbus, Bool.false_eq_true, if_false, consumePins_eq_afterSample, hir]
  rfl

theorem writeIp_odd {v : Word} (s : State) (h : ¬ isEven v) : writeIp v s = .fault .reservedBit := by
  unfold writeIp
  rw [if_pos (Bool.eq_true_of_not_eq_false h)]

theorem resetSequence_default {s : State} (h : DefaultPlatform s) (hentry : isEven (wordAt s 0x0000)) :
    resetSequence s = .ok () { s with ip := wordAt s 0x0000, fr := 0, ir := 0, halted := false } := by
  unfold resetSequence
  rw [fetch16_default h 0x0000 BitVec.getLsbD_zero, Res.bind_ok, writeIp_even s hentry, Res.bind_ok]

theorem fetchInstr_default {s : State} {i : Instr} (h : DefaultPlatform s) (hip : isEven s.ip)
    (hdecode : decodeWord (wordAt s s.ip) = .ok i) : fetchInstr s = .ok i s := by
  unfold fetchInstr
  rw [fetch16_default h s.ip hip, Res.bind_ok, hdecode]

theorem step_eq_exec {s s1 s2 : State} {i : Instr} (hphase : interruptPhase s = .ok () s1)
    (hrun : s1.halted = false) (hfetch : fetchInstr s1 = .ok i s2) : step s = exec i s2 := by
  unfold step cycle instructionPhase
  rw [hphase]
  simp [hrun, hfetch]

/-- A reset whose entry is even and names an instruction: the step runs it with `IP` there. -/
theorem step_of_reset {s : State} {i : Instr} (hv : s.params.variant = .markII) (hd : DefaultPlatform s)
    (hbus : (nextSample s).bus = false) (hrst : (pendingBits s).getLsbD 0 = true)
    (heven : isEven (wordAt s 0x0000)) (hdecode : decodeWord (wordAt s (wordAt s 0x0000)) = .ok i) :
    step s = exec i { afterSample s with ip := wordAt s 0x0000, fr := 0, ir := 0, halted := false } := by
  have hphase : interruptPhase s =
      .ok () { afterSample s with ip := wordAt s 0x0000, fr := 0, ir := 0, halted := false } := by
    rw [interruptPhase_markII hv hbus, if_pos hrst]
    exact resetSequence_default (s := sampled s) hd heven
  exact step_eq_exec hphase rfl (fetchInstr_default hd heven hdecode)

/-- Settles O53: at power-on the reset is pending in `IR`, whatever the free pins add to it. -/
theorem firstStepRunsTheResetEntry : Obligations.FirstStepRunsTheResetEntry := by
  intro m i s entry heven hdecode
  have hir : s.ir.getLsbD 0 = true := show (0x0001 : Word).getLsbD 0 = true by decide
  have hrst : (pendingBits s).getLsbD 0 = true := by
    rw [← pendingBits_eq, BitVec.getLsbD_or, hir, Bool.true_or]
  exact step_of_reset rfl ⟨rfl, rfl⟩ rfl hrst heven hdecode

/-- The word `1 << n` as the statements write it. -/
theorem interruptBit_eq_ofNat (n : Nat) : interruptBit n = BitVec.ofNat 16 (2 ^ n) := by
  apply BitVec.eq_of_toNat_eq
  simp [interruptBit, Nat.shiftLeft_eq]

theorem isEven_ofNat_two_mul (n : Nat) : isEven (BitVec.ofNat 16 (2 * n)) := by
  unfold isEven
  rw [getLsbD_zero_eq, BitVec.toNat_ofNat, decide_eq_false_iff_not]
  omega

/-- The state of an interrupt entry after its two pushes, of the cause and of `IP`
(`60_exceptions.md` R231). -/
def entered (n : Nat) (s : State) : State :=
  { s with
    halted := false
    sp := s.sp - 4
    mem := storeWord (storeWord s.mem (s.sp - 2) (interruptBit n)) (s.sp - 4) s.ip }

/-- On the default platform both pushes and the read of the table succeed. -/
theorem takeInterrupt_default {n : Nat} {s : State} (h : DefaultPlatform s) (hsp : isEven s.sp) :
    takeInterrupt n s =
      (writeIp (wordAt (entered n s) (BitVec.ofNat 16 (2 * n))) (entered n s)).bind fun _ t =>
        .ok () (if 4 ≤ n then { t with fr := t.fr &&& ~~~ interruptBit n } else t) := by
  have hsub : s.sp - 2 - 2 = s.sp - 4 := by rw [BitVec.sub_sub]; rfl
  have hcause := push_default (s := { s with halted := false }) h (interruptBit n) hsp
  have hip := push_default (s := { s with
      halted := false, sp := s.sp - 2, mem := storeWord s.mem (s.sp - 2) (interruptBit n) })
    h s.ip (isEven_sub_two hsp)
  have hentry := fetch16_default (s := entered n s) h _ (isEven_ofNat_two_mul n)
  simp only [hsub] at hip
  unfold takeInterrupt
  rw [hcause, Res.bind_ok, hip, Res.bind_ok]
  exact congrArg (fun r : Res Word => r.bind _) hentry

theorem takeInterrupt_odd_entry {n : Nat} {s : State} (h : DefaultPlatform s) (hsp : isEven s.sp)
    (hodd : ¬ isEven (wordAt (entered n s) (BitVec.ofNat 16 (2 * n)))) :
    takeInterrupt n s = .fault .reservedBit := by
  rw [takeInterrupt_default h hsp, writeIp_odd _ hodd, Res.bind_fault]

theorem serveInterrupt_untriggered {n : Nat} {s : State} (h : s.ir.getLsbD n = false) :
    serveInterrupt n s = .ok () s := by
  unfold serveInterrupt
  rw [if_neg (by rw [h]; exact Bool.false_ne_true)]

theorem serveInterrupt_taken {n : Nat} {s : State} (h : s.ir.getLsbD n = true) (hn : unmasked n s = true) :
    serveInterrupt n s = takeInterrupt n { s with ir := s.ir &&& ~~~ interruptBit n } := by
  unfold serveInterrupt
  rw [if_pos h]
  exact if_pos hn

/-- The loop passes over what is not triggered, so a fault of the only triggered interrupt is its own. -/
theorem serveInterrupts_fault {n : Nat} {ns : List Nat} {s : State} {e : Fault} (hmem : n ∈ ns)
    (honly : ∀ k, k ≠ n → s.ir.getLsbD k = false) (h : serveInterrupt n s = .fault e) :
    serveInterrupts ns s = .fault e := by
  induction ns with
  | nil => cases hmem
  | cons k rest ih =>
    unfold serveInterrupts
    by_cases hk : k = n
    · rw [hk, h, Res.bind_fault]
    · rw [serveInterrupt_untriggered (honly k hk), Res.bind_ok]
      exact ih (List.mem_of_ne_of_mem (Ne.symm hk) hmem)

/-- The triggers of the loop are neither RST nor reserved bits of `IR` (`60_exceptions.md` R229). -/
theorem interruptOrder_legal : ∀ n ∈ interruptOrder,
    n < 16 ∧ (interruptBit n).getLsbD 0 = false ∧ interruptBit n &&& reservedIr = 0 := by decide

/-- Settles O46: the only trigger is served, both pushes succeed, and the odd entry cannot be loaded. -/
theorem oddTableEntryIsUndefined : Obligations.OddTableEntryIsUndefined := by
  intro s n hv hd hsp hbus hn hpending htake hodd
  rw [← interruptBit_eq_ofNat] at hpending hodd
  obtain ⟨hlt, hrst, hlegal⟩ := interruptOrder_legal n hn
  obtain ⟨htriggered, hunmasked⟩ := Bool.and_eq_true_iff.1 htake
  have honly : ∀ k, k ≠ n → (sampled s).ir.getLsbD k = false := by
    intro k hk
    show (pendingBits s).getLsbD k = false
    rw [hpending, interruptBit_getLsbD n k hlt, decide_eq_false hk]
  have hserve : serveInterrupt n (sampled s) = .fault .reservedBit := by
    rw [serveInterrupt_taken (s := sampled s) htriggered hunmasked]
    exact takeInterrupt_odd_entry hd hsp hodd
  have hphase : interruptPhase s = .fault .reservedBit := by
    rw [interruptPhase_markII hv hbus, hpending, hrst, if_neg Bool.false_ne_true, if_pos hlegal]
    exact serveInterrupts_fault hn honly hserve
  unfold step cycle
  rw [hphase]

end Sys2Proof.Machine

/-! ## Memory: what is written reads back, and what an access may meet (O41 to O44)

A read and a write follow what the checks of the access answer, so each fault is settled by a lemma about the
checks. -/

namespace Sys2Proof.Machine

/-! ### Bytes and words of memory -/

theorem toNat_lowByte (v : Word) : (lowByte v).toNat = v.toNat % 256 := by
  simp [lowByte]

theorem toNat_highByte (v : Word) : (highByte v).toNat = v.toNat / 256 := by
  have hv := v.isLt
  simp only [highByte, BitVec.extractLsb'_toNat, Nat.shiftRight_eq_div_pow]
  omega

theorem toNat_wordOfBytes (lo hi : Byte) : (wordOfBytes lo hi).toNat = hi.toNat * 256 + lo.toNat := by
  simp only [wordOfBytes, BitVec.toNat_append]
  rw [← Nat.shiftLeft_add_eq_or_of_lt lo.isLt, Nat.shiftLeft_eq]

theorem wordOfBytes_low_high (v : Word) : wordOfBytes (lowByte v) (highByte v) = v := by
  apply BitVec.eq_of_toNat_eq
  rw [toNat_wordOfBytes, toNat_lowByte, toNat_highByte]
  omega

theorem wordOfBytes_low_zero (v : Word) : wordOfBytes (lowByte v) 0 = v &&& 0x00FF := by
  have hmask : v.toNat &&& 255 = v.toNat % 256 := Nat.and_two_pow_sub_one_eq_mod v.toNat 8
  apply BitVec.eq_of_toNat_eq
  rw [toNat_wordOfBytes, toNat_lowByte, BitVec.toNat_and]
  simp [hmask]

theorem wordOfBytes_high_zero (v : Word) : wordOfBytes (highByte v) 0 = v >>> 8 := by
  apply BitVec.eq_of_toNat_eq
  rw [toNat_wordOfBytes, toNat_highByte, BitVec.toNat_ushiftRight, Nat.shiftRight_eq_div_pow]
  simp

theorem byteAt_write (s : State) (a x : Word) (b : Byte) :
    byteAt { s with mem := Memory.write s.mem a.toNat b } x = if x = a then b else byteAt s x := by
  split
  · next h => rw [h]; simp [byteAt, Memory.read_write_same]
  · next h =>
    have hne : x.toNat ≠ a.toNat := fun he => h (BitVec.eq_of_toNat_eq he)
    simp [byteAt, Memory.read_write_other _ _ _ _ hne]

theorem byteAt_storeWord (s : State) (a x v : Word) :
    byteAt { s with mem := storeWord s.mem a v } x =
      if x = a + 1 then highByte v else if x = a then lowByte v else byteAt s x := by
  rw [← byteAt_write s a x (lowByte v)]
  exact byteAt_write { s with mem := Memory.write s.mem a.toNat (lowByte v) } (a + 1) x (highByte v)

theorem ne_add_one (a : Word) : a ≠ a + 1 := by
  bv_omega

theorem wordAt_storeWord (s : State) (a v : Word) : wordAt { s with mem := storeWord s.mem a v } a = v := by
  unfold wordAt
  rw [byteAt_storeWord, byteAt_storeWord, if_neg (ne_add_one a), if_pos rfl, if_pos rfl, wordOfBytes_low_high]

/-- Settles O41: the state after the write is known, and each read of it is by the bytes stored. -/
theorem writesReadBackLittleEndian : Obligations.WritesReadBackLittleEndian := by
  intro s a v hd
  refine ⟨fun ha => ?_, ?_⟩
  · have hd' : DefaultPlatform { s with mem := storeWord s.mem a v } := hd
    refine ⟨_, memWrite_word_default hd a v ha, ?_, ?_, ?_, fun x hx => ?_⟩
    · rw [memRead_word_default hd' .data a ha, wordAt_storeWord]
    · rw [memRead_byte_default hd' .data a, byteAt_storeWord, if_neg (ne_add_one a), if_pos rfl,
        wordOfBytes_low_zero]
    · rw [memRead_byte_default hd' .data (a + 1), byteAt_storeWord, if_pos rfl, wordOfBytes_high_zero]
    · obtain ⟨hlow, hhigh⟩ := not_or.1 hx
      rw [byteAt_storeWord, if_neg hhigh, if_neg hlow]
  · have hd' : DefaultPlatform { s with mem := Memory.write s.mem a.toNat (lowByte v) } := hd
    refine ⟨_, memWrite_byte_default hd a v, ?_, fun x hx => ?_⟩
    · rw [memRead_byte_default hd' .data a, byteAt_write, if_pos rfl, wordOfBytes_low_zero]
    · rw [byteAt_write, if_neg hx]

/-! ### A read and a write by what their checks answer -/

theorem memRead_of_fault {k : AccessKind} {w : Width} {a : Word} {s : State} {e : Fault}
    (h : checkAccess ⟨a, w, .read, k⟩ s = .fault e) : memRead k w a s = .fault e := by
  simp only [memRead, h, Res.bind_fault]

theorem memWrite_of_fault {w : Width} {a : Word} {s : State} {e : Fault} (v : Word)
    (h : checkAccess ⟨a, w, .write, .data⟩ s = .fault e) : memWrite w a v s = .fault e := by
  simp only [memWrite, h, Res.bind_fault]

theorem memRead_of_ok {k : AccessKind} {w : Width} {a v : Word} {s : State}
    (h : checkAccess ⟨a, w, .read, k⟩ s = .ok () s)
    (hv : readValue s ⟨a, w, .read, k⟩ (Config.deviceRead s.device ⟨a, w, .read, k⟩) = v) :
    memRead k w a s = .ok v (deviceAccess ⟨a, w, .read, k⟩ v s) := by
  simp only [memRead, h, Res.bind_ok, hv]

theorem memWrite_of_ok {w : Width} {a : Word} {s : State} (v : Word)
    (h : checkAccess ⟨a, w, .write, .data⟩ s = .ok () s) :
    memWrite w a v s =
      .ok () (deviceAccess ⟨a, w, .write, .data⟩ (carried w v) (writeValue ⟨a, w, .write, .data⟩ v s)) := by
  simp only [memWrite, h, Res.bind_ok]

/-! ### The checks of an access -/

theorem touches_iff (s : State) (acc : Access) (k : RegionKind) :
    touches s acc k = true ↔
      kindAt s acc.addr = k ∨ (acc.width = .word ∧ kindAt s (acc.addr + 1) = k) := by
  unfold touches Access.bytes
  cases acc.width <;> simp

theorem checkAccess_odd {acc : Access} (s : State) (hw : acc.width = .word)
    (ha : ¬ isEven acc.addr) : checkAccess acc s = .fault .unaligned := by
  unfold checkAccess
  rw [if_pos ⟨hw, Bool.eq_true_of_not_eq_false ha⟩]

/-- An aligned access without bus errors is checked against what stands at its bytes alone
(`20_memory.md` R68; log 10). -/
theorem checkAccess_aligned {acc : Access} {s : State} (ha : acc.width = .word → isEven acc.addr)
    (hb : s.params.busErrors = []) :
    checkAccess acc s =
      if touches s acc .nothing = true then .fault .unmapped
      else if acc.dir = .write ∧ touches s acc .rom = true then .fault .writeToRom
      else .ok () s := by
  have haligned : ¬ (acc.width = .word ∧ acc.addr.getLsbD 0 = true) := by
    rintro ⟨hw, hodd⟩
    exact Bool.false_ne_true ((ha hw).symm.trans hodd)
  unfold checkAccess
  rw [if_neg haligned, hb, if_neg List.not_mem_nil]

/-! ### ROM, nothing and devices -/

theorem checkAccess_nothing {acc : Access} {s : State} (ha : acc.width = .word → isEven acc.addr)
    (hb : s.params.busErrors = [])
    (hk : kindAt s acc.addr = .nothing ∨ (acc.width = .word ∧ kindAt s (acc.addr + 1) = .nothing)) :
    checkAccess acc s = .fault .unmapped := by
  rw [checkAccess_aligned ha hb, if_pos ((touches_iff s acc _).2 hk)]

/-- Settles O43: the checks of an access fault, so the access does. -/
theorem romAndNothingAreUndefined : Obligations.RomAndNothingAreUndefined := by
  intro s w a v hb ha
  refine ⟨fun hnothing => ⟨?_, fun k => ?_⟩, fun hlow hhigh hrom => ?_⟩
  · exact memWrite_of_fault v (checkAccess_nothing ha hb hnothing)
  · exact memRead_of_fault (checkAccess_nothing ha hb hnothing)
  · have hmapped : ¬ touches s ⟨a, w, .write, .data⟩ .nothing = true := by
      rw [touches_iff]
      rintro (hk | ⟨hw, hk⟩)
      · exact hlow hk
      · exact hhigh hw hk
    apply memWrite_of_fault
    rw [checkAccess_aligned ha hb, if_neg hmapped, if_pos ⟨rfl, (touches_iff s _ _).2 hrom⟩]

theorem deviceAccess_of_touches {s : State} {acc : Access} (v : Word) (h : touches s acc .device = true) :
    deviceAccess acc v s = { s with device := Config.deviceNext s.device acc v } := by
  unfold deviceAccess
  rw [if_pos h]

section DeviceWord

variable {s : State} {a : Word} (hlow : kindAt s a = .device) (hhigh : kindAt s (a + 1) = .device)
include hlow hhigh

theorem touches_deviceWord (d : Direction) (k : AccessKind) (kind : RegionKind) :
    touches s ⟨a, .word, d, k⟩ kind = decide (kind = .device) := by
  rw [Bool.eq_iff_iff, touches_iff, decide_eq_true_eq, hlow, hhigh]
  exact ⟨fun h => h.elim Eq.symm fun h => h.2.symm, fun h => .inl h.symm⟩

theorem checkAccess_deviceWord (hb : s.params.busErrors = []) (ha : isEven a) (d : Direction)
    (k : AccessKind) : checkAccess ⟨a, .word, d, k⟩ s = .ok () s := by
  rw [checkAccess_aligned (fun _ => ha) hb]
  simp [touches_deviceWord hlow hhigh]

theorem readValue_deviceWord (d : Direction) (k : AccessKind) (v : Word) :
    readValue s ⟨a, .word, d, k⟩ v = v := by
  simp only [readValue, readByte, hlow, hhigh, if_true, wordOfBytes_low_high]

theorem writeValue_deviceWord (d : Direction) (k : AccessKind) (v : Word) :
    writeValue ⟨a, .word, d, k⟩ v s = s := by
  simp only [writeValue, writeByte, hlow, hhigh, if_true]

end DeviceWord

/-- Settles O44: every check passes, the device gives or takes the whole value, and its state moves on. -/
theorem deviceAccessesCallThePlatform : Obligations.DeviceAccessesCallThePlatform := by
  intro s a v hb ha hlow hhigh
  have hcheck := checkAccess_deviceWord hlow hhigh hb ha
  have htouch : ∀ d k, touches s ⟨a, .word, d, k⟩ .device = true :=
    fun d k => touches_deviceWord hlow hhigh d k .device
  refine ⟨fun k => ?_, ?_⟩
  · rw [memRead_of_ok (hcheck .read k) (readValue_deviceWord hlow hhigh _ _ _),
      deviceAccess_of_touches _ (htouch _ _)]
  · rw [memWrite_of_ok v (hcheck .write .data), writeValue_deviceWord hlow hhigh,
      deviceAccess_of_touches _ (htouch _ _), carried]

/-! ### Odd pointers -/

theorem memRead_word_odd {a : Word} (k : AccessKind) (s : State) (ha : ¬ isEven a) :
    memRead k .word a s = .fault .unaligned := memRead_of_fault (checkAccess_odd s rfl ha)

theorem push_odd {s : State} (v : Word) (hsp : ¬ isEven s.sp) : push v s = .fault .unaligned :=
  memWrite_of_fault v (checkAccess_odd _ rfl (by unfold isEven; rwa [getLsbD_zero_sub_two]))

/-- The states of `20_memory.md` R53: every fetch succeeds on the default platform, no stack access does. -/
abbrev OddStack (s : State) : Prop := DefaultPlatform s ∧ isEven s.ip ∧ ¬ isEven s.sp

theorem fetchInput_stack_odd {sel : Input} {s : State} (h : OddStack s) (hsel : sel = .peek ∨ sel = .pop) :
    fetchInput sel s = .fault .unaligned := by
  obtain ⟨_, _, hsp⟩ := h
  have hpeek : peek s = .fault .unaligned := memRead_word_odd .data s hsp
  rcases hsel with rfl | rfl
  · exact hpeek
  · simp only [fetchInput, pop, hpeek, Res.bind_fault]

/-- An input that is not on the stack is fetched, and leaves `SP` odd. -/
theorem fetchInput_offStack {sel : Input} {s : State} (h : OddStack s)
    (hsel : ¬ (sel = .peek ∨ sel = .pop)) :
    ∃ v t, fetchInput sel s = .ok v t ∧ OddStack t := by
  obtain ⟨hd, hip, hsp⟩ := h
  cases sel with
  | zero => exact ⟨0, s, rfl, hd, hip, hsp⟩
  | imm =>
    refine ⟨wordAt s s.ip, advance s, ?_, hd, isEven_add_two hip, hsp⟩
    rw [fetchInput, fetch16_default hd s.ip hip, Res.bind_ok]
  | peek => exact absurd (.inl rfl) hsel
  | pop => exact absurd (.inr rfl) hsel

/-- The first of an instruction's stack accesses faults: an input's, or, where neither input is on the
stack, the push of the output. -/
theorem execute_compute_oddStack {c : Conf} {s : State} (f : Word → Word → Word) (hs : OddStack s)
    (hc : condHolds c.ex s.fr = true)
    (hstack : (c.i0 = .peek ∨ c.i0 = .pop) ∨ (c.i1 = .peek ∨ c.i1 = .pop) ∨ c.r = .push) :
    execute c (compute f) s = .fault .unaligned := by
  have hadvanced : OddStack (advance s) :=
    have ⟨hd, hip, hsp⟩ := hs
    ⟨hd, isEven_add_two hip, hsp⟩
  rw [execute_eq, if_pos hc]
  by_cases h0 : c.i0 = .peek ∨ c.i0 = .pop
  · rw [fetchInput_stack_odd hadvanced h0, Res.bind_fault]
  obtain ⟨v0, s1, hfetch0, hs1⟩ := fetchInput_offStack hadvanced h0
  rw [hfetch0, Res.bind_ok]
  by_cases h1 : c.i1 = .peek ∨ c.i1 = .pop
  · rw [fetchInput_stack_odd hs1 h1, Res.bind_fault]
  obtain ⟨v1, s2, hfetch1, _, _, hsp2⟩ := fetchInput_offStack hs1 h1
  have hpush : c.r = .push := (hstack.resolve_left h0).resolve_left h1
  rw [hfetch1, Res.bind_ok, compute, Res.bind_ok, hpush, putOutput, push_odd _ hsp2, Res.bind_fault]

theorem serveInterrupts_untriggered {ns : List Nat} {s : State} (h : ∀ n, s.ir.getLsbD n = false) :
    serveInterrupts ns s = .ok () s := by
  induction ns with
  | nil => rfl
  | cons n rest ih =>
    unfold serveInterrupts
    rw [serveInterrupt_untriggered (h n), Res.bind_ok, ih]

/-- The interrupt phase of an undisturbed core uses up its pin sample and does nothing else
(`60_exceptions.md` R228, `70_reset_and_hazards.md` R261). -/
theorem interruptPhase_undisturbed {s : State} (h : Undisturbed s) :
    interruptPhase s = .ok () (afterSample s) := by
  obtain ⟨hquiet, hir⟩ := h
  cases hv : s.params.variant with
  | markII =>
    have hpending : pendingBits s = 0 := by simp [pendingBits, hquiet, hir, Pins.quiet]
    have hsampled : sampled s = afterSample s := by
      unfold sampled
      rw [hpending, ← hir]
      rfl
    have hbus : (nextSample s).bus = false := by rw [hquiet]; rfl
    rw [interruptPhase_markII hv hbus, hpending, if_neg (by decide), if_pos (by decide), hsampled]
    refine serveInterrupts_untriggered fun n => ?_
    show s.ir.getLsbD n = false
    rw [hir]
    exact BitVec.getLsbD_zero
  | markIIL =>
    unfold interruptPhase interruptPhaseL
    simp only [hv, samplePins_eq_nextSample, hquiet, consumePins_eq_afterSample]
    rfl

/-- Settles O42: no check precedes that of alignment, so the first access through the odd pointer faults. -/
theorem oddPointersAreUndefined : Obligations.OddPointersAreUndefined := by
  refine ⟨fun c s hd hip hsp hc hstack => ?_, fun s hquiet hrun hip => ?_⟩
  · have hfault : execute c copyCommand s = .fault .unaligned :=
      execute_compute_oddStack _ ⟨hd, hip, hsp⟩ hc (by simpa only [or_assoc] using hstack)
    rw [exec_eq_runInstr]
    show finish s (execute c copyCommand s) = .fault .unaligned
    rw [hfault, finish]
  · have hfetch : fetchInstr (afterSample s) = .fault .unaligned := by
      unfold fetchInstr fetch16
      rw [memRead_word_odd (a := (afterSample s).ip) .code _ hip, Res.bind_fault]
    have hhalted : (afterSample s).halted = false := hrun
    unfold step cycle instructionPhase
    rw [interruptPhase_undisturbed hquiet]
    simp only [hhalted, hfetch, Bool.false_eq_true, if_false]

end Sys2Proof.Machine

/-! ## Bus errors: an instruction sees only those that refuse an access of its own (O56)

Each operation is compared with itself on the platform without bus errors; the two agree unless an access of
its own is refused, and the accesses of an instruction are those of `accessesOf`. -/

namespace Sys2Proof.Machine

/-! ### A result beside its result without bus errors -/

/-- How the result of an operation compares to its result on the platform without bus errors: it is refused,
which needs `p`, or it is the same but for the platform. -/
inductive AgreesUnless {α : Type} (p : Prop) : Res α → Res α → Prop where
  | refused (hp : p) (t : State) (r : Res α) : AgreesUnless p (.bus t) r
  | ok (a : α) (t : State) : AgreesUnless p (.ok a t) (.ok a (withoutBusErrors t))
  | fault (e : Fault) : AgreesUnless p (.fault e) (.fault e)

namespace AgreesUnless

variable {α β : Type} {p q : Prop}

theorem mono {r r' : Res α} (h : AgreesUnless p r r') (hpq : p → q) : AgreesUnless q r r' := by
  cases h with
  | refused hp t _ => exact .refused (hpq hp) t _
  | ok a t => exact .ok a t
  | fault e => exact .fault e

theorem bind {r r' : Res α} {f g : α → State → Res β} (hr : AgreesUnless p r r')
    (hf : ∀ a t, r = .ok a t → AgreesUnless p (f a t) (g a (withoutBusErrors t))) :
    AgreesUnless p (r.bind f) (r'.bind g) := by
  cases hr with
  | refused hp t _ => exact .refused hp t _
  | ok a t => exact hf a t rfl
  | fault e => exact .fault e

end AgreesUnless

/-! ### The accesses -/

theorem checkAccess_agrees (acc : Access) (s : State) :
    AgreesUnless (acc ∈ s.params.busErrors) (checkAccess acc s) (checkAccess acc (withoutBusErrors s)) := by
  have htouches : touches (withoutBusErrors s) acc = touches s acc := rfl
  have hempty : acc ∉ (withoutBusErrors s).params.busErrors := List.not_mem_nil
  unfold checkAccess
  rw [htouches, if_neg hempty]
  split
  · exact .fault .unaligned
  split
  · next hrefused => exact .refused hrefused s _
  split
  · exact .fault .unmapped
  split
  · exact .fault .writeToRom
  · exact .ok () s

theorem deviceAccess_withoutBusErrors (acc : Access) (v : Word) (s : State) :
    deviceAccess acc v (withoutBusErrors s) = withoutBusErrors (deviceAccess acc v s) := by
  have htouches : touches (withoutBusErrors s) acc = touches s acc := rfl
  unfold deviceAccess
  rw [htouches]
  split <;> rfl

theorem writeByte_withoutBusErrors (a : Word) (b : Byte) (s : State) :
    writeByte a b (withoutBusErrors s) = withoutBusErrors (writeByte a b s) := by
  have hkind : kindAt (withoutBusErrors s) a = kindAt s a := rfl
  unfold writeByte
  rw [hkind]
  split <;> rfl

theorem writeValue_withoutBusErrors (acc : Access) (v : Word) (s : State) :
    writeValue acc v (withoutBusErrors s) = withoutBusErrors (writeValue acc v s) := by
  unfold writeValue
  cases acc.width with
  | byte => exact writeByte_withoutBusErrors _ _ _
  | word => simp only [writeByte_withoutBusErrors]

theorem memRead_agrees (k : AccessKind) (w : Width) (a : Word) (s : State) :
    AgreesUnless (⟨a, w, .read, k⟩ ∈ s.params.busErrors) (memRead k w a s)
      (memRead k w a (withoutBusErrors s)) := by
  refine (checkAccess_agrees _ s).bind fun _ t _ => ?_
  simp only [deviceAccess_withoutBusErrors]
  exact .ok _ _

theorem memWrite_agrees (w : Width) (a v : Word) (s : State) :
    AgreesUnless (⟨a, w, .write, .data⟩ ∈ s.params.busErrors) (memWrite w a v s)
      (memWrite w a v (withoutBusErrors s)) := by
  refine (checkAccess_agrees _ s).bind fun _ t _ => ?_
  simp only [writeValue_withoutBusErrors, deviceAccess_withoutBusErrors]
  exact .ok _ _

/-- The platform refuses one of some accesses. -/
def refusesAny (accs : List Access) (s : State) : Prop := ∃ acc ∈ accs, acc ∈ s.params.busErrors

theorem refusesAny_singleton {acc : Access} {s : State} (h : acc ∈ s.params.busErrors) :
    refusesAny [acc] s := ⟨acc, List.mem_singleton_self acc, h⟩

theorem refusesAny_of_params {accs : List Access} {s t : State} (h : t.params = s.params) :
    refusesAny accs t → refusesAny accs s := by
  rintro ⟨acc, hmem, hbus⟩
  exact ⟨acc, hmem, h ▸ hbus⟩

theorem fetchInput_agrees (sel : Input) (s : State) :
    AgreesUnless (refusesAny (inputAccess sel s.ip s.sp) s) (fetchInput sel s)
      (fetchInput sel (withoutBusErrors s)) := by
  have hstack := (memRead_agrees .data .word s.sp s).mono refusesAny_singleton
  cases sel with
  | zero => exact .ok 0 s
  | imm =>
    exact ((memRead_agrees .code .word s.ip s).mono refusesAny_singleton).bind fun v t _ => .ok v (advance t)
  | peek => exact hstack
  | pop => exact hstack.bind fun v t _ => .ok v { t with sp := t.sp + 2 }

theorem putOutput_agrees (r : OutputMode) (v : Word) (s : State) :
    AgreesUnless (refusesAny (if r = .push then [⟨s.sp - 2, .word, .write, .data⟩] else []) s)
      (putOutput r v s) (putOutput r v (withoutBusErrors s)) := by
  cases r with
  | discard => exact .ok () s
  | push => exact (memWrite_agrees .word (s.sp - 2) v { s with sp := s.sp - 2 }).mono refusesAny_singleton

/-! ### The commands -/

section NoAccess

variable (p : Prop) (s : State)

theorem writeSp_agrees (v : Word) : AgreesUnless p (writeSp v s) (writeSp v (withoutBusErrors s)) := by
  unfold writeSp
  split
  · exact .fault .reservedBit
  · exact .ok () { s with sp := v }

theorem writeBp_agrees (v : Word) : AgreesUnless p (writeBp v s) (writeBp v (withoutBusErrors s)) := by
  unfold writeBp
  split
  · exact .fault .reservedBit
  · exact .ok () { s with bp := v }

theorem writeIp_agrees (v : Word) : AgreesUnless p (writeIp v s) (writeIp v (withoutBusErrors s)) := by
  unfold writeIp
  split
  · exact .fault .reservedBit
  · exact .ok () { s with ip := v }

theorem writeFr_agrees (v : Word) : AgreesUnless p (writeFr v s) (writeFr v (withoutBusErrors s)) := by
  have hreserved : reservedFr (withoutBusErrors s).params = reservedFr s.params := rfl
  unfold writeFr
  rw [hreserved]
  split
  · exact .ok () { s with fr := v }
  · exact .fault .reservedBit

theorem transfer_agrees (target bits : Word) :
    AgreesUnless p (transfer target bits s) (transfer target bits (withoutBusErrors s)) :=
  (writeIp_agrees p s target).bind fun _ t _ =>
    (writeFr_agrees p t (s.fr ||| bits)).bind fun _ u _ => .ok s.ip u

theorem draw_agrees : AgreesUnless p (draw s) (draw (withoutBusErrors s)) :=
  .ok _ { s with draws := s.draws + 1 }

theorem trigger_withoutBusErrors (n : Nat) :
    trigger n (withoutBusErrors s) = withoutBusErrors (trigger n s) := by
  cases hv : s.params.variant with
  | markII => simp [trigger, withoutBusErrors, hv]
  | markIIL => rw [trigger_markIIL n s hv, trigger_markIIL n (withoutBusErrors s) hv]

/-- The frame of `DIV` and `MOD`. -/
theorem division_agrees (v1 out : Word) :
    AgreesUnless p (if v1 = 0 then divideByZero s else .ok out s)
      (if v1 = 0 then divideByZero (withoutBusErrors s) else .ok out (withoutBusErrors s)) := by
  unfold divideByZero
  rw [trigger_withoutBusErrors]
  split
  · exact draw_agrees p (trigger 4 s)
  · exact .ok out s

theorem cpuidCommand_agrees (v0 v1 : Word) :
    AgreesUnless p (cpuidCommand v0 v1 s) (cpuidCommand v0 v1 (withoutBusErrors s)) := by
  unfold cpuidCommand
  split
  · exact .ok 0 s
  · exact draw_agrees p s

theorem intrCommand_agrees (v0 v1 : Word) :
    AgreesUnless p (intrCommand v0 v1 s) (intrCommand v0 v1 (withoutBusErrors s)) := by
  have hvariant : (withoutBusErrors s).params.variant = s.params.variant := rfl
  unfold intrCommand
  rw [hvariant]
  cases s.params.variant with
  | markII =>
    dsimp only
    split
    · exact .ok v0 { s with ir := s.ir ||| v0 }
    · exact .fault .reservedBit
  | markIIL => exact .fault .noInterruptRegister

end NoAccess

/-- EVERY COMMAND, run after the inputs, sees no bus error but one on the access that its row of the table
names. -/
theorem commandMeaning_agrees {i : Instr} {s t : State}
    (hin : InputsAre i.conf s (input0Of i.conf s) (input1Of i.conf s) t) :
    AgreesUnless (refusesAny (commandAccess i s) s)
      (commandMeaning i (input0Of i.conf s) (input1Of i.conf s) t)
      (commandMeaning i (input0Of i.conf s) (input1Of i.conf s) (withoutBusErrors t)) := by
  have hstate := inputsAre_state hin
  generalize t.device = d at hstate
  subst hstate
  set t : State := { s with ip := nextIp i.conf s, sp := spAfterInputs i.conf s, device := d }
  set v0 := input0Of i.conf s
  set v1 := input1Of i.conf s
  cases i with
  | get _ => exact (memRead_agrees .data .word (frameAddress t v0) t).mono refusesAny_singleton
  | load8 _ => exact (memRead_agrees .data .byte v0 t).mono refusesAny_singleton
  | load16 _ => exact (memRead_agrees .data .word v0 t).mono refusesAny_singleton
  | set _ =>
    exact ((memWrite_agrees .word (frameAddress t v0) v1 t).mono refusesAny_singleton).bind
      fun _ u _ => .ok v1 u
  | store8 _ =>
    exact ((memWrite_agrees .byte v1 v0 t).mono refusesAny_singleton).bind fun _ u _ => .ok (v0 &&& 0x00FF) u
  | store16 _ => exact ((memWrite_agrees .word v1 v0 t).mono refusesAny_singleton).bind fun _ u _ => .ok v0 u
  | frset _ => exact (writeFr_agrees _ t _).bind fun _ u _ => .ok t.fr u
  | bpset _ => exact (writeBp_agrees _ t v0).bind fun _ u _ => .ok t.bp u
  | spset _ => exact (writeSp_agrees _ t v0).bind fun _ u _ => .ok t.sp u
  | setip _ => exact transfer_agrees _ t v0 v1
  | addip _ => exact transfer_agrees _ t (t.ip + v0) v1
  | cpuid _ => exact cpuidCommand_agrees _ t v0 v1
  | halt _ => exact draw_agrees _ { t with halted := true }
  | div _ | mod _ => exact division_agrees _ t v1 _
  | intr _ => exact intrCommand_agrees _ t v0 v1
  | add _ | sub _ | mul _ => exact .ok _ (setCarry _ t)
  | frget _ | bpget _ | spget _ => exact .ok _ t
  | copy _ | and _ | or _ | xor _ | not _ | signext _ | rol _ | ror _ | bswap _ | asr _ | lsl _ | lsr _ =>
    exact .ok _ t

theorem CommandEffect.sp_eq {i : Instr} {s t : State} (h : CommandEffect i s t) :
    t.sp = s.sp ∨ ∃ c, i = .spset c := by
  cases h with
  | keepsRegisters same _ => rw [same]; exact .inl rfl
  | spset c _ => exact .inr ⟨c, rfl⟩
  | arith _ _ => exact .inl (trigger_sp 4 s)
  | carry | transfer | halt | frset | bpset | intr => exact .inl rfl

theorem commandMeaning_sp {i : Instr} {v0 v1 out : Word} {s t : State}
    (h : commandMeaning i v0 v1 s = .ok out t) : t.sp = if i = .spset i.conf then v0 else s.sp := by
  split
  · next hi =>
    rw [hi] at h
    obtain ⟨_, rfl, _⟩ := spsetCommand_ok (v1 := v1) h
    rfl
  · next hi =>
    rcases (commandMeaning_effect h).sp_eq with hsp | ⟨c, rfl⟩
    · exact hsp
    · exact absurd rfl hi

/-! ### The values of the inputs where memory is all RAM -/

theorem memRead_word_allRam {k : AccessKind} {a v : Word} {s t : State} (hram : s.params.memMap = [])
    (h : memRead k .word a s = .ok v t) : v = wordAt s a := by
  obtain ⟨rfl, _⟩ := memRead_ok h
  simp [readValue, readByte, kindAt, hram, kindIn, wordAt]

theorem fetchInput_allRam {sel : Input} {v : Word} {s t : State} (hram : s.params.memMap = [])
    (h : fetchInput sel s = .ok v t) : v = inputValue sel (wordAt s s.ip) (wordAt s s.sp) := by
  cases sel with
  | zero => cases h; rfl
  | peek => exact memRead_word_allRam hram h
  | imm | pop =>
    obtain ⟨a, s', hread, hout⟩ := Res.bind_eq_ok.1 h
    cases hout
    exact memRead_word_allRam hram hread

/-- Where the second input is taken from, as the table of `40_execution_cycle.md` R118 writes it. -/
theorem secondInput_place (c : Conf) (s : State) :
    s.ip + 2 + (if c.i0 = .imm then 2 else 0) = (if c.i0 = .imm then s.ip + 4 else s.ip + 2) ∧
      s.sp + (if c.i0 = .pop then 2 else 0) = (if c.i0 = .pop then s.sp + 2 else s.sp) := by
  have hfour : s.ip + 2 + 2 = s.ip + 4 := BitVec.add_assoc _ _ _
  constructor
  · split
    · exact hfour
    · exact BitVec.add_zero _
  · split
    · rfl
    · exact BitVec.add_zero _

theorem inputsAre_allRam {c : Conf} {s t : State} {v0 v1 : Word} (hram : s.params.memMap = [])
    (h : InputsAre c s v0 v1 t) : v0 = input0Of c s ∧ v1 = input1Of c s := by
  obtain ⟨s', hfetch0, hfetch1⟩ := h
  refine ⟨fetchInput_allRam (s := advance s) hram hfetch0, ?_⟩
  obtain ⟨hip, hsp⟩ := secondInput_place c s
  rw [fetchInput_ok hfetch0] at hfetch1
  have hv1 := fetchInput_allRam (by exact hram) hfetch1
  simp only [advance_ip, advance_sp, hip, hsp] at hv1
  exact hv1

/-! ### The instruction -/

theorem secondInput_agrees {c : Conf} {s t : State} {v0 : Word}
    (h : fetchInput c.i0 (advance s) = .ok v0 t) :
    AgreesUnless
      (refusesAny (inputAccess c.i1 (if c.i0 = .imm then s.ip + 4 else s.ip + 2)
        (if c.i0 = .pop then s.sp + 2 else s.sp)) s)
      (fetchInput c.i1 t) (fetchInput c.i1 (withoutBusErrors t)) := by
  have hstate := fetchInput_ok h
  obtain ⟨hip, hsp⟩ := secondInput_place c s
  rw [← hip, ← hsp]
  have hip' : t.ip = s.ip + 2 + (if c.i0 = .imm then 2 else 0) := by rw [hstate]; rfl
  have hsp' : t.sp = s.sp + (if c.i0 = .pop then 2 else 0) := by rw [hstate]; rfl
  have hparams : t.params = s.params := by rw [hstate]; rfl
  rw [← hip', ← hsp']
  exact (fetchInput_agrees c.i1 t).mono (refusesAny_of_params hparams)

theorem output_agrees {i : Instr} {s t u : State} {v1 out : Word}
    (hin : InputsAre i.conf s (input0Of i.conf s) v1 t)
    (hcmd : commandMeaning i (input0Of i.conf s) v1 t = .ok out u) :
    AgreesUnless (refusesAny (outputAccess i s) s) (putOutput i.conf.r out u)
      (putOutput i.conf.r out (withoutBusErrors u)) := by
  have hsp : u.sp = if i = .spset i.conf then input0Of i.conf s else spAfterInputs i.conf s := by
    rw [commandMeaning_sp hcmd, inputsAre_state hin]
  have hparams : u.params = s.params := (commandMeaning_params hcmd).trans (inputsAre_params hin)
  unfold outputAccess
  rw [← hsp]
  exact (putOutput_agrees i.conf.r out u).mono (refusesAny_of_params hparams)

theorem refuses_iff {i : Instr} {s : State} (hc : condHolds i.conf.ex s.fr = true) :
    refuses i s ↔
      refusesAny (inputAccess i.conf.i0 (s.ip + 2) s.sp) s ∨
      refusesAny (inputAccess i.conf.i1 (if i.conf.i0 = .imm then s.ip + 4 else s.ip + 2)
        (if i.conf.i0 = .pop then s.sp + 2 else s.sp)) s ∨
      refusesAny (commandAccess i s) s ∨ refusesAny (outputAccess i s) s := by
  simp only [refuses, refusesAny, accessesOf, hc, if_true, List.mem_append, or_and_right, exists_or, or_assoc]

/-- Each part of an instruction sees no bus error but one on its own access, and where memory is all RAM that
access is the one the table names. -/
theorem execute_agrees {i : Instr} {s : State} (hram : s.params.memMap = []) :
    AgreesUnless (refuses i s) (execute i.conf (commandMeaning i) s)
      (execute i.conf (commandMeaning i) (withoutBusErrors s)) := by
  have hcond : condHolds i.conf.ex (withoutBusErrors s).fr = condHolds i.conf.ex s.fr := rfl
  rw [execute_eq, execute_eq, hcond]
  split
  case isFalse =>
    rw [skipped_eq, skipped_eq]
    exact .ok () { s with ip := nextIp i.conf s }
  case isTrue hc =>
    rw [refuses_iff hc]
    refine ((fetchInput_agrees i.conf.i0 (advance s)).mono .inl).bind fun v0 s1 hfetch0 => ?_
    refine (secondInput_agrees hfetch0).mono (.inr ∘ .inl) |>.bind fun v1 s2 hfetch1 => ?_
    have hin : InputsAre i.conf s v0 v1 s2 := ⟨s1, hfetch0, hfetch1⟩
    obtain ⟨rfl, rfl⟩ := inputsAre_allRam hram hin
    refine (commandMeaning_agrees hin).mono (.inr ∘ .inr ∘ .inl) |>.bind fun out s3 hcmd => ?_
    refine (output_agrees hin hcmd).mono (.inr ∘ .inr ∘ .inr) |>.bind fun _ s4 _ => ?_
    cases i.conf.f with
    | no => exact .ok () s4
    | yes => exact .ok () (modifyFlags .yes out s4)

/-- Settles O56: an instruction that is not refused agrees with itself on the platform without bus errors. -/
theorem onlyRefusedAccessesMatter : Obligations.OnlyRefusedAccessesMatter := by
  intro i s hram hnot
  have hagrees := execute_agrees (i := i) hram
  have hparams : ∀ t, execute i.conf (commandMeaning i) s = .ok () t → t.params = s.params :=
    fun _ => execute_params
  rw [exec_eq_runInstr, exec_eq_runInstr]
  unfold runInstr
  generalize execute i.conf (commandMeaning i) s = r at hagrees hparams ⊢
  generalize execute i.conf (commandMeaning i) (withoutBusErrors s) = r' at hagrees ⊢
  cases hagrees with
  | refused hp => exact absurd hp hnot
  | ok u t =>
    refine ⟨fun t' h => ?_, nofun⟩
    cases h
    rw [← hparams t rfl]
    rfl
  | fault e =>
    refine ⟨nofun, fun e' h => ?_⟩
    cases h
    rfl

end Sys2Proof.Machine

/-! ## The encoding: the decoder and the encoder invert each other (O1 to O5), and the condition table (O8)

That the fields of an instruction's word, read back, are the instruction's own is the law `encodedFields_of`.
The other half of the round trip is that these fields determine the word. -/

namespace Sys2Proof.Machine

/-! ### The command map (`30_encoding.md` R88, R90) -/

theorem commandOf_commandCode (i : Instr) : commandOf (commandCode i) i.conf = some i := by
  cases i <;> rfl

/-- An instruction that the command map gives has the code it stands at and the configuration it was given. -/
theorem code_and_conf_of_commandOf {cmd : BitVec 6} {c : Conf} {i : Instr} (h : commandOf cmd c = some i) :
    commandCode i = cmd ∧ i.conf = c := by
  unfold commandOf at h
  split at h
  all_goals cases h
  all_goals next hcode => exact ⟨BitVec.eq_of_toNat_eq hcode.symm, rfl⟩

theorem commandCode_not_reserved (i : Instr) : (commandCode i).toNat ≠ 1 ∧ (commandCode i).toNat < 35 := by
  cases i <;> simp [commandCode]

theorem exists_commandOf_iff (cmd : BitVec 6) (c : Conf) :
    (∃ i, commandOf cmd c = some i) ↔ cmd.toNat ≠ 1 ∧ cmd.toNat < 35 := by
  constructor
  · rintro ⟨i, hi⟩
    obtain ⟨rfl, _⟩ := code_and_conf_of_commandOf hi
    exact commandCode_not_reserved i
  · rintro ⟨h1, h35⟩
    unfold commandOf
    split
    any_goals exact ⟨_, rfl⟩
    simp only [imp_false] at *
    omega

/-! ### The decoder -/

theorem decodeWord_eq_ok_iff {w : Word} {i : Instr} :
    decodeWord w = .ok i ↔ w.getLsbD 15 = false ∧ commandOf (w.extractLsb' 9 6) (confOf w) = some i := by
  unfold decodeWord
  cases w.getLsbD 15 with
  | true => simp
  | false => cases commandOf (w.extractLsb' 9 6) (confOf w) <;> simp

/-- The words that decode (`30_encoding.md` R89, R90). -/
theorem exists_decodeWord_iff (w : Word) :
    (∃ i, decodeWord w = .ok i) ↔
      w.getLsbD 15 = false ∧ (w.extractLsb' 9 6).toNat ≠ 1 ∧ (w.extractLsb' 9 6).toNat < 35 := by
  simp only [decodeWord_eq_ok_iff, exists_and_left, exists_commandOf_iff]

theorem decodeWord_encodeWord (i : Instr) : decodeWord (encodeWord i) = .ok i := by
  obtain ⟨h15, hcmd, hconf⟩ := encodedFields_of i
  rw [decodeWord_eq_ok_iff, hcmd, hconf]
  exact ⟨h15, commandOf_commandCode i⟩

theorem decode_encodeBytes_append (i : Instr) (rest : List Byte) :
    decode (encodeBytes i ++ rest) = .ok (i, rest) := by
  show decode (lowByte (encodeWord i) :: highByte (encodeWord i) :: rest) = .ok (i, rest)
  rw [decode, wordOfBytes_low_high, decodeWord_encodeWord]

/-- Settles O1: the fields read back from the word are the instruction's, and the two bytes give the word. -/
theorem decodeOfEncodeIsIdentity : Obligations.DecodeOfEncodeIsIdentity :=
  fun i rest => ⟨decodeWord_encodeWord i, decode_encodeBytes_append i rest⟩

/-! ### The fields determine the word -/

theorem conditionCode_conditionOf : ∀ k : BitVec 3, conditionCode (conditionOf k) = k := by decide

theorem inputCode_inputOf : ∀ k : BitVec 2, inputCode (inputOf k) = k := by decide

theorem flagMod_ite_injective :
    ∀ a b : Bool, (if a then FlagMod.yes else .no) = (if b then .yes else .no) → a = b := by decide

theorem outputMode_ite_injective :
    ∀ a b : Bool, (if a then OutputMode.push else .discard) = (if b then .push else .discard) → a = b := by
  decide

/-- The configuration read from a word determines each field it was read from. -/
theorem fields_eq_of_confOf_eq {v w : Word} (h : confOf v = confOf w) :
    v.extractLsb' 0 3 = w.extractLsb' 0 3 ∧ v.extractLsb' 3 2 = w.extractLsb' 3 2 ∧
      v.extractLsb' 5 2 = w.extractLsb' 5 2 ∧ v.getLsbD 7 = w.getLsbD 7 ∧ v.getLsbD 8 = w.getLsbD 8 := by
  simp only [confOf, Conf.mk.injEq] at h
  obtain ⟨hex, h0, h1, hf, hr⟩ := h
  refine ⟨?_, ?_, ?_, ?_, ?_⟩
  · rw [← conditionCode_conditionOf (v.extractLsb' 0 3), hex, conditionCode_conditionOf]
  · rw [← inputCode_inputOf (v.extractLsb' 3 2), h0, inputCode_inputOf]
  · rw [← inputCode_inputOf (v.extractLsb' 5 2), h1, inputCode_inputOf]
  · exact flagMod_ite_injective _ _ hf
  · exact outputMode_ite_injective _ _ hr

/-- Words with a field in common have its bits in common. -/
theorem getLsbD_eq_of_field_eq {v w : Word} {start width k : Nat}
    (h : v.extractLsb' start width = w.extractLsb' start width) (hlo : start ≤ k) (hhi : k < start + width) :
    v.getLsbD k = w.getLsbD k := by
  have hk := congrArg (fun x => BitVec.getLsbD x (k - start)) h
  simpa only [BitVec.getLsbD_extractLsb', show k - start < width by omega, decide_true, Bool.true_and,
    Nat.add_sub_cancel' hlo] using hk

/-- A word is determined by bit 15, its command and its configuration: no bit is left over. -/
theorem eq_of_fields_eq {v w : Word} (h15 : v.getLsbD 15 = w.getLsbD 15)
    (hcmd : v.extractLsb' 9 6 = w.extractLsb' 9 6) (hconf : confOf v = confOf w) : v = w := by
  obtain ⟨hex, h0, h1, hf, hr⟩ := fields_eq_of_confOf_eq hconf
  apply BitVec.eq_of_getLsbD_eq
  intro k hk
  have hplace : k < 3 ∨ 3 ≤ k ∧ k < 5 ∨ 5 ≤ k ∧ k < 7 ∨ k = 7 ∨ k = 8 ∨ 9 ≤ k ∧ k < 15 ∨ k = 15 := by omega
  rcases hplace with h | ⟨hlo, hhi⟩ | ⟨hlo, hhi⟩ | rfl | rfl | ⟨hlo, hhi⟩ | rfl
  · exact getLsbD_eq_of_field_eq hex k.zero_le (by omega)
  · exact getLsbD_eq_of_field_eq h0 hlo hhi
  · exact getLsbD_eq_of_field_eq h1 hlo hhi
  · exact hf
  · exact hr
  · exact getLsbD_eq_of_field_eq hcmd hlo hhi
  · exact h15

theorem encodeWord_of_decodeWord {w : Word} {i : Instr} (h : decodeWord w = .ok i) : encodeWord i = w := by
  obtain ⟨hw15, hmap⟩ := decodeWord_eq_ok_iff.1 h
  obtain ⟨hwcmd, hwconf⟩ := code_and_conf_of_commandOf hmap
  obtain ⟨h15, hcmd, hconf⟩ := encodedFields_of i
  exact eq_of_fields_eq (h15.trans hw15.symm) (hcmd.trans hwcmd) (hconf.trans hwconf)

/-- Settles O2: the word of the instruction has the fields of the word that was decoded. -/
theorem encodeOfDecodeIsIdentity : Obligations.EncodeOfDecodeIsIdentity :=
  fun _ _ => encodeWord_of_decodeWord

/-! ### The word as a number (`30_encoding.md` R81) -/

theorem toNat_append_eq_add {m n : Nat} (x : BitVec m) (y : BitVec n) :
    (x ++ y).toNat = x.toNat * 2 ^ n + y.toNat := by
  rw [BitVec.toNat_append, ← Nat.shiftLeft_add_eq_or_of_lt y.isLt, Nat.shiftLeft_eq]

/-- Settles O3: each field put behind the others moves them up by its width. -/
theorem wordIsPackedFromFields : Obligations.WordIsPackedFromFields := by
  intro i
  simp only [encodeWord, toNat_append_eq_add]
  rw [show (0 : BitVec 1).toNat = 0 from rfl]
  ring

/-! ### Reserved words (`30_encoding.md` R89, R90) -/

theorem fetchInstr_reserved {s : State} (h : DefaultPlatform s) (hip : isEven s.ip)
    (hword : ∀ i, decodeWord (wordAt s s.ip) ≠ .ok i) : fetchInstr s = .fault .reservedEncoding := by
  unfold fetchInstr
  rw [fetch16_default h s.ip hip, Res.bind_ok]
  split
  · next i hi => exact absurd hi (hword i)
  · rfl

theorem step_eq_fault {s s1 : State} {e : Fault} (hphase : interruptPhase s = .ok () s1)
    (hrun : s1.halted = false) (hfetch : fetchInstr s1 = .fault e) : step s = .fault e := by
  unfold step cycle instructionPhase
  rw [hphase]
  simp [hrun, hfetch]

/-- Settles O4: the fetch rejects the word before its condition is looked at. -/
theorem reservedWordsAreUndefined : Obligations.ReservedWordsAreUndefined := by
  refine ⟨exists_decodeWord_iff, fun s hquiet hrun hd hip hres => ?_⟩
  have hword : ∀ i, decodeWord (wordAt s s.ip) ≠ .ok i := by
    intro i hi
    obtain ⟨h15, h1, h35⟩ := (exists_decodeWord_iff _).1 ⟨i, hi⟩
    rcases hres with hbit | hone | hhigh
    · exact absurd (h15.symm.trans hbit) (by decide)
    · exact h1 hone
    · omega
  exact step_eq_fault (interruptPhase_undisturbed hquiet) hrun
    (fetchInstr_reserved (s := afterSample s) hd hip hword)

/-! ### The sample words and the condition table -/

/-- Settles O5: the five words are those of their instructions; of the two others one has command 1 and one
has bit 15 set. -/
theorem sampleWordsDecode : Obligations.SampleWordsDecode :=
  ⟨decodeWord_encodeWord (.add ⟨.always, .pop, .pop, .no, .push⟩),
    decodeWord_encodeWord (.sub ⟨.always, .pop, .imm, .yes, .push⟩),
    decodeWord_encodeWord (.store16 ⟨.always, .imm, .imm, .no, .discard⟩),
    decodeWord_encodeWord (.setip ⟨.nonzero, .imm, .zero, .no, .discard⟩),
    decodeWord_encodeWord (.intr ⟨.overflow, .pop, .pop, .yes, .push⟩), rfl, rfl⟩

/-- The number of the column of the condition table that `FR` selects (`95_test_vectors.md` 3.1). -/
theorem toNat_mod_eight (fr : Word) :
    fr.toNat % 8 = (zFlag fr).toNat + 2 * (nFlag fr).toNat + 4 * (cFlag fr).toNat := by
  simp only [zFlag, nFlag, cFlag, BitVec.getLsbD, Nat.toNat_testBit]
  omega

/-- Settles O8: the column is given by Z, N and C alone, and each row is read off at its eight columns. -/
theorem conditionsFollowTheTable : Obligations.ConditionsFollowTheTable := by
  refine ⟨fun ex fr => ?_, rfl, rfl, rfl, rfl, rfl, rfl, rfl, rfl⟩
  rw [toNat_mod_eight]
  unfold condHolds
  generalize zFlag fr = z, nFlag fr = n, cFlag fr = c
  cases ex <;> revert z n c <;> decide

end Sys2Proof.Machine

/-! ## The execution cycle: the step, the condition, the frame around a command, and waiting (O6, O7, O9, O27, O54)

An executed instruction is its inputs, its command and its output in this order, so its frame is that of the
command between those of the inputs and of the output. The interrupt loop of a core that takes nothing only
clears the bits of `IR` that it visits. -/

namespace Sys2Proof.Machine

/-! ### The step is the instruction decoded at `IP` -/

theorem fetchInstr_of_fetch16 {s t : State} {w : Word} {i : Instr} (hword : fetch16 s.ip s = .ok w t)
    (hdecode : decodeWord w = .ok i) : fetchInstr s = .ok i t := by
  unfold fetchInstr
  rw [hword, Res.bind_ok, hdecode]

/-- The decoder reads two bytes as one word and leaves the rest. -/
theorem decodeWord_of_decode {lo hi : Byte} {rest rest' : List Byte} {i : Instr}
    (h : decode (lo :: hi :: rest) = .ok (i, rest')) : decodeWord (wordOfBytes lo hi) = .ok i := by
  simp only [decode] at h
  split at h
  · next hword => cases h; exact hword
  · cases h

/-- Settles O6: the fetched word is the one decoded, and an undisturbed core fetches it at its own `IP`. -/
theorem stepRunsDecodedInstruction : Obligations.StepRunsDecodedInstruction := by
  refine ⟨fun s s1 s2 w i hphase hrun hword hdecode => ?_, fun s i rest hquiet hrun hd hip hbytes => ?_⟩
  · exact step_eq_exec hphase hrun (fetchInstr_of_fetch16 hword hdecode)
  · exact step_eq_exec (interruptPhase_undisturbed hquiet) hrun
      (fetchInstr_default (s := afterSample s) hd hip (decodeWord_of_decode hbytes))

/-! ### A skipped instruction (`40_execution_cycle.md` R122) -/

theorem execute_skipped {c : Conf} {s : State} (command : Command) (hc : condHolds c.ex s.fr = false) :
    execute c command s = .ok () { s with ip := nextIp c s } := by
  rw [execute_eq, if_neg (by rw [hc]; exact Bool.false_ne_true), skipped_eq]

/-- The next instruction in sequence stands behind the instruction's word and its immediates
(`30_encoding.md` R80, R86). -/
theorem nextIp_eq_add_length (i : Instr) (s : State) :
    nextIp i.conf s = s.ip + BitVec.ofNat 16 i.length := by
  unfold nextIp Instr.length Conf.immediates
  by_cases h0 : i.conf.i0 = .imm <;> by_cases h1 : i.conf.i1 = .imm <;>
    simp [h0, h1, BitVec.add_assoc]

/-- Settles O7: no access is made, so nothing can fault or be refused, and `IP` moves by the length. -/
theorem skippedInstructionOnlyAdvances : Obligations.SkippedInstructionOnlyAdvances := by
  intro i s hc
  rw [exec_eq_runInstr, runInstr, execute_skipped _ hc, nextIp_eq_add_length]
  rfl

/-! ### The flag modification (`40_execution_cycle.md` R124) -/

theorem withZN_getLsbD (output fr : Word) (k : Nat) :
    (withZN output fr).getLsbD k =
      if k = 1 then output.getLsbD 15 else if k = 0 then decide (output = 0) else fr.getLsbD k := by
  rw [← flagsOf_eq_withZN, flagsOf_getLsbD]

/-- The flags of an output, one clause for Z, for N and for the bits above. -/
theorem withZN_bits (output fr : Word) : (withZN output fr).getLsbD 0 = decide (output = 0) ∧
    (withZN output fr).getLsbD 1 = output.getLsbD 15 ∧
    ∀ k, 2 ≤ k → (withZN output fr).getLsbD k = fr.getLsbD k := by
  refine ⟨?_, ?_, fun k hk => ?_⟩
  · rw [withZN_getLsbD, if_neg (by decide), if_pos rfl]
  · rw [withZN_getLsbD, if_pos rfl]
  · rw [withZN_getLsbD, if_neg (by omega), if_neg (by omega)]

/-- A pushed output leaves `FR`, so the delivery writes it by `f` alone. -/
theorem deliver_fr (c : Conf) (output : Word) (t : State) :
    (deliver c output t).fr = if c.f = .yes then withZN output t.fr else t.fr := by
  unfold deliver
  cases c.r <;> cases c.f <;> rfl

theorem exec_copy_default {c : Conf} {s : State} (h : Runs c s) :
    exec (.copy c) s = .next (deliver c (input0Of c s) (afterInputs c s)) := by
  obtain ⟨hready, hc⟩ := h
  have ⟨hd, _, hsp⟩ := hready
  rw [exec_eq_runInstr]
  exact runInstr_default (command := copyCommand) (t := afterInputs c s) hready hc rfl hd
    (spAfterInputs_even hsp)

/-- Settles O9: `COPY` delivers `input0`, and the delivery writes the flags of its output or none. -/
theorem flagModificationFollowsTheOutput : Obligations.FlagModificationFollowsTheOutput := by
  refine ⟨fun c s hruns => ⟨_, exec_copy_default hruns, fun hf => ?_, fun hf => ?_⟩, withZN_bits⟩
  · rw [deliver_fr, if_pos hf]
    exact withZN_bits (input0Of c s) s.fr
  · rw [deliver_fr, if_neg (by rw [hf]; decide)]
    rfl

/-! ### The frame of an executed instruction, from that of its command -/

/-- Where no access is refused, an instruction that executes ran through its inputs, its command and its
output (`40_execution_cycle.md` R113). -/
theorem exec_executed {i : Instr} {s t : State} (hb : s.params.busErrors = [])
    (hc : condHolds i.conf.ex s.fr = true) (h : exec i s = .next t) :
    ∃ v0 v1 out s2 s3 s4, InputsAre i.conf s v0 v1 s2 ∧ commandMeaning i v0 v1 s2 = .ok out s3 ∧
      putOutput i.conf.r out s3 = .ok () s4 ∧ t = modifyFlags i.conf.f out s4 := by
  rcases exec_next h with hdone | ⟨_, hbus, _, _⟩
  · rcases execute_ok hdone with ⟨hskip, _⟩ | ⟨_, hran⟩
    · exact absurd (hc.symm.trans hskip) (by decide)
    · exact hran
  · exact absurd hb (execute_bus_refused hbus)

theorem byteAt_modifyFlags (f : FlagMod) (v : Word) (s : State) (a : Word) :
    byteAt (modifyFlags f v s) a = byteAt s a := by
  cases f <;> rfl

theorem modifyFlags_flagsUnchangedBut (c : Conf) (v : Word) (s : State) :
    FlagsUnchangedBut c [] s (modifyFlags c.f v s) := by
  intro k _ hk
  refine modifyFlags_fr_getLsbD c.f v s k fun hlt => ?_
  cases hf : c.f with
  | no => rfl
  | yes => exact absurd ⟨hf, by omega⟩ hk

/-- What the output and the flag modification change of the state `s` that a command leaves
(`40_execution_cycle.md` R123, R124): `SP` and the word below it if the output is pushed, and Z and N if `f` is
set. (`IP` is kept too, but the frame statements do not speak of it.) -/
structure OutputFrame (c : Conf) (s t : State) : Prop where
  sp : t.sp = s.sp - (if c.r = .push then 2 else 0)
  bp : t.bp = s.bp
  ir : t.ir = s.ir
  halted : t.halted = s.halted
  params : t.params = s.params
  pins : t.pins = s.pins
  flags : FlagsUnchangedBut c [] s t
  memory : UnchangedButPush c s.sp s t

/-- Putting an output changes `SP`, memory and the devices' state alone. -/
theorem putOutput_frame {r : OutputMode} {v : Word} {s t : State} {u : Unit}
    (h : putOutput r v s = .ok u t) :
    t = { s with sp := s.sp - (if r = .push then 2 else 0), mem := t.mem, device := t.device } ∧
      ∀ a, ¬ (r = .push ∧ inWord (s.sp - 2) a) → byteAt t a = byteAt s a := by
  rcases putOutput_ok h with ⟨rfl, rfl⟩ | ⟨rfl, hpush⟩
  · exact ⟨by apply State.ext <;> simp, fun _ _ => rfl⟩
  · obtain ⟨hstate, _, _, hother⟩ := push_ok hpush
    exact ⟨hstate, fun a ha => hother a fun hin => ha ⟨rfl, hin⟩⟩

theorem outputFrame_of_putOutput {c : Conf} {out : Word} {s t : State} {u : Unit}
    (h : putOutput c.r out s = .ok u t) : OutputFrame c s (modifyFlags c.f out t) := by
  obtain ⟨hstate, hother⟩ := putOutput_frame h
  have hfr : t.fr = s.fr := by rw [hstate]
  have hflags := modifyFlags_flagsUnchangedBut c out t
  unfold FlagsUnchangedBut at hflags
  rw [hfr] at hflags
  exact {
    sp := by rw [modifyFlags_sp, hstate]
    bp := by rw [modifyFlags_bp, hstate]
    ir := by rw [modifyFlags_ir, hstate]
    halted := by rw [modifyFlags_halted, hstate]
    params := by rw [modifyFlags_params, hstate]
    pins := by rw [modifyFlags_pins, hstate]
    flags := hflags
    memory := fun a ha => (byteAt_modifyFlags _ _ _ _).trans (hother a ha) }

/-! ### The commands that only compute an output -/

/-- The commands without an effect of their own (`41_data_movement.md`, `42_system_registers.md`,
`44_logic_shift.md`). -/
def onlyComputes : Instr → Bool
  | .copy _ | .get _ | .load8 _ | .load16 _ | .cpuid _ | .frget _ | .bpget _ | .spget _ | .and _ | .or _
  | .xor _ | .not _ | .signext _ | .rol _ | .ror _ | .bswap _ | .asr _ | .lsl _ | .lsr _ => true
  | .set _ | .store8 _ | .store16 _ | .halt _ | .frset _ | .bpset _ | .spset _ | .add _ | .sub _ | .mul _
  | .div _ | .mod _ | .setip _ | .addip _ | .intr _ => false

/-- Such a command draws a free word or reads a device at most. -/
theorem commandMeaning_of_onlyComputes {i : Instr} {v0 v1 out : Word} {s t : State}
    (hi : onlyComputes i = true) (h : commandMeaning i v0 v1 s = .ok out t) :
    t = { s with draws := t.draws, device := t.device } := by
  cases i with
  | get _ | load8 _ | load16 _ => rw [memRead_state h]
  | cpuid _ => rw [cpuidCommand_ok h]
  | frget _ | bpget _ | spget _ => cases h; rfl
  | copy _ | and _ | or _ | xor _ | not _ | signext _ | rol _ | ror _ | bswap _ | asr _ | lsl _ | lsr _ =>
    cases h; rfl
  | set _ | store8 _ | store16 _ | halt _ | frset _ | bpset _ | spset _ | add _ | sub _ | mul _
  | div _ | mod _ | setip _ | addip _ | intr _ => cases hi

/-- An instruction that only computes leaves the state as its inputs and its output do. -/
theorem exec_of_onlyComputes {i : Instr} {s t : State} (hi : onlyComputes i = true)
    (hb : s.params.busErrors = []) (hc : condHolds i.conf.ex s.fr = true) (h : exec i s = .next t) :
    ∃ n d, OutputFrame i.conf { afterInputs i.conf s with draws := n, device := d } t := by
  obtain ⟨v0, v1, out, s2, s3, s4, hin, hcmd, hout, rfl⟩ := exec_executed hb hc h
  have hs3 : s3 = { afterInputs i.conf s with draws := s3.draws, device := s3.device } := by
    rw [commandMeaning_of_onlyComputes hi hcmd, inputsAre_state hin]
    rfl
  have hframe := outputFrame_of_putOutput hout
  rw [hs3] at hframe
  exact ⟨_, _, hframe⟩

/-- Settles O27: the commands listed are those that only compute, so `SP` moves by the pops and the push. -/
theorem frameOfComputingCommands : Obligations.FrameOfComputingCommands := by
  intro c s t i hi hb hc h
  have hlisted : onlyComputes i = true ∧ i.conf = c := by
    revert i
    simp [onlyComputes, Instr.conf]
  obtain ⟨hcomputes, rfl⟩ := hlisted
  obtain ⟨n, d, hframe⟩ := exec_of_onlyComputes hcomputes hb hc h
  exact ⟨hframe.sp, hframe.bp, hframe.ir, hframe.halted, hframe.params, hframe.pins, hframe.flags,
    hframe.memory⟩

/-! ### A core that waits (`40_execution_cycle.md` R128) -/

theorem step_of_halted {s t : State} (hphase : interruptPhase s = .ok () t) (hhalted : t.halted = true) :
    step s = .next t := by
  unfold step cycle instructionPhase
  rw [hphase]
  exact if_pos hhalted

theorem interruptBit_getLsbD_of_ne {n k : Nat} (h : k ≠ n) : (interruptBit n).getLsbD k = false := by
  rcases Nat.lt_or_gt_of_ne h with hbelow | habove
  · simp [interruptBit, hbelow]
  · have hpos : k - n ≠ 0 := by omega
    simp [interruptBit, hpos]

theorem and_not_interruptBit_of_getLsbD {v : Word} {n : Nat} (h : v.getLsbD n = false) :
    v &&& ~~~ interruptBit n = v := by
  apply BitVec.eq_of_getLsbD_eq
  intro k hk
  rw [BitVec.getLsbD_and, BitVec.getLsbD_not, decide_eq_true hk, Bool.true_and]
  by_cases hkn : k = n
  · rw [hkn, h, Bool.false_and]
  · rw [interruptBit_getLsbD_of_ne hkn, Bool.not_false, Bool.and_true]

/-- The pass of an interrupt that is not taken leaves its bit of `IR` clear, whether its trigger is lost or
was not there (`60_exceptions.md` R226). -/
theorem serveInterrupt_not_taken {n : Nat} {s : State} (h : (s.ir.getLsbD n && unmasked n s) = false) :
    serveInterrupt n s = .ok () { s with ir := s.ir &&& ~~~ interruptBit n } := by
  cases hbit : s.ir.getLsbD n with
  | false => rw [serveInterrupt_untriggered hbit, and_not_interruptBit_of_getLsbD hbit]
  | true =>
    have hmasked : unmasked n s = false := by rwa [hbit, Bool.true_and] at h
    unfold serveInterrupt
    rw [if_pos hbit]
    exact if_neg (Bool.eq_false_iff.1 hmasked)

/-- `IR` with the bits of the listed interrupts cleared. -/
def clearBits (ns : List Nat) (ir : Word) : Word := ns.foldl (fun v n => v &&& ~~~ interruptBit n) ir

/-- A loop that takes nothing clears the bits it visits. -/
theorem serveInterrupts_not_taken {ns : List Nat} {s : State}
    (h : ∀ n ∈ ns, (s.ir.getLsbD n && unmasked n s) = false) :
    serveInterrupts ns s = .ok () { s with ir := clearBits ns s.ir } := by
  induction ns generalizing s with
  | nil => rfl
  | cons n rest ih =>
    obtain ⟨hfirst, hrest⟩ := List.forall_mem_cons.1 h
    rw [serveInterrupts, serveInterrupt_not_taken hfirst, Res.bind_ok, ih]
    · rfl
    · intro k hk
      have hkept := hrest k hk
      show ((s.ir &&& ~~~ interruptBit n).getLsbD k && unmasked k s) = false
      rw [BitVec.getLsbD_and, Bool.and_right_comm, hkept, Bool.false_and]

/-- The loop visits every bit of `IR` but RST and the reserved ones. -/
theorem clearBits_interruptOrder (ir : Word) : clearBits interruptOrder ir = ir &&& 0xFF09 := by
  simp only [clearBits, interruptOrder, List.foldl_cons, List.foldl_nil, BitVec.and_assoc]
  rfl

theorem interruptPhase_not_taken {s : State} (hv : s.params.variant = .markII)
    (hbus : (nextSample s).bus = false) (hpending : pendingBits s &&& 0xFF09 = 0)
    (htake : ∀ n ∈ interruptOrder, willTake s n = false) :
    interruptPhase s = .ok () { afterSample s with ir := 0 } := by
  have hrst : (pendingBits s).getLsbD 0 = false := (and_eq_zero_iff _ _).1 hpending 0 (by decide)
  have hlegal : pendingBits s &&& reservedIr = 0 := by
    rw [show reservedIr = 0xFF09 &&& reservedIr by decide, ← BitVec.and_assoc, hpending]
    exact BitVec.zero_and
  rw [interruptPhase_markII hv hbus, hrst, if_neg Bool.false_ne_true, if_pos hlegal,
    serveInterrupts_not_taken (s := sampled s) htake, clearBits_interruptOrder]
  show Res.ok () { afterSample s with ir := pendingBits s &&& 0xFF09 } = _
  rw [hpending]

theorem interruptPhase_markIIL {s : State} (hv : s.params.variant = .markIIL)
    (hrst : (nextSample s).rst = false) : interruptPhase s = .ok () (afterSample s) := by
  unfold interruptPhase interruptPhaseL
  simp [hv, samplePins_eq_nextSample, hrst, consumePins_eq_afterSample]

/-- Settles O54: the interrupt phase takes nothing, so the core is still halted after it. -/
theorem haltedCoreWaits : Obligations.HaltedCoreWaits := by
  refine ⟨fun s hv hhalted hbus hpending htake => ?_, fun s hv hhalted hrst => ?_⟩
  · exact step_of_halted (interruptPhase_not_taken hv hbus hpending htake) hhalted
  · exact step_of_halted (interruptPhase_markIIL hv hrst) hhalted

end Sys2Proof.Machine

/-! ## Data movement: loads and stores (O10 to O13), and the frame of the stores (O30)

On the default platform an instruction delivers the output of its command and faults where its command does, so
each completion statement is what its command answers after the inputs. -/

namespace Sys2Proof.Machine

/-! ### An instruction by what its command answers after the inputs -/

/-- No command makes `SP` odd: `SPSET`, its one writer, refuses an odd value (`10_state.md` R35). -/
theorem CommandEffect.sp_even {i : Instr} {s t : State} (h : CommandEffect i s t) (hs : isEven s.sp) :
    isEven t.sp := by
  cases h with
  | keepsRegisters same _ => rw [same]; exact hs
  | spset _ even => exact even
  | arith _ _ =>
    show isEven (trigger 4 s).sp
    rw [trigger_sp]
    exact hs
  | carry | transfer | halt | frset | bpset | intr => exact hs

/-- A command keeps what the push of its output needs: the platform, and an even `SP`. -/
theorem exec_default {i : Instr} {s t : State} {out : Word} (h : Runs i.conf s)
    (hcmd : commandMeaning i (input0Of i.conf s) (input1Of i.conf s) (afterInputs i.conf s) = .ok out t) :
    exec i s = .next (deliver i.conf out t) := by
  obtain ⟨hready, hc⟩ := h
  have ⟨hd, _, hsp⟩ := hready
  have hparams : t.params = (afterInputs i.conf s).params := commandMeaning_params hcmd
  have hd' : DefaultPlatform t := by unfold DefaultPlatform; rw [hparams]; exact hd
  have hsp' : isEven t.sp := (commandMeaning_effect hcmd).sp_even (spAfterInputs_even hsp)
  rw [exec_eq_runInstr]
  exact runInstr_default hready hc hcmd hd' hsp'

theorem exec_default_fault {i : Instr} {s : State} {e : Fault} (h : Runs i.conf s)
    (hcmd : commandMeaning i (input0Of i.conf s) (input1Of i.conf s) (afterInputs i.conf s) = .fault e) :
    exec i s = .fault e := by
  obtain ⟨hready, hc⟩ := h
  rw [exec_eq_runInstr]
  exact runInstr_default_fault hready hc hcmd

theorem defaultPlatform_afterInputs {c : Conf} {s : State} (h : Runs c s) :
    DefaultPlatform (afterInputs c s) :=
  have ⟨⟨hd, _⟩, _⟩ := h
  hd

/-- Settles O10: the command only computes. -/
theorem copyOutputsInput0 : Obligations.CopyOutputsInput0 := fun _ _ => ⟨rfl, exec_copy_default⟩

/-! ### Loads (`41_data_movement.md` R141, R145, R146) -/

/-- Settles O11: the inputs leave memory as it was, so the word read is that of the state before. -/
theorem load16OutputsTheWord : Obligations.Load16OutputsTheWord := by
  refine fun c s => ⟨rfl, fun hruns => ⟨fun heven => ?_, fun hodd => ?_⟩⟩
  · have hread := memRead_word_default (defaultPlatform_afterInputs hruns) .data _ heven
    exact exec_default (i := .load16 c) hruns hread
  · exact exec_default_fault (i := .load16 c) hruns (memRead_word_odd .data _ hodd)

/-- A byte made a word with a zero high byte is the byte, zero-extended. -/
theorem wordOfBytes_zero (b : Byte) : wordOfBytes b 0 = b.setWidth 16 := by
  apply BitVec.eq_of_toNat_eq
  have hb : b.toNat % 2 ^ 16 = b.toNat := Nat.mod_eq_of_lt (by omega)
  rw [toNat_wordOfBytes, BitVec.toNat_setWidth, hb]
  simp

/-- Settles O12: neither input touches `BP` or memory, and a byte read has no alignment. -/
theorem getAndLoad8OutputMemory : Obligations.GetAndLoad8OutputMemory := by
  refine fun c s => ⟨⟨rfl, rfl⟩, fun hruns => ⟨fun heven => ?_, fun hodd => ?_, ?_⟩⟩
  · have hread := memRead_word_default (defaultPlatform_afterInputs hruns) .data _ heven
    exact exec_default (i := .get c) hruns hread
  · exact exec_default_fault (i := .get c) hruns (memRead_word_odd .data _ hodd)
  · have hread := memRead_byte_default (defaultPlatform_afterInputs hruns) .data (input0Of c s)
    rw [wordOfBytes_zero] at hread
    exact exec_default (i := .load8 c) hruns hread

/-! ### Stores (`41_data_movement.md` R142, R143, R144) -/

/-- `SET` and `STORE16` store a word and answer it. -/
theorem storeAndOutput_word_default {s : State} (h : DefaultPlatform s) {a : Word} (v : Word)
    (ha : isEven a) :
    ((memWrite .word a v s).bind fun _ t => .ok v t) = .ok v { s with mem := storeWord s.mem a v } := by
  rw [memWrite_word_default h a v ha, Res.bind_ok]

theorem storeAndOutput_word_odd (s : State) {a : Word} (v : Word) (ha : ¬ isEven a) :
    ((memWrite .word a v s).bind fun _ t => .ok v t) = .fault .unaligned := by
  rw [memWrite_of_fault v (checkAccess_odd s rfl ha), Res.bind_fault]

theorem store8Command_default {s : State} (h : DefaultPlatform s) (v0 v1 : Word) :
    store8Command v0 v1 s =
      .ok (v0 &&& 0x00FF) { s with mem := Memory.write s.mem v1.toNat (lowByte v0) } := by
  unfold store8Command
  rw [memWrite_byte_default h v1 v0, Res.bind_ok]

/-- Settles O13: what is stored, and whether it can be, is settled by the address alone. -/
theorem storesWriteMemoryAndOutput : Obligations.StoresWriteMemoryAndOutput := by
  refine fun c s => ⟨⟨rfl, rfl, rfl⟩, fun hruns => ?_⟩
  have hd := defaultPlatform_afterInputs hruns
  refine ⟨fun heven => ?_, fun hodd => ?_, ?_, fun heven => ?_, fun hodd => ?_⟩
  · exact exec_default (i := .set c) hruns (storeAndOutput_word_default hd _ heven)
  · exact exec_default_fault (i := .set c) hruns (storeAndOutput_word_odd _ _ hodd)
  · exact exec_default (i := .store8 c) hruns (store8Command_default hd _ _)
  · exact exec_default (i := .store16 c) hruns (storeAndOutput_word_default hd _ heven)
  · exact exec_default_fault (i := .store16 c) hruns (storeAndOutput_word_odd _ _ hodd)

/-! ### The frame of the stores -/

/-- The inputs of an instruction, and the state they leave, are determined. -/
theorem inputsAre_unique {c : Conf} {s t t' : State} {v0 v1 v0' v1' : Word} (h : InputsAre c s v0 v1 t)
    (h' : InputsAre c s v0' v1' t') : v0' = v0 ∧ v1' = v1 ∧ t' = t := by
  obtain ⟨s1, hfetch0, hfetch1⟩ := h
  obtain ⟨s1', hfetch0', hfetch1'⟩ := h'
  cases hfetch0.symm.trans hfetch0'
  cases hfetch1.symm.trans hfetch1'
  exact ⟨rfl, rfl, rfl⟩

/-- `SET`, `STORE8` and `STORE16`: the bytes that one writes, from the inputs and the state after them. -/
inductive StoreWrites (v0 v1 : Word) (s : State) : Instr → List Word → Prop where
  | set (c : Conf) : StoreWrites v0 v1 s (.set c) [frameAddress s v0, frameAddress s v0 + 1]
  | store8 (c : Conf) : StoreWrites v0 v1 s (.store8 c) [v1]
  | store16 (c : Conf) : StoreWrites v0 v1 s (.store16 c) [v1, v1 + 1]

/-- A store changes memory at the bytes it writes and, where a device stands, the devices' state. -/
theorem commandMeaning_of_storeWrites {i : Instr} {v0 v1 out : Word} {s t : State} {written : List Word}
    (hi : StoreWrites v0 v1 s i written) (h : commandMeaning i v0 v1 s = .ok out t) :
    t = { s with mem := t.mem, device := t.device } ∧ ∀ x, x ∉ written → byteAt t x = byteAt s x := by
  cases hi with
  | set _ =>
    obtain ⟨hstate, _, hother⟩ := memWrite_state (setCommand_ok h).2
    exact ⟨hstate, hother⟩
  | store8 _ =>
    obtain ⟨hstate, _, hother⟩ := memWrite_state (store8Command_ok h).2
    exact ⟨hstate, hother⟩
  | store16 _ =>
    obtain ⟨hstate, _, hother⟩ := memWrite_state (store16Command_ok h).2
    exact ⟨hstate, hother⟩

/-- A store that executes leaves the state as its inputs and its output do, but for the bytes it writes. -/
theorem exec_of_storeWrites {i : Instr} {s t s2 : State} {v0 v1 : Word} {written : List Word}
    (hin : InputsAre i.conf s v0 v1 s2) (hi : StoreWrites v0 v1 s2 i written)
    (hb : s.params.busErrors = []) (hc : condHolds i.conf.ex s.fr = true) (h : exec i s = .next t) :
    ∃ m d, OutputFrame i.conf { afterInputs i.conf s with mem := m, device := d } t ∧
      ∀ x, x ∉ written → byteAt { afterInputs i.conf s with mem := m, device := d } x = byteAt s x := by
  obtain ⟨_, _, out, _, s3, s4, hin', hcmd, hout, rfl⟩ := exec_executed hb hc h
  obtain ⟨rfl, rfl, rfl⟩ := inputsAre_unique hin hin'
  obtain ⟨hstate, hother⟩ := commandMeaning_of_storeWrites hi hcmd
  have hs2 := inputsAre_state hin
  have hs3 : s3 = { afterInputs i.conf s with mem := s3.mem, device := s3.device } := by
    rw [hstate, hs2]
    rfl
  have hframe := outputFrame_of_putOutput hout
  rw [hs3] at hframe
  refine ⟨_, _, hframe, fun x hx => ?_⟩
  rw [← hs3, hother x hx, hs2]
  rfl

/-- The addresses that the statement on the stores leaves out are those of the bytes written. -/
theorem exists_storeWrites {c : Conf} {i : Instr}
    (hi : i ∈ ([.set c, .store8 c, .store16 c] : List Instr)) (v0 v1 : Word) (s : State) :
    i.conf = c ∧ ∃ written, StoreWrites v0 v1 s i written ∧
      ∀ x, (i = .set c → ¬ inWord (frameAddress s v0) x) → (i = .store16 c → ¬ inWord v1 x) →
        (i = .store8 c → x ≠ v1) → x ∉ written := by
  simp only [List.mem_cons, List.not_mem_nil, or_false] at hi
  rcases hi with rfl | rfl | rfl
  · exact ⟨rfl, _, .set c, fun x hset _ _ hx => hset rfl (List.mem_pair.1 hx)⟩
  · exact ⟨rfl, _, .store8 c, fun x _ _ hbyte hx => hbyte rfl (List.mem_singleton.1 hx)⟩
  · exact ⟨rfl, _, .store16 c, fun x _ hword _ hx => hword rfl (List.mem_pair.1 hx)⟩

/-- Settles O30: the frame of the output around that of the store, whose address is given by the same `BP`
before the inputs and after them. -/
theorem frameOfStores : Obligations.FrameOfStores := by
  intro c s t s2 v0 v1 hb hc hin i hi h
  obtain ⟨rfl, written, hwrites, houtside⟩ := exists_storeWrites hi v0 v1 s2
  obtain ⟨m, d, hframe, hmem⟩ := exec_of_storeWrites hin hwrites hb hc h
  have hbp : frameAddress s2 v0 = frameAddress s v0 := by rw [inputsAre_state hin]; rfl
  rw [hbp] at houtside
  refine ⟨hframe.sp, hframe.bp, hframe.ir, hframe.halted, hframe.params, hframe.pins, hframe.flags,
    fun x hpush hset hword hbyte => ?_⟩
  exact (hframe.memory x hpush).trans (hmem x (houtside x hset hword hbyte))

end Sys2Proof.Machine

/-! ## System and register commands (O14 to O18), and the frames of the register writers (O31, O32)

Each of these commands reads or writes one register of the state after the inputs, so a completion statement is
the equation of its command there, and a frame is that register between the frames of the inputs and of the
output. -/

namespace Sys2Proof.Machine

/-! ### Register writes that are undefined (`10_state.md` R32, R35) -/

theorem writeSp_odd {v : Word} (s : State) (h : ¬ isEven v) : writeSp v s = .fault .reservedBit :=
  if_pos (Bool.eq_true_of_not_eq_false h)

theorem writeBp_odd {v : Word} (s : State) (h : ¬ isEven v) : writeBp v s = .fault .reservedBit :=
  if_pos (Bool.eq_true_of_not_eq_false h)

theorem writeFr_reserved {v : Word} {s : State} (h : v &&& reservedFr s.params ≠ 0) :
    writeFr v s = .fault .reservedBit := if_neg h

/-- The reserved bits of `FR` are [15:8], and [7:4] where the variant and `L_FR_I` reserve them too. -/
theorem reservedFr_eq (p : Params) :
    reservedFr p = if p.variant = .markIIL ∧ p.lFrI = .reserved then 0xFFF0 else 0xFF00 := by
  unfold reservedFr
  cases p.variant <;> cases p.lFrI <;> rfl

/-! ### The commands -/

theorem cpuidCommand_zero {v0 v1 : Word} (s : State) (h : v0 = 0 ∧ v1 = 0) :
    cpuidCommand v0 v1 s = .ok 0 s := if_pos h

theorem cpuidCommand_nonzero {v0 v1 : Word} (s : State) (h : ¬ (v0 = 0 ∧ v1 = 0)) :
    cpuidCommand v0 v1 s = .ok (Config.freeWord s.draws) { s with draws := s.draws + 1 } := if_neg h

theorem frsetCommand_legal {v0 v1 : Word} {s : State}
    (h : ((v0 &&& ~~~ v1) ||| (s.fr &&& v1)) &&& reservedFr s.params = 0) :
    frsetCommand v0 v1 s = .ok s.fr { s with fr := (v0 &&& ~~~ v1) ||| (s.fr &&& v1) } := by
  unfold frsetCommand
  rw [writeFr_legal s h, Res.bind_ok]

theorem frsetCommand_reserved {v0 v1 : Word} {s : State}
    (h : ((v0 &&& ~~~ v1) ||| (s.fr &&& v1)) &&& reservedFr s.params ≠ 0) :
    frsetCommand v0 v1 s = .fault .reservedBit := by
  unfold frsetCommand
  rw [writeFr_reserved h, Res.bind_fault]

theorem bpsetCommand_even {v0 : Word} (v1 : Word) (s : State) (h : isEven v0) :
    bpsetCommand v0 v1 s = .ok s.bp { s with bp := v0 } := by
  unfold bpsetCommand
  rw [writeBp_even s h, Res.bind_ok]

theorem bpsetCommand_odd {v0 : Word} (v1 : Word) (s : State) (h : ¬ isEven v0) :
    bpsetCommand v0 v1 s = .fault .reservedBit := by
  unfold bpsetCommand
  rw [writeBp_odd s h, Res.bind_fault]

theorem spsetCommand_even {v0 : Word} (v1 : Word) (s : State) (h : isEven v0) :
    spsetCommand v0 v1 s = .ok s.sp { s with sp := v0 } := by
  unfold spsetCommand
  rw [writeSp_even s h, Res.bind_ok]

theorem spsetCommand_odd {v0 : Word} (v1 : Word) (s : State) (h : ¬ isEven v0) :
    spsetCommand v0 v1 s = .fault .reservedBit := by
  unfold spsetCommand
  rw [writeSp_odd s h, Res.bind_fault]

/-! ### What the instructions complete with -/

/-- Settles O14: `CPUID` draws a word unless both its inputs are zero. -/
theorem cpuidOutputsZeroOrFree : Obligations.CpuidOutputsZeroOrFree := by
  refine fun c s => ⟨rfl, fun hruns => ⟨fun hzero => ?_, fun hnonzero => ?_⟩⟩
  · exact exec_default (i := .cpuid c) hruns (cpuidCommand_zero _ hzero)
  · exact exec_default (i := .cpuid c) hruns (cpuidCommand_nonzero _ hnonzero)

/-- Settles O15: `HALT` answers whatever its inputs are, and the inputs left `IP` at the next instruction. -/
theorem haltStopsTheCore : Obligations.HaltStopsTheCore :=
  fun c _ => ⟨rfl, fun hruns => exec_default (i := .halt c) hruns rfl⟩

/-- Settles O16: the inputs touch neither `FR` nor `BP`, and leave `SP` after their pops. -/
theorem registerReadsOutputTheRegister : Obligations.RegisterReadsOutputTheRegister := by
  refine fun c s => ⟨⟨rfl, rfl, rfl⟩, fun hruns => ⟨?_, ?_, ?_⟩⟩
  · exact exec_default (i := .frget c) hruns rfl
  · exact exec_default (i := .bpget c) hruns rfl
  · exact exec_default (i := .spget c) hruns rfl

/-- Settles O17: the write is legal just if no reserved bit of the platform is set. -/
theorem frsetReplacesUnmaskedBits : Obligations.FrsetReplacesUnmaskedBits := by
  refine fun c s => ⟨rfl, fun hruns => ?_⟩
  intro new reserved
  have hreserved : reservedFr (afterInputs c s).params = reserved := reservedFr_eq s.params
  refine ⟨fun hlegal => ?_, fun hillegal => ?_⟩
  · rw [← hreserved] at hlegal
    exact exec_default (i := .frset c) hruns (frsetCommand_legal hlegal)
  · rw [← hreserved] at hillegal
    exact exec_default_fault (i := .frset c) hruns (frsetCommand_reserved hillegal)

/-- Settles O18: bit 0 of `input0` settles whether the register can take it. -/
theorem pointerWritesOutputTheOldValue : Obligations.PointerWritesOutputTheOldValue := by
  refine fun c s => ⟨⟨rfl, rfl⟩, fun hruns => ⟨fun heven => ⟨?_, ?_⟩, fun hodd => ⟨?_, ?_⟩⟩⟩
  · exact exec_default (i := .bpset c) hruns (bpsetCommand_even (input1Of c s) _ heven)
  · exact exec_default (i := .spset c) hruns (spsetCommand_even (input1Of c s) _ heven)
  · exact exec_default_fault (i := .bpset c) hruns (bpsetCommand_odd (input1Of c s) _ hodd)
  · exact exec_default_fault (i := .spset c) hruns (spsetCommand_odd (input1Of c s) _ hodd)

/-! ### The frames -/

/-- An instruction that executes is its inputs, its command, and the frame of its output. -/
theorem exec_outputFrame {i : Instr} {s t : State} (hb : s.params.busErrors = [])
    (hc : condHolds i.conf.ex s.fr = true) (h : exec i s = .next t) :
    ∃ v0 v1 out s2 s3, InputsAre i.conf s v0 v1 s2 ∧ commandMeaning i v0 v1 s2 = .ok out s3 ∧
      OutputFrame i.conf s3 t := by
  obtain ⟨v0, v1, out, s2, s3, s4, hin, hcmd, hout, rfl⟩ := exec_executed hb hc h
  exact ⟨v0, v1, out, s2, s3, hin, hcmd, outputFrame_of_putOutput hout⟩

/-- Settles O32: the push of the output is below the `SP` that the command set to `input0`. -/
theorem frameOfSpset : Obligations.FrameOfSpset := by
  intro c s t s2 v0 v1 hb hc hin h
  obtain ⟨_, _, _, _, s3, hin', hcmd, hframe⟩ := exec_outputFrame (i := .spset c) hb hc h
  obtain ⟨rfl, rfl, rfl⟩ := inputsAre_unique hin' hin
  obtain ⟨_, rfl, _⟩ := spsetCommand_ok (v1 := v1) hcmd
  rw [inputsAre_state hin] at hframe
  exact ⟨hframe.sp, hframe.bp, hframe.ir, hframe.halted, hframe.params, hframe.pins, hframe.flags,
    hframe.memory⟩

/-- `BPSET`, `FRSET` and `HALT`: what one may write of the state `s` after the inputs, given its mask `v1`
(`42_system_registers.md` R151, R153, R155). -/
structure RegisterWrite (c : Conf) (i : Instr) (v1 : Word) (s t : State) : Prop where
  others : t = { s with bp := t.bp, fr := t.fr, halted := t.halted, draws := t.draws }
  bp : i ≠ .bpset c → t.bp = s.bp
  fr : i ≠ .frset c → t.fr = s.fr
  masked : ∀ k, v1.getLsbD k = true → t.fr.getLsbD k = s.fr.getLsbD k
  halted : i ≠ .halt c → t.halted = s.halted

/-- A masked replacement keeps the bits of its mask (`42_system_registers.md` R153). -/
theorem replaceUnmasked_getLsbD {mask : Word} {k : Nat} (v old : Word) (h : mask.getLsbD k = true) :
    ((v &&& ~~~ mask) ||| (old &&& mask)).getLsbD k = old.getLsbD k := by
  simp [h]

theorem commandMeaning_registerWrite {c : Conf} {i : Instr}
    (hi : i ∈ ([.bpset c, .frset c, .halt c] : List Instr)) {v0 v1 out : Word} {s t : State}
    (h : commandMeaning i v0 v1 s = .ok out t) : RegisterWrite c i v1 s t := by
  simp only [List.mem_cons, List.not_mem_nil, or_false] at hi
  rcases hi with rfl | rfl | rfl
  · obtain ⟨_, rfl, _⟩ := bpsetCommand_ok (v1 := v1) h
    exact ⟨rfl, fun hne => absurd rfl hne, fun _ => rfl, fun _ _ => rfl, fun _ => rfl⟩
  · obtain ⟨_, rfl, _⟩ := frsetCommand_ok h
    exact ⟨rfl, fun _ => rfl, fun hne => absurd rfl hne, fun _ => replaceUnmasked_getLsbD _ _, fun _ => rfl⟩
  · obtain rfl := haltCommand_ok (v0 := v0) (v1 := v1) h
    exact ⟨rfl, fun _ => rfl, fun _ => rfl, fun _ _ => rfl, fun hne => absurd rfl hne⟩

theorem conf_of_mem_registerWriters {c : Conf} {i : Instr}
    (hi : i ∈ ([.bpset c, .frset c, .halt c] : List Instr)) : i.conf = c := by
  simp only [List.mem_cons, List.not_mem_nil, or_false] at hi
  rcases hi with rfl | rfl | rfl <;> rfl

/-- Settles O31: the frame of the output around that of the command's one register. -/
theorem frameOfRegisterWriters : Obligations.FrameOfRegisterWriters := by
  intro c s t i hi hb hc h
  obtain rfl := conf_of_mem_registerWriters hi
  obtain ⟨v0, v1, out, s2, s3, hin, hcmd, hframe⟩ := exec_outputFrame hb hc h
  have hwrite := commandMeaning_registerWrite hi hcmd
  have hs2 := sameControl_of_inputsAre hin
  have hs3 : s3 = { afterInputs i.conf s with
      bp := s3.bp, fr := s3.fr, halted := s3.halted, draws := s3.draws, device := s2.device } := by
    rw [hwrite.others, inputsAre_state hin]
    rfl
  have hbits := hframe.flags
  rw [hs3] at hframe
  refine ⟨hframe.sp, hframe.ir, hframe.params, hframe.pins, fun hne => ?_, fun hne k hk hf => ?_,
    fun _ _ _ hin' k hmask hf => ?_, fun hne => ?_, hframe.memory⟩
  · exact hframe.bp.trans ((hwrite.bp hne).trans hs2.bp)
  · rw [hbits k hk hf, hwrite.fr hne, hs2.fr]
  · obtain ⟨rfl, rfl, rfl⟩ := inputsAre_unique hin' hin
    rw [hbits k List.not_mem_nil (fun hzn => hf ⟨hzn.1, by omega⟩), hwrite.masked k hmask, hs2.fr]
  · exact hframe.halted.trans ((hwrite.halted hne).trans hs2.halted)

end Sys2Proof.Machine

/-! ## Arithmetic (O19 to O23), and the frames of the carry commands and of division (O28, O29)

`ADD`, `SUB` and `MUL` write C of the state after the inputs and nothing else of it. For `DIV` and `MOD` every
`DivMod` gives the words of one integer quotient whose remainder is smaller than the divisor, and such words
hold their numbers unless the division is -32768 / -1. -/

namespace Sys2Proof.Machine

/-! ### The carry flag (`43_arithmetic.md` R171, R172) -/

theorem carryIn_eq (fr : Word) :
    carryIn fr = if fr.getLsbD 2 = true ∧ fr.getLsbD 3 = true then 1 else 0 := by
  simp [carryIn, cFlag, ceFlag]

theorem setCarry_fr_getLsbD (b : Bool) (s : State) (k : Nat) :
    (setCarry b s).fr.getLsbD k = if k = 2 then b else s.fr.getLsbD k :=
  withBit_getLsbD s.fr 2 b k (by decide)

/-- An instruction whose command writes C and nothing else delivers its output with every other bit of `FR`
as it was. -/
theorem exec_setCarry_default {i : Instr} {s : State} {out : Word} {b : Bool} (h : Runs i.conf s)
    (hcmd : commandMeaning i (input0Of i.conf s) (input1Of i.conf s) (afterInputs i.conf s) =
      .ok out (setCarry b (afterInputs i.conf s))) :
    ∃ t : State, exec i s = .next (deliver i.conf out t) ∧
      t = { afterInputs i.conf s with fr := t.fr } ∧
      ∀ k, t.fr.getLsbD k = if k = 2 then b else s.fr.getLsbD k :=
  ⟨setCarry b (afterInputs i.conf s), exec_default h hcmd, rfl, setCarry_fr_getLsbD b (afterInputs i.conf s)⟩

/-! ### `ADD` and `SUB` (`43_arithmetic.md` R165, R166) -/

/-- Settles O19: the command is the rule, with the carry in read off `FR` after the inputs, which leave it. -/
theorem addResultAndCarry : Obligations.AddResultAndCarry := by
  refine fun c s => ⟨rfl, fun hruns => ?_⟩
  have hadd := exec_setCarry_default (i := .add c) hruns rfl
  rw [carryIn_eq] at hadd
  exact hadd

/-- The exact difference modulo 2^16 is the difference of words. -/
theorem ofInt_sub_sub (a b : Word) (n : Nat) :
    BitVec.ofInt 16 ((a.toNat : Int) - (b.toNat : Int) - (n : Int)) = a - b - BitVec.ofNat 16 n := by
  rw [eq_sub_iff_add_eq, eq_sub_iff_add_eq]
  calc BitVec.ofInt 16 ((a.toNat : Int) - b.toNat - n) + BitVec.ofNat 16 n + b
    _ = BitVec.ofInt 16 (((a.toNat : Int) - b.toNat - n) + n + b.toNat) := by
      simp only [BitVec.ofInt_add, BitVec.ofInt_natCast, BitVec.ofNat_toNat, BitVec.setWidth_eq]
    _ = BitVec.ofInt 16 a.toNat := by rw [sub_add_cancel, sub_add_cancel]
    _ = a := by rw [BitVec.ofInt_natCast, BitVec.ofNat_toNat, BitVec.setWidth_eq]

/-- Settles O20: as for `ADD`, with the exact difference for the sum. -/
theorem subResultAndBorrow : Obligations.SubResultAndBorrow := by
  refine fun c s => ⟨rfl, fun hruns => ?_⟩
  have hsub := exec_setCarry_default (i := .sub c) hruns rfl
  rw [ofInt_sub_sub, carryIn_eq] at hsub
  exact hsub

/-! ### `MUL` (`43_arithmetic.md` R167) -/

theorem ofNat_toNat_mul (a b : Word) : BitVec.ofNat 16 (a.toNat * b.toNat) = a * b := by
  simp only [BitVec.ofNat_mul, BitVec.ofNat_toNat, BitVec.setWidth_eq]

theorem mulCarry_of_zero {a b : Word} (rule : MulCarryRule) (h : a = 0 ∨ b = 0) :
    mulCarry rule a b = false := by
  cases rule with
  | openCarry => exact if_pos h
  | unsignedProduct =>
    have hproduct : a.toNat * b.toNat = 0 := by rcases h with rfl | rfl <;> simp
    simp [mulCarry, hproduct]

/-- Where both inputs are non-negative no reading of the product is left open. -/
theorem mulCarry_of_nonneg {a b : Word} (rule : MulCarryRule) (ha : a.toNat < 0x8000) (hb : b.toNat < 0x8000) :
    mulCarry rule a b = decide (65536 ≤ a.toNat * b.toNat) := by
  by_cases hzero : a = 0 ∨ b = 0
  · exact (mulCarry_of_zero rule hzero).trans (mulCarry_of_zero .unsignedProduct hzero).symm
  · cases rule with
    | unsignedProduct => rfl
    | openCarry => exact (if_neg hzero).trans (if_pos ⟨ha, hb⟩)

/-- Settles O21: C is `MulCarry` of the inputs, which is settled on the inputs named whatever the rule. -/
theorem mulResultAndCarry : Obligations.MulResultAndCarry := by
  refine fun c s => ⟨rfl, fun hruns => ?_⟩
  obtain ⟨t, hexec, hstate, hbits⟩ := exec_setCarry_default (i := .mul c) hruns rfl
  rw [ofNat_toNat_mul] at hexec
  refine ⟨t, _, hexec, hstate, hbits, fun hrule => ?_, fun ⟨ha, hb⟩ => ?_, fun hzero => ?_⟩
  · exact congrArg (fun rule => mulCarry rule (input0Of c s) (input1Of c s)) hrule
  · exact mulCarry_of_nonneg _ ha hb
  · exact mulCarry_of_zero _ hzero

/-! ### Quotients of integers -/

/-- What R168 and R169 ask of a quotient under any rounding: its remainder is smaller than the divisor. -/
def IsQuotient (x y q : Int) : Prop := (x - q * y).natAbs < y.natAbs

theorem isQuotient_tdiv {y : Int} (x : Int) (hy : y ≠ 0) : IsQuotient x y (x.tdiv y) := by
  unfold IsQuotient
  rw [mul_comm, ← Int.tmod_def, Int.natAbs_tmod]
  exact Nat.mod_lt _ (Int.natAbs_pos.2 hy)

/-- The remainder of the floor lies between zero and the divisor, and is not the divisor. -/
theorem fmod_bounds {y : Int} (x : Int) (hy : y ≠ 0) :
    (0 ≤ x.fmod y ∧ x.fmod y < y) ∨ (y < x.fmod y ∧ x.fmod y ≤ 0) := by
  rcases lt_or_gt_of_ne hy with hneg | hpos
  · obtain ⟨_, hlow, hhigh⟩ := (Int.fdiv_fmod_unique' hneg).1 ⟨rfl, rfl⟩
    exact .inr ⟨hlow, hhigh⟩
  · exact .inl ⟨Int.fmod_nonneg_of_pos x hpos, Int.fmod_lt_of_pos x hpos⟩

theorem isQuotient_fdiv {y : Int} (x : Int) (hy : y ≠ 0) : IsQuotient x y (x.fdiv y) := by
  have hbounds := fmod_bounds x hy
  unfold IsQuotient
  rw [mul_comm, ← Int.fmod_def]
  omega

/-- An inexact quotient may be rounded up. -/
theorem isQuotient_fdiv_add_one {x y : Int} (hy : y ≠ 0) (hinexact : x.fdiv y * y ≠ x) :
    IsQuotient x y (x.fdiv y + 1) := by
  have hbounds := fmod_bounds x hy
  have hsum := Int.fdiv_mul_add_fmod x y
  have hremainder : x - (x.fdiv y + 1) * y = x.fmod y - y := by linarith
  unfold IsQuotient
  rw [hremainder]
  omega

/-- A quotient of 16-bit numbers is one itself, but for -32768 / -1. -/
theorem IsQuotient.bounds {x y q : Int} (h : IsQuotient x y q) (hlow : -32768 ≤ x) (hhigh : x ≤ 32767)
    (hfits : ¬ (x = -32768 ∧ y = -1)) : -32768 ≤ q ∧ q ≤ 32767 := by
  unfold IsQuotient at h
  rcases (by omega : y = 1 ∨ y = -1 ∨ 2 ≤ y.natAbs) with rfl | rfl | hy
  · omega
  · omega
  · have hproduct : q.natAbs * y.natAbs < 32768 + y.natAbs := by
      rw [← Int.natAbs_mul]
      omega
    have hsmall : q.natAbs < 32768 := by
      by_contra hlarge
      have hle := Nat.mul_le_mul_right y.natAbs (Nat.le_of_not_lt hlarge)
      omega
    omega

/-! ### `DivMod` (`43_arithmetic.md` R168, R169) -/

/-- The words of a quotient and of its remainder. -/
def quotientWords (a b : Word) (q : Int) : Word × Word :=
  (BitVec.ofInt 16 q, BitVec.ofInt 16 (a.toInt - q * b.toInt))

theorem toInt_ne_zero {b : Word} (h : b ≠ 0) : b.toInt ≠ 0 :=
  fun hzero => h (BitVec.eq_of_toInt_eq hzero)

/-- The one division whose quotient does not fit is -32768 / -1. -/
theorem overflows_iff (a b : Word) : (a.toInt = -32768 ∧ b.toInt = -1) ↔ (a = 0x8000 ∧ b = 0xFFFF) := by
  rw [← BitVec.toInt_inj, ← BitVec.toInt_inj]
  rfl

/-- Unless -32768 / -1 the words of a quotient and of its remainder hold these numbers. -/
theorem toInt_quotientWords {a b : Word} {q : Int} (h : IsQuotient a.toInt b.toInt q)
    (hfits : ¬ (a = 0x8000 ∧ b = 0xFFFF)) :
    (quotientWords a b q).1.toInt = q ∧ (quotientWords a b q).2.toInt = a.toInt - q * b.toInt := by
  have ha := BitVec.two_mul_toInt_lt (x := a)
  have ha' := BitVec.le_two_mul_toInt (x := a)
  have hb := BitVec.two_mul_toInt_lt (x := b)
  have hb' := BitVec.le_two_mul_toInt (x := b)
  have hq := h.bounds (by omega) (by omega) (mt (overflows_iff a b).1 hfits)
  unfold IsQuotient at h
  constructor
  · exact BitVec.toInt_ofInt_eq_self (by decide) (by omega) (by omega)
  · exact BitVec.toInt_ofInt_eq_self (by decide) (by omega) (by omega)

/-- Every `DivMod` gives the words of a quotient: the floor for a non-negative dividend and a positive divisor,
and by default the quotient rounded toward zero. -/
theorem exists_divMod_eq_quotientWords (rule : DivModRule) {a b : Word} (hb : b ≠ 0)
    (hfits : ¬ (a = 0x8000 ∧ b = 0xFFFF)) :
    ∃ q, divMod rule a b = quotientWords a b q ∧ IsQuotient a.toInt b.toInt q ∧
      (0 ≤ a.toInt ∧ 0 < b.toInt → q = a.toInt / b.toInt) ∧
      (rule = .truncate → q = a.toInt.tdiv b.toInt) := by
  have hb' := toInt_ne_zero hb
  cases rule with
  | truncate =>
    exact ⟨_, rfl, isQuotient_tdiv _ hb', fun ⟨ha, _⟩ => Int.tdiv_eq_ediv_of_nonneg ha, fun _ => rfl⟩
  | openRounding =>
    unfold divMod
    dsimp only
    rw [if_neg (mt (overflows_iff a b).1 hfits)]
    split
    · exact ⟨_, rfl, isQuotient_fdiv _ hb', fun ⟨_, hpos⟩ => Int.fdiv_eq_ediv_of_nonneg _ hpos.le, nofun⟩
    · next hup =>
      obtain ⟨hopen, _⟩ := not_or.1 hup
      obtain ⟨hsigns, hinexact⟩ := not_or.1 hopen
      exact ⟨_, rfl, isQuotient_fdiv_add_one hb' hinexact, fun h => absurd h hsigns, nofun⟩

theorem divCommand_of_ne_zero {v1 : Word} (v0 : Word) (s : State) (h : v1 ≠ 0) :
    divCommand v0 v1 s = .ok (divMod s.params.divMod v0 v1).1 s := if_neg h

theorem modCommand_of_ne_zero {v1 : Word} (v0 : Word) (s : State) (h : v1 ≠ 0) :
    modCommand v0 v1 s = .ok (divMod s.params.divMod v0 v1).2 s := if_neg h

/-- The numbers that a `DivMod` gives for a division whose quotient fits. -/
theorem divMod_results (rule : DivModRule) {a b : Word} (hb : b ≠ 0)
    (hfits : ¬ (a = 0x8000 ∧ b = 0xFFFF)) :
    let q := (divMod rule a b).1.toInt
    let r := (divMod rule a b).2.toInt
    (0 ≤ a.toInt ∧ 0 < b.toInt → q = a.toInt / b.toInt ∧ r = a.toInt % b.toInt) ∧
      (q * b.toInt + r = a.toInt ∧ r.natAbs < b.toInt.natAbs) ∧
      (rule = .truncate → q = a.toInt.tdiv b.toInt ∧ r = a.toInt.tmod b.toInt) := by
  obtain ⟨q, heq, hquotient, hfloor, htruncate⟩ := exists_divMod_eq_quotientWords rule hb hfits
  obtain ⟨hq, hr⟩ := toInt_quotientWords hquotient hfits
  rw [heq, hq, hr]
  refine ⟨fun hsigns => ⟨hfloor hsigns, ?_⟩, ⟨add_sub_cancel _ _, hquotient⟩,
    fun hrule => ⟨htruncate hrule, ?_⟩⟩
  · rw [hfloor hsigns, Int.emod_def, mul_comm]
  · rw [htruncate hrule, Int.tmod_def, mul_comm]

/-- The default for -32768 / -1 (the spec's decision D9). -/
theorem divMod_truncate_overflow : divMod .truncate 0x8000 0xFFFF = (0x8000, 0) := by decide

/-- Settles O22: `DIV` and `MOD` deliver the two words of `DivMod`. In -32768 / -1 the divisor is negative, so
only the last clause speaks of it. -/
theorem divisionResults : Obligations.DivisionResults := by
  refine fun c s => ⟨⟨rfl, rfl⟩, fun hruns hb => ?_⟩
  intro a b
  refine ⟨(divMod s.params.divMod a b).1, (divMod s.params.divMod a b).2,
    exec_default (i := .div c) hruns (divCommand_of_ne_zero _ _ hb),
    exec_default (i := .mod c) hruns (modCommand_of_ne_zero _ _ hb), ?_⟩
  by_cases hoverflow : a = 0x8000 ∧ b = 0xFFFF
  · obtain ⟨ha, hb'⟩ := hoverflow
    rw [ha, hb']
    refine ⟨fun ⟨_, hpos⟩ => absurd hpos (by decide), fun h => absurd ⟨rfl, rfl⟩ h, fun hrule =>
      ⟨fun h => absurd ⟨rfl, rfl⟩ h, fun _ => ?_⟩⟩
    rw [hrule, divMod_truncate_overflow]
    exact ⟨rfl, rfl⟩
  · obtain ⟨hfloor, hdivision, htruncate⟩ := divMod_results s.params.divMod hb hoverflow
    exact ⟨hfloor, fun _ => hdivision, fun hrule =>
      ⟨fun _ => htruncate hrule, fun h => absurd h hoverflow⟩⟩

/-! ### Division by zero (`43_arithmetic.md` R173) -/

theorem trigger_eq (n : Nat) (s : State) :
    trigger n s = { s with ir := if s.params.variant = .markII then s.ir ||| interruptBit n else s.ir } := by
  unfold trigger
  cases s.params.variant <;> rfl

theorem divideByZero_eq (s : State) :
    divideByZero s = .ok (Config.freeWord s.draws)
      { s with
        draws := s.draws + 1
        ir := if s.params.variant = .markII then s.ir ||| 0x0010 else s.ir } := by
  unfold divideByZero
  rw [trigger_eq]
  rfl

/-- Settles O23: for a zero divisor both commands are `DivideByZero`. -/
theorem divisionByZeroTriggersArith : Obligations.DivisionByZeroTriggersArith := by
  intro c s hruns hzero t
  have hcmd : divideByZero (afterInputs c s) = .ok (Config.freeWord s.draws) t := divideByZero_eq _
  exact ⟨exec_default (i := .div c) hruns ((if_pos hzero).trans hcmd),
    exec_default (i := .mod c) hruns ((if_pos hzero).trans hcmd)⟩

/-! ### The frames -/

/-- `ADD`, `SUB` and `MUL` write C alone (`43_arithmetic.md` R172). -/
theorem commandMeaning_setCarry {i : Instr} {c : Conf} {v0 v1 out : Word} {s t : State}
    (hi : i = .add c ∨ i = .sub c ∨ i = .mul c) (h : commandMeaning i v0 v1 s = .ok out t) :
    ∃ carry, t = setCarry carry s := by
  rcases hi with rfl | rfl | rfl <;> (cases h; exact ⟨_, rfl⟩)

/-- Settles O28: the frame of the output around that of a command that writes C alone. -/
theorem frameOfCarryCommands : Obligations.FrameOfCarryCommands := by
  intro c s t i hi hb hc h
  have hlisted : i = .add c ∨ i = .sub c ∨ i = .mul c := by simpa using hi
  obtain rfl : i.conf = c := by rcases hlisted with rfl | rfl | rfl <;> rfl
  obtain ⟨v0, v1, out, s2, s3, hin, hcmd, hframe⟩ := exec_outputFrame hb hc h
  obtain ⟨carry, rfl⟩ := commandMeaning_setCarry hlisted hcmd
  rw [inputsAre_state hin] at hframe
  refine ⟨hframe.sp, hframe.bp, hframe.ir, hframe.halted, hframe.params, hframe.pins,
    fun k hk hf => ?_, hframe.memory⟩
  rw [hframe.flags k List.not_mem_nil hf, setCarry_fr_getLsbD, if_neg (List.mem_singleton.not.1 hk)]

/-- `DIV` and `MOD` write `IR` and the count of free words alone, and of `IR` bit 4 alone, for a zero divisor. -/
theorem commandMeaning_division {i : Instr} {c : Conf} {v0 v1 out : Word} {s t : State}
    (hi : i = .div c ∨ i = .mod c) (h : commandMeaning i v0 v1 s = .ok out t) :
    t = { s with ir := t.ir, draws := t.draws } ∧ (v1 ≠ 0 → t.ir = s.ir) ∧
      ∀ k, k ≠ 4 → t.ir.getLsbD k = s.ir.getLsbD k := by
  have hcases : t = s ∨ (v1 = 0 ∧ t = { trigger 4 s with draws := s.draws + 1 }) := by
    rcases hi with rfl | rfl
    · exact divCommand_ok h
    · exact modCommand_ok h
  rcases hcases with rfl | ⟨hzero, rfl⟩
  · exact ⟨rfl, fun _ => rfl, fun _ _ => rfl⟩
  · rw [trigger_eq]
    refine ⟨rfl, fun hne => absurd hzero hne, fun k hk => ?_⟩
    dsimp only
    split
    · rw [BitVec.getLsbD_or, interruptBit_getLsbD_of_ne hk, Bool.or_false]
    · rfl

/-- Settles O29: the frame of the output around that of the division, whose divisor is the one fetched. -/
theorem frameOfDivision : Obligations.FrameOfDivision := by
  intro c s t i hi hb hc h
  have hlisted : i = .div c ∨ i = .mod c := by simpa using hi
  obtain rfl : i.conf = c := by rcases hlisted with rfl | rfl <;> rfl
  obtain ⟨v0, v1, out, s2, s3, hin, hcmd, hframe⟩ := exec_outputFrame hb hc h
  obtain ⟨hstate, hir, hbits⟩ := commandMeaning_division hlisted hcmd
  have hs2 : s2.ir = s.ir := (sameControl_of_inputsAre hin).ir
  have hs3 : s3 = { afterInputs i.conf s with ir := s3.ir, draws := s3.draws, device := s2.device } := by
    rw [hstate, inputsAre_state hin]
    rfl
  rw [hs2] at hir hbits
  rw [hs3] at hframe
  refine ⟨hframe.sp, hframe.bp, hframe.halted, fun _ _ _ hin' hne => ?_, fun k hk => ?_, hframe.params,
    hframe.pins, hframe.flags, hframe.memory⟩
  · obtain ⟨_, rfl, _⟩ := inputsAre_unique hin hin'
    exact hframe.ir.trans (hir hne)
  · rw [hframe.ir]
    exact hbits k hk

end Sys2Proof.Machine

/-! ## The logic, shift and byte commands (O24)

The model joins the moved bits by concatenation, as the source does; the rules' pseudocode masks and shifts. A
half of such a concatenation, padded with zeros, is a shift or a mask of the word it was cut from. -/

namespace Sys2Proof.Machine

/-! ### Concatenations as shifts and masks (`00_scope.md` R12)

A word of `m + n` bits, cut into a high part of `m` bits and a low part of `n` bits. -/

/-- A concatenation is the or of its two halves, each padded with zeros. -/
theorem append_eq_or {m n : Nat} {x : BitVec m} {y : BitVec n} {high low : BitVec (m + n)}
    (hhigh : high = x ++ 0#n) (hlow : low = 0#m ++ y) : x ++ y = high ||| low := by
  rw [hhigh, hlow, BitVec.or_append, BitVec.or_zero, BitVec.zero_or]

theorem and_lowMask {m n : Nat} (v : BitVec (m + n)) :
    v &&& (0#m ++ BitVec.allOnes n) = 0#m ++ v.extractLsb' 0 n := by
  calc v &&& (0#m ++ BitVec.allOnes n)
    _ = (v.extractLsb' n m ++ v.extractLsb' 0 n) &&& (0#m ++ BitVec.allOnes n) := by
      rw [BitVec.extractLsb'_append_extractLsb']
    _ = 0#m ++ v.extractLsb' 0 n := by rw [BitVec.and_append, BitVec.and_zero, BitVec.and_allOnes]

theorem and_highMask {m n : Nat} (v : BitVec (m + n)) :
    v &&& (BitVec.allOnes m ++ 0#n) = v.extractLsb' n m ++ 0#n := by
  calc v &&& (BitVec.allOnes m ++ 0#n)
    _ = (v.extractLsb' n m ++ v.extractLsb' 0 n) &&& (BitVec.allOnes m ++ 0#n) := by
      rw [BitVec.extractLsb'_append_extractLsb']
    _ = v.extractLsb' n m ++ 0#n := by rw [BitVec.and_append, BitVec.and_zero, BitVec.and_allOnes]

/-! ### The outputs in the form of the rules' pseudocode (`44_logic_shift.md` R183 to R190) -/

theorem not_eq_xor (v : Word) : ~~~ v = v ^^^ 0xFFFF := BitVec.xor_allOnes.symm

theorem signExtendByte_eq (v : Word) :
    signExtendByte v = if v.getLsbD 7 then 0xFF00 ||| (v &&& 0x00FF) else v &&& 0x00FF := by
  have hlow : v &&& 0x00FF = 0#8 ++ v.extractLsb' 0 8 := and_lowMask (m := 8) (n := 8) v
  have hsign : (v.extractLsb' 0 8).msb = v.getLsbD 7 := by simp [BitVec.msb_eq_getLsbD_last]
  unfold signExtendByte
  rw [BitVec.signExtend_eq_append_of_le (by decide), BitVec.cast_eq, hsign]
  split
  · exact append_eq_or (x := BitVec.allOnes 8) rfl hlow
  · exact hlow.symm

theorem shiftLeft_eq (v : Word) : shiftLeft v = v <<< 1 :=
  (BitVec.shiftLeft_eq_concat_of_lt (n := 1) (x := v) (by decide)).symm

theorem shiftRight_eq (v : Word) : shiftRight v = v >>> 1 :=
  (BitVec.ushiftRight_eq_extractLsb'_of_lt (by decide)).symm

theorem rotateLeft_eq (v : Word) : rotateLeft v = (v <<< 1) ||| (v >>> 15) :=
  append_eq_or (BitVec.shiftLeft_eq_concat_of_lt (by decide))
    (BitVec.ushiftRight_eq_extractLsb'_of_lt (by decide))

theorem swapBytes_eq (v : Word) : swapBytes v = (v <<< 8) ||| (v >>> 8) :=
  append_eq_or (BitVec.shiftLeft_eq_concat_of_lt (by decide))
    (BitVec.ushiftRight_eq_extractLsb'_of_lt (by decide))

theorem shiftRightArith_eq (v : Word) : shiftRightArith v = (v &&& (0x8000 : Word)) ||| (v >>> 1) :=
  append_eq_or (and_highMask (m := 1) (n := 15) v) (shiftRight_eq v).symm

/-- The bit moved to the top is `v <<< 15`, whose other bits are gone whether masked off before or not. -/
theorem rotateRight_eq (v : Word) : rotateRight v = (v >>> 1) ||| ((v &&& 1) <<< 15) := by
  have hmask : v &&& 1 = 0#15 ++ v.extractLsb' 0 1 := and_lowMask (m := 15) (n := 1) v
  have hmoved : (v &&& 1) <<< 15 = v.extractLsb' 0 1 ++ 0#15 := by
    rw [BitVec.shiftLeft_eq_concat_of_lt (by decide), BitVec.cast_eq, hmask,
      BitVec.extractLsb'_append_eq_right]
  rw [BitVec.or_comm]
  exact append_eq_or hmoved (shiftRight_eq v).symm

/-! ### The instructions -/

/-- A command that only computes delivers its function of the inputs and leaves the state as they do. -/
theorem exec_compute_default {i : Instr} {s : State} {f : Word → Word → Word} {out : Word} (h : Runs i.conf s)
    (hcmd : commandMeaning i = compute f) (hout : f (input0Of i.conf s) (input1Of i.conf s) = out) :
    exec i s = .next (deliver i.conf out (afterInputs i.conf s)) := by
  refine exec_default h ?_
  rw [hcmd, compute, hout]

/-- Settles O24: each of the commands only computes, and its output is that of its rule. -/
theorem logicAndShiftOutputs : Obligations.LogicAndShiftOutputs := by
  refine fun c s => ⟨⟨rfl, rfl, rfl, rfl, rfl, rfl, rfl, rfl, rfl, rfl, rfl⟩, fun hruns => ?_⟩
  exact ⟨exec_compute_default (i := .and c) hruns rfl rfl,
    exec_compute_default (i := .or c) hruns rfl rfl,
    exec_compute_default (i := .xor c) hruns rfl rfl,
    exec_compute_default (i := .not c) hruns rfl (not_eq_xor _),
    exec_compute_default (i := .signext c) hruns rfl (signExtendByte_eq _),
    exec_compute_default (i := .rol c) hruns rfl (rotateLeft_eq _),
    exec_compute_default (i := .ror c) hruns rfl (rotateRight_eq _),
    exec_compute_default (i := .bswap c) hruns rfl (swapBytes_eq _),
    exec_compute_default (i := .asr c) hruns rfl (shiftRightArith_eq _),
    exec_compute_default (i := .lsl c) hruns rfl (shiftLeft_eq _),
    exec_compute_default (i := .lsr c) hruns rfl (shiftRight_eq _)⟩

end Sys2Proof.Machine

/-! ## Control (O25, O26), the frame of its commands (O33), and the sequence that only they leave (O34)

`SETIP` and `ADDIP` are the same transfer with two targets; its two register writes refuse their values with the
same fault, so it is one condition that decides it. -/

namespace Sys2Proof.Machine

/-! ### The commands (`45_control.md` R200 to R202) -/

/-- A transfer whose target is odd or that sets a reserved bit of `FR` is undefined. -/
theorem transfer_illegal {target bits : Word} {s : State}
    (h : ¬ (isEven target ∧ (s.fr ||| bits) &&& reservedFr s.params = 0)) :
    transfer target bits s = .fault .reservedBit := by
  unfold transfer
  by_cases heven : isEven target
  · have hreserved : (s.fr ||| bits) &&& reservedFr s.params ≠ 0 := fun hlegal => h ⟨heven, hlegal⟩
    rw [writeIp_even s heven, Res.bind_ok,
      writeFr_reserved (s := { s with ip := target }) hreserved, Res.bind_fault]
  · rw [writeIp_odd s heven, Res.bind_fault]

theorem intrCommand_legal {v0 : Word} (v1 : Word) {s : State} (hv : s.params.variant = .markII)
    (h : v0 &&& reservedIr = 0) : intrCommand v0 v1 s = .ok v0 { s with ir := s.ir ||| v0 } := by
  simp only [intrCommand, hv, if_pos h]

theorem intrCommand_reserved {v0 : Word} (v1 : Word) {s : State} (hv : s.params.variant = .markII)
    (h : v0 &&& reservedIr ≠ 0) : intrCommand v0 v1 s = .fault .reservedBit := by
  simp only [intrCommand, hv, if_neg h]

theorem intrCommand_markIIL (v0 v1 : Word) {s : State} (hv : s.params.variant = .markIIL) :
    intrCommand v0 v1 s = .fault .noInterruptRegister := by
  simp only [intrCommand, hv]

/-! ### What the instructions complete with -/

/-- Settles O25: both commands are the transfer in the state after the inputs, whose `IP` is at the next
instruction. -/
theorem transfersSetIpAndFlags : Obligations.TransfersSetIpAndFlags := by
  refine fun c s => ⟨⟨rfl, rfl⟩, fun hruns => ?_⟩
  intro fr legal abs rel
  refine ⟨fun ⟨heven, hlegal⟩ => ?_, fun hillegal => ?_, fun ⟨heven, hlegal⟩ => ?_, fun hillegal => ?_⟩
  · exact exec_default (i := .setip c) hruns (transfer_legal (s := afterInputs c s) heven hlegal)
  · exact exec_default_fault (i := .setip c) hruns (transfer_illegal (s := afterInputs c s) hillegal)
  · exact exec_default (i := .addip c) hruns (transfer_legal (s := afterInputs c s) heven hlegal)
  · exact exec_default_fault (i := .addip c) hruns (transfer_illegal (s := afterInputs c s) hillegal)

/-- Settles O26: the inputs keep the variant, which with `input0` decides the command. -/
theorem intrTriggersInterrupts : Obligations.IntrTriggersInterrupts := by
  refine fun c s => ⟨rfl, fun hruns => ⟨fun hv hlegal => ?_, fun hv hreserved => ?_, fun hv => ?_⟩⟩
  · have hcmd := intrCommand_legal (s := afterInputs c s) (input1Of c s) hv hlegal
    exact exec_default (i := .intr c) hruns hcmd
  · have hcmd := intrCommand_reserved (s := afterInputs c s) (input1Of c s) hv hreserved
    exact exec_default_fault (i := .intr c) hruns hcmd
  · have hcmd := intrCommand_markIIL (s := afterInputs c s) (input0Of c s) (input1Of c s) hv
    exact exec_default_fault (i := .intr c) hruns hcmd

/-! ### The frame -/

/-- `SETIP`, `ADDIP` and `INTR`: what one may write of the state `s` after the inputs `v0` and `v1`
(`45_control.md` R200 to R202). -/
structure ControlWrite (c : Conf) (i : Instr) (v0 v1 : Word) (s t : State) : Prop where
  others : t = { s with ip := t.ip, fr := t.fr, ir := t.ir }
  ir : i ≠ .intr c → t.ir = s.ir
  fr : i = .intr c → t.fr = s.fr
  irBits : i = .intr c → ∀ k, v0.getLsbD k = false → t.ir.getLsbD k = s.ir.getLsbD k
  frBits : ∀ k, v1.getLsbD k = false ∨ s.fr.getLsbD k = true → t.fr.getLsbD k = s.fr.getLsbD k

/-- A word that is ORed into another changes the bits that it sets and the other had clear. -/
theorem or_getLsbD_of_absorbed {x v : Word} {k : Nat} (h : v.getLsbD k = false ∨ x.getLsbD k = true) :
    (x ||| v).getLsbD k = x.getLsbD k := by
  rw [BitVec.getLsbD_or]
  rcases h with hclear | hset
  · rw [hclear, Bool.or_false]
  · rw [hset, Bool.true_or]

theorem controlWrite_of_transfer {c : Conf} {i : Instr} (hi : i ≠ .intr c) {v0 v1 target out : Word}
    {s t : State} (h : transfer target v1 s = .ok out t) : ControlWrite c i v0 v1 s t := by
  obtain ⟨_, rfl, _, _⟩ := transfer_ok h
  exact ⟨rfl, fun _ => rfl, fun hintr => absurd hintr hi, fun hintr => absurd hintr hi,
    fun _ => or_getLsbD_of_absorbed⟩

theorem commandMeaning_controlWrite {c : Conf} {i : Instr}
    (hi : i ∈ ([.setip c, .addip c, .intr c] : List Instr)) {v0 v1 out : Word} {s t : State}
    (h : commandMeaning i v0 v1 s = .ok out t) : ControlWrite c i v0 v1 s t := by
  simp only [List.mem_cons, List.not_mem_nil, or_false] at hi
  rcases hi with rfl | rfl | rfl
  · exact controlWrite_of_transfer (i := .setip c) nofun h
  · exact controlWrite_of_transfer (i := .addip c) nofun h
  · obtain ⟨_, rfl, _, _⟩ := intrCommand_ok (v1 := v1) h
    exact ⟨rfl, fun hne => absurd rfl hne, fun _ => rfl, fun _ _ hk => or_getLsbD_of_absorbed (.inl hk),
      fun _ _ => rfl⟩

theorem conf_of_mem_control {c : Conf} {i : Instr}
    (hi : i ∈ ([.setip c, .addip c, .intr c] : List Instr)) : i.conf = c := by
  simp only [List.mem_cons, List.not_mem_nil, or_false] at hi
  rcases hi with rfl | rfl | rfl <;> rfl

/-- Settles O33: the frame of the output around that of the command, which ORs an input into one register. -/
theorem frameOfControl : Obligations.FrameOfControl := by
  intro c s t i hi hb hc h
  obtain rfl := conf_of_mem_control hi
  obtain ⟨v0, v1, out, s2, s3, hin, hcmd, hframe⟩ := exec_outputFrame hb hc h
  have hwrite := commandMeaning_controlWrite hi hcmd
  have hs2 := sameControl_of_inputsAre hin
  have hs3 : s3 = { afterInputs i.conf s with
      ip := s3.ip, fr := s3.fr, ir := s3.ir, device := s2.device } := by
    rw [hwrite.others, inputsAre_state hin]
    rfl
  have hir := hframe.ir
  have hbits := hframe.flags
  rw [hs3] at hframe
  refine ⟨hframe.sp, hframe.bp, hframe.halted, hframe.params, hframe.pins, fun hne => ?_,
    fun hintr k hk hf => ?_, fun _ _ _ hin' => ?_, hframe.memory⟩
  · rw [hir, hwrite.ir hne, hs2.ir]
  · rw [hbits k hk hf, hwrite.fr hintr, hs2.fr]
  · obtain ⟨rfl, rfl, rfl⟩ := inputsAre_unique hin' hin
    refine ⟨fun hintr k hclear => ?_, fun k habsorbed hf => ?_⟩
    · rw [hir, hwrite.irBits hintr k hclear, hs2.ir]
    · rw [← hs2.fr] at habsorbed
      rw [hbits k List.not_mem_nil (fun hzn => hf ⟨hzn.1, by omega⟩), hwrite.frBits k habsorbed, hs2.fr]

/-! ### The sequence (`45_control.md` R203) -/

theorem CommandEffect.ip_eq {i : Instr} {s t : State} (h : CommandEffect i s t) :
    t.ip = s.ip ∨ ∃ c, i = .setip c ∨ i = .addip c := by
  cases h with
  | keepsRegisters same _ => rw [same]; exact .inl rfl
  | transfer writer _ _ => exact .inr writer
  | arith _ _ => exact .inl (trigger_ip 4 s)
  | carry | halt | frset | bpset | spset | intr => exact .inl rfl

theorem putOutput_ip {r : OutputMode} {v : Word} {s t : State} {u : Unit}
    (h : putOutput r v s = .ok u t) : t.ip = s.ip := by
  obtain ⟨hstate, _⟩ := putOutput_frame h
  rw [hstate]

/-- Settles O34: the inputs of an instruction leave `IP` at the next one, as its skipping does, and of what
follows them only a transfer writes it. -/
theorem onlyTransfersLeaveTheSequence : Obligations.OnlyTransfersLeaveTheSequence := by
  intro i s t hi hb h
  rcases exec_next h with hdone | ⟨_, hbus, _, _⟩
  · rcases execute_ok hdone with ⟨_, rfl⟩ | ⟨_, v0, v1, out, s2, s3, s4, hin, hcmd, hout, rfl⟩
    · rw [skipped_eq]
    · have hcommand : s3.ip = s2.ip :=
        (commandMeaning_effect hcmd).ip_eq.resolve_right fun ⟨c, htransfer⟩ =>
          htransfer.elim (hi c).1 (hi c).2
      calc (modifyFlags i.conf.f out s4).ip
        _ = s4.ip := modifyFlags_ip _ _ _
        _ = s3.ip := putOutput_ip hout
        _ = s2.ip := hcommand
        _ = nextIp i.conf s := by rw [inputsAre_state hin]
  · exact absurd hb (execute_bus_refused hbus)

end Sys2Proof.Machine

/-! ## Interrupts: the loop, the entry and the return (O45, O47 to O50)

A pass of the interrupt loop clears its own bit of `IR` and, if it takes its interrupt, moves `SP` and masks
that interrupt alone, so no pass decides whether another one takes its own. -/

namespace Sys2Proof.Machine

/-! ### A pass of the interrupt loop (`60_exceptions.md` R228 step 2) -/

/-- The pass for interrupt `n` takes it: it is triggered and not masked. -/
def passTakes (s : State) (n : Nat) : Bool := s.ir.getLsbD n && unmasked n s

theorem willTake_eq_passTakes (s : State) : willTake s = passTakes (sampled s) := rfl

theorem unmasked_iff {n : Nat} {s : State} : unmasked n s = true ↔ n < 4 ∨ s.fr.getLsbD n = true := by
  simp [unmasked]

/-- What a pass does to the registers that later passes read. -/
structure PassEffect (n : Nat) (s t : State) : Prop where
  ir : t.ir = s.ir &&& ~~~ interruptBit n
  sp : t.sp = if passTakes s n = true then s.sp - 4 else s.sp
  fr : t.fr = if passTakes s n = true ∧ 4 ≤ n then s.fr &&& ~~~ interruptBit n else s.fr

theorem serveInterrupt_effect {n : Nat} {s t : State} {u : Unit} (h : serveInterrupt n s = .ok u t) :
    PassEffect n s t := by
  rcases serveInterrupt_cases h with ⟨hbit, rfl⟩ | ⟨_, hmasked, rfl⟩ | ⟨hbit, hunmasked, htake⟩
  · have hnot : passTakes t n = false := by rw [passTakes, hbit, Bool.false_and]
    exact ⟨(and_not_interruptBit_of_getLsbD hbit).symm, by simp [hnot], by simp [hnot]⟩
  · have hnot : passTakes s n = false := by rw [passTakes, hmasked, Bool.and_false]
    exact ⟨rfl, by simp [hnot], by simp [hnot]⟩
  · have htakes : passTakes s n = true := by rw [passTakes, hbit, hunmasked, Bool.true_and]
    rw [(takeInterrupt_state htake).1]
    exact ⟨rfl, by simp [htakes], by simp [htakes]⟩

theorem and_not_interruptBit_getLsbD (v : Word) (n k : Nat) :
    (v &&& ~~~ interruptBit n).getLsbD k = (v.getLsbD k && !decide (k = n)) := by
  by_cases hk : k < 16
  · rw [BitVec.getLsbD_and, BitVec.getLsbD_not, decide_eq_true hk, Bool.true_and]
    by_cases hkn : k = n
    · subst hkn
      rw [interruptBit_getLsbD k k hk]
    · rw [interruptBit_getLsbD_of_ne hkn, decide_eq_false hkn]
  · rw [BitVec.getLsbD_of_ge _ k (by omega), BitVec.getLsbD_of_ge v k (by omega), Bool.false_and]

/-- A pass masks its own interrupt at most. -/
theorem PassEffect.fr_getLsbD {n : Nat} {s t : State} (h : PassEffect n s t) (k : Nat) :
    t.fr.getLsbD k = (s.fr.getLsbD k && !(decide (4 ≤ k ∧ k = n) && passTakes s k)) := by
  rw [h.fr]
  split
  · next htaken =>
    rw [and_not_interruptBit_getLsbD]
    by_cases hk : k = n
    · subst hk
      simp [htaken]
    · simp [hk]
  · next hnot =>
    by_cases hk : k = n
    · subst hk
      cases hp : passTakes s k <;> simp_all
    · simp [hk]

/-- A pass leaves the trigger and the mask of every other interrupt. -/
theorem PassEffect.passTakes_eq {n k : Nat} {s t : State} (h : PassEffect n s t) (hk : k ≠ n) :
    passTakes t k = passTakes s k := by
  have hir : t.ir.getLsbD k = s.ir.getLsbD k := by
    rw [h.ir, and_not_interruptBit_getLsbD, decide_eq_false hk, Bool.not_false, Bool.and_true]
  have hfr : t.fr.getLsbD k = s.fr.getLsbD k := by
    simp [h.fr_getLsbD, hk]
  unfold passTakes unmasked
  rw [hir, hfr]

/-! ### The interrupt loop -/

theorem serveInterrupts_ir {ns : List Nat} {s t : State} {u : Unit} (h : serveInterrupts ns s = .ok u t) :
    t.ir = clearBits ns s.ir := by
  induction ns generalizing s with
  | nil => cases h; rfl
  | cons n rest ih =>
    obtain ⟨_, s1, hfirst, hrest⟩ := Res.bind_eq_ok.1 h
    rw [ih hrest, (serveInterrupt_effect hfirst).ir]
    rfl

/-- The interrupts that a loop takes after its first pass are those it would have taken before it. -/
theorem passTakes_after_first {n : Nat} {rest : List Nat} {s t : State} (hdistinct : (n :: rest).Nodup)
    (h : PassEffect n s t) : ∀ k ∈ rest, passTakes t k = passTakes s k := by
  intro k hk
  have hne : k ≠ n := fun heq => (List.nodup_cons.1 hdistinct).1 (heq ▸ hk)
  exact h.passTakes_eq hne

/-- Two words are pushed for every interrupt taken (`60_exceptions.md` R231). -/
theorem serveInterrupts_sp {ns : List Nat} {s t : State} {u : Unit} (hdistinct : ns.Nodup)
    (h : serveInterrupts ns s = .ok u t) :
    t.sp = s.sp - BitVec.ofNat 16 (4 * (ns.filter (passTakes s)).length) := by
  induction ns generalizing s with
  | nil => cases h; exact (BitVec.sub_zero _).symm
  | cons n rest ih =>
    obtain ⟨_, s1, hfirst, hrest⟩ := Res.bind_eq_ok.1 h
    have heffect := serveInterrupt_effect hfirst
    have hsame := List.filter_congr (passTakes_after_first hdistinct heffect)
    rw [ih (List.nodup_cons.1 hdistinct).2 hrest, hsame, heffect.sp, List.filter_cons]
    split
    · rw [List.length_cons, Nat.mul_succ, Nat.add_comm, BitVec.ofNat_add, BitVec.sub_sub]
      rfl
    · rfl

/-- The enable bits of the maskable interrupts taken are cleared, and no other bit of `FR` changes. -/
theorem serveInterrupts_fr_getLsbD {ns : List Nat} {s t : State} {u : Unit} (hdistinct : ns.Nodup)
    (h : serveInterrupts ns s = .ok u t) (k : Nat) :
    t.fr.getLsbD k = (s.fr.getLsbD k && !(decide (4 ≤ k ∧ k ∈ ns) && passTakes s k)) := by
  induction ns generalizing s with
  | nil => cases h; simp
  | cons n rest ih =>
    obtain ⟨_, s1, hfirst, hrest⟩ := Res.bind_eq_ok.1 h
    have heffect := serveInterrupt_effect hfirst
    rw [ih (List.nodup_cons.1 hdistinct).2 hrest, heffect.fr_getLsbD]
    by_cases hk : k = n
    · have hlater : k ∉ rest := hk ▸ (List.nodup_cons.1 hdistinct).1
      simp [hk, hk ▸ hlater]
    · simp [hk, heffect.passTakes_eq hk]

/-- Where memory is all RAM, the entry of an interrupt leaves the table's word in `IP`. -/
theorem takeInterrupt_ip {n : Nat} {s t : State} {u : Unit} (hram : s.params.memMap = [])
    (h : takeInterrupt n s = .ok u t) : t.ip = wordAt t (BitVec.ofNat 16 (2 * n)) := by
  obtain ⟨s1, s2, s3, target, hcause, hip, hentry, _, rfl⟩ := takeInterrupt_ok h
  have hram2 : s2.params.memMap = [] := by rw [(push_ok hip).1, (push_ok hcause).1]; exact hram
  have hmem : s3.mem = s2.mem := by rw [memRead_state hentry]
  calc target
    _ = wordAt s2 (BitVec.ofNat 16 (2 * n)) := memRead_word_allRam hram2 hentry
    _ = wordAt s3 (BitVec.ofNat 16 (2 * n)) := by unfold wordAt byteAt; rw [hmem]

/-- Passes that run from the highest number down end in the handler of the lowest one taken
(`60_exceptions.md` R230). -/
theorem serveInterrupts_lowest {m : Nat} {ns : List Nat} {s t : State} {u : Unit}
    (hram : s.params.memMap = []) (hsorted : ns.Pairwise (· > ·)) (hm : m ∈ ns) (htake : passTakes s m = true)
    (hlower : ∀ k ∈ ns, k < m → passTakes s k = false) (h : serveInterrupts ns s = .ok u t) :
    t.ip = wordAt t (BitVec.ofNat 16 (2 * m)) ∧ t.halted = false := by
  induction ns generalizing s with
  | nil => cases hm
  | cons n rest ih =>
    obtain ⟨_, s1, hfirst, hrest⟩ := Res.bind_eq_ok.1 h
    obtain ⟨habove, hsorted'⟩ := List.pairwise_cons.1 hsorted
    have hlater : ∀ k ∈ rest, passTakes s1 k = passTakes s k := fun k hk =>
      (serveInterrupt_effect hfirst).passTakes_eq (Nat.ne_of_lt (habove k hk))
    by_cases hmn : m = n
    · subst hmn
      have hnone : ∀ k ∈ rest, passTakes s1 k = false := fun k hk =>
        (hlater k hk).trans (hlower k (List.mem_cons_of_mem _ hk) (habove k hk))
      rw [serveInterrupts_not_taken hnone] at hrest
      cases hrest
      obtain ⟨hbit, hunmasked⟩ := Bool.and_eq_true_iff.1 htake
      rw [serveInterrupt_taken hbit hunmasked] at hfirst
      have hip := takeInterrupt_ip (by exact hram) hfirst
      exact ⟨hip, show s1.halted = false by rw [(takeInterrupt_state hfirst).1]⟩
    · have hm' : m ∈ rest := (List.mem_cons.1 hm).resolve_left hmn
      refine ih ?_ hsorted' hm' ((hlater m hm').trans htake) (fun k hk hlt => ?_) hrest
      · rw [serveInterrupt_params hfirst]; exact hram
      · exact (hlater k hk).trans (hlower k (List.mem_cons_of_mem _ hk) hlt)

/-- The loop with one trigger is the pass of that interrupt. -/
theorem serveInterrupts_sole {n : Nat} {ns : List Nat} {s : State} (hn : n ∈ ns)
    (honly : ∀ k, k ≠ n → s.ir.getLsbD k = false) : serveInterrupts ns s = serveInterrupt n s := by
  induction ns with
  | nil => cases hn
  | cons k rest ih =>
    unfold serveInterrupts
    by_cases hk : k = n
    · subst hk
      cases hserve : serveInterrupt k s with
      | fault | bus => rfl
      | ok u t =>
        refine serveInterrupts_untriggered fun j => ?_
        rw [(serveInterrupt_effect hserve).ir, and_not_interruptBit_getLsbD]
        by_cases hj : j = k
        · simp [hj]
        · rw [honly j hj, Bool.false_and]
    · rw [serveInterrupt_untriggered (honly k hk), Res.bind_ok, ih (List.mem_of_ne_of_mem (Ne.symm hk) hn)]

/-! ### The interrupt phase of the SPU Mark II -/

theorem interruptPhase_markII_ok {s t : State} {u : Unit} (hv : s.params.variant = .markII)
    (h : interruptPhase s = .ok u t) :
    ((pendingBits s).getLsbD 0 = true ∧ resetSequence (sampled s) = .ok () t) ∨
      ((pendingBits s).getLsbD 0 = false ∧ pendingBits s &&& reservedIr = 0 ∧
        serveInterrupts interruptOrder (sampled s) = .ok () t) := by
  unfold interruptPhase at h
  simp only [hv] at h
  obtain ⟨_, hrest⟩ := interruptPhaseII_ok h
  rw [pendingBits_eq, consumePins_eq_afterSample] at hrest
  exact hrest

/-- Settles O49: a reset clears `IR`, and the loop clears every bit but RST and the reserved ones, which were
not set. -/
theorem interruptPhaseEmptiesIr : Obligations.InterruptPhaseEmptiesIr := by
  intro s t hv h
  rcases interruptPhase_markII_ok hv h with ⟨_, hreset⟩ | ⟨hrst, hlegal, hserve⟩
  · obtain ⟨_, _, _, _, rfl⟩ := resetSequence_ok hreset
    rfl
  · rw [serveInterrupts_ir hserve, clearBits_interruptOrder]
    refine (and_eq_zero_iff _ _).2 fun k hk => ?_
    by_cases hk0 : k = 0
    · rw [hk0]; exact hrst
    · refine (and_eq_zero_iff _ _).1 hlegal k ?_
      have hmask : (0xFF09 : Word) = reservedIr ||| interruptBit 0 := by decide
      rwa [hmask, BitVec.getLsbD_or, interruptBit_getLsbD_of_ne hk0, Bool.or_false] at hk

/-- Settles O48: the passes run from 7 down to 1, and the samples of the pins leave the registers. -/
theorem lowestInterruptRunsFirst : Obligations.LowestInterruptRunsFirst := by
  intro s t m hv hram hrst hm htake hlower h
  rw [willTake_eq_passTakes] at htake hlower ⊢
  have hserve : serveInterrupts interruptOrder (sampled s) = .ok () t := by
    rcases interruptPhase_markII_ok hv h with ⟨hset, _⟩ | ⟨_, _, hserve⟩
    · exact absurd hset (Bool.eq_false_iff.1 hrst)
    · exact hserve
  have hdistinct : interruptOrder.Nodup := by decide
  have hsorted : interruptOrder.Pairwise (· > ·) := by decide
  obtain ⟨hip, hhalted⟩ := serveInterrupts_lowest (s := sampled s) hram hsorted hm htake hlower hserve
  have hsp := serveInterrupts_sp hdistinct hserve
  refine ⟨hip, hhalted, (interruptPhase_frame h).bp, hsp, fun k => ?_⟩
  have hmaskable : (4 ≤ k ∧ k ∈ interruptOrder) ↔ (4 ≤ k ∧ k < 8) := by
    simp only [interruptOrder, List.mem_cons, List.not_mem_nil, or_false]
    omega
  have hfr := serveInterrupts_fr_getLsbD hdistinct hserve k
  rwa [decide_eq_decide.2 hmaskable] at hfr

/-- One interrupt alone is pending, from `IR` or from a pin: the interrupt phase is its pass. -/
theorem interruptPhase_sole {n : Nat} {s : State} (hv : s.params.variant = .markII)
    (hbus : (nextSample s).bus = false) (hn : n ∈ interruptOrder) (hpending : pendingBits s = interruptBit n) :
    interruptPhase s = serveInterrupt n (sampled s) := by
  obtain ⟨_, hrst, hlegal⟩ := interruptOrder_legal n hn
  rw [interruptPhase_markII hv hbus, hpending, hrst, if_neg Bool.false_ne_true, if_pos hlegal]
  refine serveInterrupts_sole hn fun k hk => ?_
  show (pendingBits s).getLsbD k = false
  rw [hpending, interruptBit_getLsbD_of_ne hk]

theorem sampled_sole_cleared {n : Nat} {s : State} (hpending : pendingBits s = interruptBit n) :
    (sampled s).ir &&& ~~~ interruptBit n = 0 := by
  show pendingBits s &&& _ = 0
  rw [hpending, BitVec.and_not_self]

/-- The state in which the only pending interrupt is entered. -/
theorem interruptPhase_sole_taken {n : Nat} {s : State} (hv : s.params.variant = .markII)
    (hbus : (nextSample s).bus = false) (hn : n ∈ interruptOrder) (hpending : pendingBits s = interruptBit n)
    (hunmasked : unmasked n s = true) : interruptPhase s = takeInterrupt n { afterSample s with ir := 0 } := by
  have hbit : (sampled s).ir.getLsbD n = true := by
    show (pendingBits s).getLsbD n = true
    rw [hpending, interruptBit_getLsbD n n (interruptOrder_legal n hn).1, decide_eq_true rfl]
  rw [interruptPhase_sole hv hbus hn hpending, serveInterrupt_taken hbit hunmasked, sampled_sole_cleared hpending]
  rfl

/-- Settles O47: the pass of the masked interrupt clears the one bit of `IR`. -/
theorem maskedTriggerIsLost : Obligations.MaskedTriggerIsLost := by
  intro s n hv hbus hn hpending hfr
  rw [← interruptBit_eq_ofNat] at hpending
  have hn' : n ∈ interruptOrder ∧ ¬ n < 4 := by
    clear hpending hfr
    revert n
    decide
  have hnot : ((sampled s).ir.getLsbD n && unmasked n (sampled s)) = false := by
    have hmasked : unmasked n (sampled s) = false :=
      Bool.eq_false_iff.2 fun h => (unmasked_iff.1 h).elim hn'.2 (Bool.eq_false_iff.1 hfr)
    rw [hmasked, Bool.and_false]
  rw [interruptPhase_sole hv hbus hn'.1 hpending, serveInterrupt_not_taken hnot, sampled_sole_cleared hpending]
  rfl

/-! ### Interrupt entry and return on the default platform (`60_exceptions.md` R231, R236) -/

theorem takeInterrupt_even_entry {n : Nat} {s : State} (h : DefaultPlatform s) (hsp : isEven s.sp)
    (heven : isEven (wordAt (entered n s) (BitVec.ofNat 16 (2 * n)))) :
    takeInterrupt n s = .ok () { entered n s with
      ip := wordAt (entered n s) (BitVec.ofNat 16 (2 * n))
      fr := if 4 ≤ n then s.fr &&& ~~~ interruptBit n else s.fr } := by
  rw [takeInterrupt_default h hsp, writeIp_even _ heven, Res.bind_ok]
  split <;> rfl

theorem mem_interruptOrder {n : Nat} (hn : n ∈ [1, 2, 4, 5, 6, 7]) : n ∈ interruptOrder := by
  revert n
  decide

/-- Settles O45: the phase enters the only pending interrupt, and every access of the entry succeeds. -/
theorem interruptEntry : Obligations.InterruptEntry := by
  intro s n hv hd hsp hbus hn hpending hunmasked
  rw [← interruptBit_eq_ofNat n] at hpending ⊢
  intro t target heven
  rw [interruptPhase_sole_taken hv hbus (mem_interruptOrder hn) hpending (unmasked_iff.2 hunmasked)]
  exact takeInterrupt_even_entry (s := { afterSample s with ir := 0 }) hd hsp heven

/-- An interrupt that was entered on the default platform had an even table entry. -/
theorem takeInterrupt_default_ok {n : Nat} {s t : State} {u : Unit} (hd : DefaultPlatform s)
    (h : takeInterrupt n s = .ok u t) :
    isEven s.sp ∧ isEven t.ip ∧ t = { entered n s with
      ip := t.ip, fr := if 4 ≤ n then s.fr &&& ~~~ interruptBit n else s.fr } := by
  obtain ⟨_, hsp, hip, _⟩ := takeInterrupt_state h
  refine ⟨hsp, hip, ?_⟩
  by_cases heven : isEven (wordAt (entered n s) (BitVec.ofNat 16 (2 * n)))
  · rw [takeInterrupt_even_entry hd hsp heven] at h
    cases h
    rfl
  · rw [takeInterrupt_odd_entry hd hsp heven] at h
    cases h

theorem wordAt_storeWord_other (s : State) {a b : Word} (v : Word) (h : ∀ x, inWord a x → ¬ inWord b x) :
    wordAt { s with mem := storeWord s.mem b v } a = wordAt s a := by
  obtain ⟨hlow, hhigh⟩ := not_or.1 (h a (.inl rfl))
  obtain ⟨hlow', hhigh'⟩ := not_or.1 (h (a + 1) (.inr rfl))
  unfold wordAt
  rw [byteAt_storeWord, byteAt_storeWord, if_neg hhigh, if_neg hlow, if_neg hhigh', if_neg hlow']

/-- What the two pops of the return idiom find: `IP` on top, and the cause below it. -/
theorem wordAt_entered (n : Nat) (s : State) :
    wordAt (entered n s) (s.sp - 4) = s.ip ∧ wordAt (entered n s) (s.sp - 4 + 2) = interruptBit n := by
  have hcause : s.sp - 4 + 2 = s.sp - 2 := by bv_omega
  have hapart : ∀ x, inWord (s.sp - 2) x → ¬ inWord (s.sp - 4) x := by
    rintro x (rfl | rfl) (h | h) <;> bv_omega
  refine ⟨wordAt_storeWord { s with mem := storeWord s.mem (s.sp - 2) (interruptBit n) } (s.sp - 4) s.ip, ?_⟩
  rw [hcause]
  exact (wordAt_storeWord_other { s with mem := storeWord s.mem (s.sp - 2) (interruptBit n) } s.ip hapart).trans
    (wordAt_storeWord s (s.sp - 2) (interruptBit n))

/-- ORing the cause into `FR` undoes the masking of the entry (`60_exceptions.md` R237). -/
theorem flags_of_return {n : Nat} {fr : Word} (h : n < 4 ∨ fr.getLsbD n = true) :
    (if 4 ≤ n then fr &&& ~~~ interruptBit n else fr) ||| interruptBit n =
      if n < 4 then fr ||| interruptBit n else fr := by
  by_cases hn : n < 4
  · rw [if_neg (by omega), if_pos hn]
  · rw [if_pos (by omega), if_neg hn]
    apply BitVec.eq_of_getLsbD_eq
    intro k _
    rw [BitVec.getLsbD_or, and_not_interruptBit_getLsbD]
    by_cases hk : k = n
    · have hset := h.resolve_left hn
      rw [hk, hset, interruptBit_getLsbD n n ?_]
      · simp
      · exact Nat.lt_of_not_le fun hge => Bool.false_ne_true ((BitVec.getLsbD_of_ge fr n hge).symm.trans hset)
    · rw [interruptBit_getLsbD_of_ne hk, decide_eq_false hk, Bool.not_false, Bool.and_true, Bool.or_false]

/-- The causes of NMI and BUS are bits that no variant reserves. -/
theorem interruptBit_and_reservedFr {n : Nat} (p : Params) (hn : n < 4) :
    interruptBit n &&& reservedFr p = 0 := by
  refine (and_eq_zero_iff _ _).2 fun k hk => interruptBit_getLsbD_of_ne ?_
  rintro rfl
  rw [reservedFr_getLsbD_low p k hn] at hk
  cases hk

/-- The return idiom `SETIP [i0:pop] [i1:pop]` (`60_exceptions.md` R236). -/
def returnIdiom : Conf := ⟨.always, .pop, .pop, .no, .discard⟩

theorem exec_returnIdiom {s : State} (h : Ready s) (heven : isEven (wordAt s s.sp))
    (hlegal : (s.fr ||| wordAt s (s.sp + 2)) &&& reservedFr s.params = 0) :
    exec (.setip returnIdiom) s = .next { s with
      ip := wordAt s s.sp, sp := s.sp + 2 + 2, fr := s.fr ||| wordAt s (s.sp + 2) } :=
  ((transfersSetIpAndFlags returnIdiom s).2 ⟨h, rfl⟩).1 ⟨heven, hlegal⟩

/-- Settles O50: the idiom pops the two words that the entry pushed, and transfers to the one with the bits of
the other. -/
theorem returnFromInterrupt : Obligations.ReturnFromInterrupt := by
  intro s t n _ hd hip hlegal _ hunmasked h
  rw [← interruptBit_eq_ofNat n]
  obtain ⟨hsp, htip, ht⟩ := takeInterrupt_default_ok hd h
  have hparams : t.params = s.params := takeInterrupt_params h
  have hback : t.sp + 2 + 2 = s.sp := by
    rw [ht]
    show s.sp - 4 + 2 + 2 = s.sp
    bv_omega
  have hsp' : isEven t.sp := by
    rw [← hback] at hsp
    rwa [isEven, getLsbD_zero_add_two, getLsbD_zero_add_two] at hsp
  have hready : Ready t := ⟨by rw [DefaultPlatform, hparams]; exact hd, htip, hsp'⟩
  obtain ⟨htop, hbelow⟩ : wordAt t t.sp = s.ip ∧ wordAt t (t.sp + 2) = interruptBit n := by
    rw [ht]
    exact wordAt_entered n s
  have hflags : t.fr ||| interruptBit n = if n < 4 then s.fr ||| interruptBit n else s.fr := by
    rw [ht]
    exact flags_of_return hunmasked
  have hlegal' : (t.fr ||| interruptBit n) &&& reservedFr t.params = 0 := by
    rw [hflags, hparams]
    split
    · next hn4 => exact or_and_eq_zero hlegal (interruptBit_and_reservedFr s.params hn4)
    · exact hlegal
  have hexec := exec_returnIdiom hready (by rwa [htop]) (by rwa [hbelow])
  rwa [htop, hbelow, hflags, hback] at hexec

end Sys2Proof.Machine

/-! ## Bus errors: what a refused access leaves (O39, O55), and where it is undefined (O57)

An operation that answers a value was refused none of its accesses. So an instruction that is refused one does
not complete, and where it would complete without bus errors it ends in the bus error itself. -/

namespace Sys2Proof.Machine

/-! ### The trigger of BUS (`60_exceptions.md` R240) -/

/-- An instruction that completes sets no BUS trigger, unless it is `INTR`. -/
theorem execute_ir_getLsbD_two {i : Instr} {s t : State} {u : Unit} (hi : ∀ c, i ≠ .intr c)
    (h : execute i.conf (commandMeaning i) s = .ok u t) : t.ir.getLsbD 2 = s.ir.getLsbD 2 := by
  rcases execute_ok h with ⟨_, rfl⟩ | ⟨_, v0, v1, out, s2, s3, s4, hin, hcmd, hout, rfl⟩
  · rw [skipped_eq]
  · rw [modifyFlags_ir, (sameControl_of_putOutput hout).ir, ← (sameControl_of_inputsAre hin).ir]
    rcases (commandMeaning_effect hcmd).ir_eq with hsame | ⟨_, harith⟩ | ⟨c, hintr⟩
    · rw [hsame]
    · rw [harith, BitVec.getLsbD_or, interruptBit_getLsbD_of_ne (by decide), Bool.or_false]
    · exact absurd hintr (hi c)

/-- What a bus error leaves, but for the model's own count of drawn words and the devices' state. -/
theorem busAbort_eq (s at' : State) : busAbort s at' =
    { s with ir := s.ir ||| 0x0004, draws := (busAbort s at').draws, device := (busAbort s at').device } := rfl

/-- Settles O39: a completed instruction would have left the bit clear, so the instruction was undone. -/
theorem busErrorCancelsTheInstruction : Obligations.BusErrorCancelsTheInstruction := by
  intro i s t hi h hclear hset
  rcases exec_next h with hdone | ⟨at', _, hv, rfl⟩
  · rw [execute_ir_getLsbD_two hi hdone, hclear] at hset
    cases hset
  · exact ⟨hv, busAbort_eq s at'⟩

/-- Without devices a bus error leaves the devices' state, and no free word is drawn for it. -/
theorem busAbort_of_no_device {s at' : State} (h : hasDevice s.params = false) :
    busAbort s at' = { s with ir := s.ir ||| 0x0004, draws := at'.draws } := by
  rw [busAbort_eq, busAbort_draws, busAbort_device, h]
  rfl

/-! ### An operation that answers was refused no access -/

theorem not_refusesAny_nil (s : State) : ¬ refusesAny [] s := by
  simp [refusesAny]

theorem not_refusesAny_singleton {acc : Access} {s : State} (h : acc ∉ s.params.busErrors) :
    ¬ refusesAny [acc] s := by
  simpa [refusesAny] using h

theorem memRead_accepted {k : AccessKind} {w : Width} {a v : Word} {s t : State}
    (h : memRead k w a s = .ok v t) : ¬ refusesAny [⟨a, w, .read, k⟩] s := by
  obtain ⟨_, _, _, haccepted⟩ := memRead_ok h
  exact not_refusesAny_singleton haccepted

theorem memWrite_accepted {w : Width} {a v : Word} {s t : State} {u : Unit}
    (h : memWrite w a v s = .ok u t) : ¬ refusesAny [⟨a, w, .write, .data⟩] s := by
  obtain ⟨_, _, haccepted⟩ := memWrite_ok h
  exact not_refusesAny_singleton haccepted

theorem fetchInput_accepted {sel : Input} {v : Word} {s t : State} (h : fetchInput sel s = .ok v t) :
    ¬ refusesAny (inputAccess sel s.ip s.sp) s := by
  cases sel with
  | zero => exact not_refusesAny_nil s
  | peek => exact memRead_accepted h
  | imm | pop =>
    obtain ⟨_, _, hread, _⟩ := Res.bind_eq_ok.1 h
    exact memRead_accepted hread

theorem putOutput_accepted {r : OutputMode} {v : Word} {s t : State} {u : Unit}
    (h : putOutput r v s = .ok u t) :
    ¬ refusesAny (if r = .push then [⟨s.sp - 2, .word, .write, .data⟩] else []) s := by
  cases r with
  | discard => exact not_refusesAny_nil s
  | push =>
    have haccepted := memWrite_accepted (s := { s with sp := s.sp - 2 }) h
    exact haccepted

theorem secondInput_accepted {c : Conf} {s s1 s2 : State} {v0 v1 : Word}
    (h0 : fetchInput c.i0 (advance s) = .ok v0 s1) (h1 : fetchInput c.i1 s1 = .ok v1 s2) :
    ¬ refusesAny (inputAccess c.i1 (if c.i0 = .imm then s.ip + 4 else s.ip + 2)
      (if c.i0 = .pop then s.sp + 2 else s.sp)) s := by
  obtain ⟨hip, hsp⟩ := secondInput_place c s
  have haccepted := fetchInput_accepted h1
  rw [fetchInput_ok h0] at haccepted
  rw [← hip, ← hsp]
  exact haccepted

theorem commandMeaning_accepted {i : Instr} {s t u : State} {out : Word}
    (hin : InputsAre i.conf s (input0Of i.conf s) (input1Of i.conf s) t)
    (h : commandMeaning i (input0Of i.conf s) (input1Of i.conf s) t = .ok out u) :
    ¬ refusesAny (commandAccess i s) s := by
  have hstate := inputsAre_state hin
  generalize t.device = d at hstate
  subst hstate
  cases i with
  | get _ | load8 _ | load16 _ => have haccepted := memRead_accepted h; exact haccepted
  | set _ => have haccepted := memWrite_accepted (setCommand_ok h).2; exact haccepted
  | store8 _ => have haccepted := memWrite_accepted (store8Command_ok h).2; exact haccepted
  | store16 _ => have haccepted := memWrite_accepted (store16Command_ok h).2; exact haccepted
  | copy _ | cpuid _ | halt _ | frget _ | frset _ | bpget _ | bpset _ | spget _ | spset _ | add _ | sub _
  | mul _ | div _ | mod _ | and _ | or _ | xor _ | not _ | signext _ | rol _ | ror _ | bswap _ | asr _
  | lsl _ | lsr _ | setip _ | addip _ | intr _ => exact not_refusesAny_nil s

theorem output_accepted {i : Instr} {s s2 s3 s4 : State} {v1 out : Word} {u : Unit}
    (hin : InputsAre i.conf s (input0Of i.conf s) v1 s2)
    (hcmd : commandMeaning i (input0Of i.conf s) v1 s2 = .ok out s3)
    (hout : putOutput i.conf.r out s3 = .ok u s4) : ¬ refusesAny (outputAccess i s) s := by
  have hsp : s3.sp = if i = .spset i.conf then input0Of i.conf s else spAfterInputs i.conf s := by
    rw [commandMeaning_sp hcmd, inputsAre_state hin]
  have hparams : s3.params = s.params := (commandMeaning_params hcmd).trans (inputsAre_params hin)
  unfold outputAccess
  rw [← hsp]
  exact fun hrefused => putOutput_accepted hout (refusesAny_of_params hparams.symm hrefused)

/-- Where memory is all RAM, an instruction that completes was refused none of its accesses. -/
theorem execute_accepted {i : Instr} {s t : State} {u : Unit} (hram : s.params.memMap = [])
    (h : execute i.conf (commandMeaning i) s = .ok u t) : ¬ refuses i s := by
  rcases execute_ok h with ⟨hc, _⟩ | ⟨hc, v0, v1, out, s2, s3, s4, hin, hcmd, hout, _⟩
  · simp [refuses, accessesOf, hc]
  · obtain ⟨rfl, rfl⟩ := inputsAre_allRam hram hin
    have ⟨s1, hfetch0, hfetch1⟩ := hin
    rw [refuses_iff hc]
    rintro (hrefused | hrefused | hrefused | hrefused)
    · exact fetchInput_accepted hfetch0 hrefused
    · exact secondInput_accepted hfetch0 hfetch1 hrefused
    · exact commandMeaning_accepted hin hcmd hrefused
    · exact output_accepted hin hcmd hout hrefused

/-- Where memory is all RAM, a refused instruction that would complete without bus errors ends in the bus
error. -/
theorem exec_refused {i : Instr} {s t : State} (hram : s.params.memMap = [])
    (h : exec i (withoutBusErrors s) = .next t) (hrefused : refuses i s) :
    ∃ at', exec i s = finish s (.bus at') := by
  have hagrees := execute_agrees (i := i) hram
  have haccepted : ∀ t, execute i.conf (commandMeaning i) s = .ok () t → ¬ refuses i s :=
    fun _ => execute_accepted hram
  rw [exec_eq_runInstr] at h ⊢
  unfold runInstr at h ⊢
  generalize execute i.conf (commandMeaning i) s = r at hagrees haccepted ⊢
  generalize execute i.conf (commandMeaning i) (withoutBusErrors s) = r' at hagrees h
  cases hagrees with
  | refused _ at' _ => exact ⟨at', rfl⟩
  | ok _ t' => exact absurd hrefused (haccepted t' rfl)
  | fault e => cases h

/-! ### An access that the platform refuses (`20_memory.md` R56) -/

theorem checkAccess_refused {acc : Access} {s : State} (ha : acc.width = .word → isEven acc.addr)
    (hb : acc ∈ s.params.busErrors) : checkAccess acc s = .bus s := by
  have haligned : ¬ (acc.width = .word ∧ acc.addr.getLsbD 0 = true) :=
    fun ⟨hw, hodd⟩ => Bool.false_ne_true ((ha hw).symm.trans hodd)
  unfold checkAccess
  rw [if_neg haligned, if_pos hb]

theorem fetch16_refused {a : Word} {s : State} (ha : isEven a)
    (hb : (⟨a, .word, .read, .code⟩ : Access) ∈ s.params.busErrors) : fetch16 a s = .bus s := by
  simp only [fetch16, memRead, checkAccess_refused (fun _ => ha) hb, Res.bind_bus]

theorem push_refused {s : State} (v : Word) (hsp : isEven s.sp)
    (hb : (⟨s.sp - 2, .word, .write, .data⟩ : Access) ∈ s.params.busErrors) :
    push v s = .bus { s with sp := s.sp - 2 } := by
  have hcheck : checkAccess ⟨s.sp - 2, .word, .write, .data⟩ { s with sp := s.sp - 2 } = _ :=
    checkAccess_refused (fun _ => isEven_sub_two hsp) hb
  simp only [push, memWrite, hcheck, Res.bind_bus]

/-- A refused instruction word ends the step in the bus error, with `IP` still at it. -/
theorem step_of_refused_word {s s1 : State} (hphase : interruptPhase s = .ok () s1) (hrun : s1.halted = false)
    (hip : isEven s1.ip) (hb : (⟨s1.ip, .word, .read, .code⟩ : Access) ∈ s1.params.busErrors) :
    step s = finish s1 (.bus s1) := by
  have hfetch : fetchInstr s1 = .bus s1 := by rw [fetchInstr, fetch16_refused hip hb, Res.bind_bus]
  unfold step cycle instructionPhase
  rw [hphase]
  simp only [hrun, hfetch, Bool.false_eq_true, if_false]

theorem finish_bus_markII {s at' : State} (hv : s.params.variant = .markII) :
    finish s (.bus at') = .next (busAbort s at') := by
  simp only [finish, hv]

theorem finish_bus_markIIL {s at' : State} (hv : s.params.variant = .markIIL) :
    finish s (.bus at') = .fault .busErrorOutsideInstruction := by
  simp only [finish, hv]

theorem hasDevice_eq_false {p : Params} (h : ∀ r ∈ p.memMap, r.kind ≠ .device) : hasDevice p = false := by
  simpa [hasDevice] using h

/-- Settles O55: a refused access ends the instruction, or the fetch of its word, in a bus error, which on the
SPU Mark II is undone with BUS triggered. -/
theorem refusedAccessTriggersBus : Obligations.RefusedAccessTriggersBus := by
  refine ⟨fun i s t hv hram h hrefused => ?_, fun s hv hquiet hrun hip hb => ?_⟩
  · obtain ⟨at', hexec⟩ := exec_refused hram h hrefused
    have hdevice : hasDevice s.params = false := hasDevice_eq_false (by rw [hram]; nofun)
    exact ⟨at'.draws, by rw [hexec, finish_bus_markII hv, busAbort_of_no_device hdevice]⟩
  · have hstep := step_of_refused_word (interruptPhase_undisturbed hquiet) hrun hip hb
    rw [finish_bus_markII (s := afterSample s) hv, busAbort_eq] at hstep
    have hir : (afterSample s).ir ||| 0x0004 = 0x0004 := by
      show s.ir ||| 0x0004 = 0x0004
      rw [hquiet.2]
      rfl
    rw [hir] at hstep
    refine ⟨_, _, hstep, fun hno => ?_⟩
    rw [busAbort_of_no_device (s := afterSample s) (hasDevice_eq_false hno)]
    exact ⟨rfl, rfl⟩

/-! ### Bus errors outside an instruction (`60_exceptions.md` R241, R247) -/

theorem step_of_phase_bus {s t : State} (h : interruptPhase s = .bus t) :
    step s = .fault .busErrorOutsideInstruction := by
  simp only [step, cycle, h]

theorem interruptPhase_busPin {s : State} (hv : s.params.variant = .markII) (hbus : (nextSample s).bus = true) :
    interruptPhase s = .fault .busErrorOutsideInstruction := by
  rw [← samplePins_eq_nextSample] at hbus
  simp only [interruptPhase, hv, interruptPhaseII, hbus, if_true]

theorem resetSequence_refused {s : State}
    (hb : (⟨0x0000, .word, .read, .code⟩ : Access) ∈ s.params.busErrors) : resetSequence s = .bus s := by
  have hentry : fetch16 0x0000 s = .bus s := fetch16_refused BitVec.getLsbD_zero hb
  rw [resetSequence, hentry, Res.bind_bus]

/-- What answers on the platform without bus errors answers where it is not refused. -/
theorem AgreesUnless.answers {α : Type} {p : Prop} {r : Res α} {a : α} {t' : State}
    (h : AgreesUnless p r (.ok a t')) (hp : ¬ p) : ∃ t, r = .ok a t := by
  cases h with
  | refused hrefused _ _ => exact absurd hrefused hp
  | ok _ t => exact ⟨t, rfl⟩

/-- Where memory is all RAM, a push that is not refused succeeds. -/
theorem push_allRam {s : State} (v : Word) (hram : s.params.memMap = []) (hsp : isEven s.sp)
    (hb : (⟨s.sp - 2, .word, .write, .data⟩ : Access) ∉ s.params.busErrors) :
    ∃ t, push v s = .ok () t ∧ t.sp = s.sp - 2 ∧ t.params = s.params := by
  have hagrees : AgreesUnless _ (push v s) (push v (withoutBusErrors s)) :=
    memWrite_agrees .word (s.sp - 2) v { s with sp := s.sp - 2 }
  rw [push_default (s := withoutBusErrors s) ⟨hram, rfl⟩ v hsp] at hagrees
  obtain ⟨t, hpush⟩ := hagrees.answers hb
  exact ⟨t, hpush, by rw [(push_ok hpush).1], by rw [(push_ok hpush).1]⟩

/-- A refused push or table read ends the entry of an interrupt in the bus error. -/
theorem takeInterrupt_refused {n : Nat} {s : State} (hsp : isEven s.sp)
    (hb : (⟨s.sp - 2, .word, .write, .data⟩ : Access) ∈ s.params.busErrors ∨
      (s.params.memMap = [] ∧
        ((⟨s.sp - 4, .word, .write, .data⟩ : Access) ∈ s.params.busErrors ∨
          (⟨BitVec.ofNat 16 (2 * n), .word, .read, .code⟩ : Access) ∈ s.params.busErrors))) :
    ∃ t, takeInterrupt n s = .bus t := by
  unfold takeInterrupt
  by_cases hcause : (⟨s.sp - 2, .word, .write, .data⟩ : Access) ∈ s.params.busErrors
  · exact ⟨_, by rw [push_refused (s := { s with halted := false }) _ hsp hcause, Res.bind_bus]⟩
  obtain ⟨hram, hlater⟩ := hb.resolve_left hcause
  obtain ⟨s1, hpush1, hsp1, hparams1⟩ :=
    push_allRam (s := { s with halted := false }) (interruptBit n) hram hsp hcause
  have heven1 : isEven s1.sp := by rw [hsp1]; exact isEven_sub_two hsp
  have hsecond : s1.sp - 2 = s.sp - 4 := by rw [hsp1]; bv_omega
  rw [hpush1, Res.bind_ok]
  by_cases hip : (⟨s.sp - 4, .word, .write, .data⟩ : Access) ∈ s.params.busErrors
  · exact ⟨_, by rw [push_refused _ heven1 (by rwa [hsecond, hparams1]), Res.bind_bus]⟩
  obtain ⟨s2, hpush2, _, hparams2⟩ :=
    push_allRam s1.ip (by rwa [hparams1]) heven1 (by rwa [hsecond, hparams1])
  have htable : (⟨BitVec.ofNat 16 (2 * n), .word, .read, .code⟩ : Access) ∈ s2.params.busErrors := by
    rw [hparams2, hparams1]
    exact hlater.resolve_left hip
  exact ⟨_, by rw [hpush2, Res.bind_ok, fetch16_refused (isEven_ofNat_two_mul n) htable, Res.bind_bus]⟩

/-- Settles O57: outside an instruction, and on the SPU Mark II-L anywhere, nothing turns the bus error into a
trigger. -/
theorem busErrorOutsideInstructionIsUndefined : Obligations.BusErrorOutsideInstructionIsUndefined := by
  refine ⟨fun s hv hbus => ?_, fun s hv hbus hrst hb => ?_, fun s n hv hbus hsp hn hpending htake hb => ?_,
    fun s hv hrst hrun hip hb => ?_, fun i s t hv hram h hrefused => ?_⟩
  · simp only [step, cycle, interruptPhase_busPin hv hbus]
  · refine step_of_phase_bus (t := sampled s) ?_
    rw [interruptPhase_markII hv hbus, if_pos hrst]
    exact resetSequence_refused hb
  · rw [← interruptBit_eq_ofNat] at hpending
    obtain ⟨_, hunmasked⟩ := Bool.and_eq_true_iff.1 htake
    obtain ⟨t, hentry⟩ := takeInterrupt_refused (s := { afterSample s with ir := 0 }) hsp hb
    exact step_of_phase_bus ((interruptPhase_sole_taken hv hbus hn hpending hunmasked).trans hentry)
  · rw [step_of_refused_word (interruptPhase_markIIL hv hrst) hrun hip hb]
    exact finish_bus_markIIL hv
  · obtain ⟨at', hexec⟩ := exec_refused hram h hrefused
    rw [hexec, finish_bus_markIIL hv]

end Sys2Proof.Machine

/-! ## Reset: the interrupt phase with RST pending (O51), and that of the SPU Mark II-L (O52) -/

namespace Sys2Proof.Machine

/-! ### The SPU Mark II (`70_reset_and_hazards.md` R260) -/

/-- RST comes before every other trigger (`60_exceptions.md` R228). -/
theorem interruptPhase_rst {s : State} (hv : s.params.variant = .markII)
    (hbus : (nextSample s).bus = false) (hrst : (pendingBits s).getLsbD 0 = true) :
    interruptPhase s = resetSequence (sampled s) := by
  rw [interruptPhase_markII hv hbus, if_pos hrst]

/-- Decision D3: a reset entry that is no legal value of `IP` is undefined. -/
theorem resetSequence_default_odd {s : State} (h : DefaultPlatform s)
    (hentry : ¬ isEven (wordAt s 0x0000)) : resetSequence s = .fault .reservedBit := by
  unfold resetSequence
  rw [fetch16_default h 0x0000 BitVec.getLsbD_zero, Res.bind_ok, writeIp_odd s hentry, Res.bind_fault]

/-- Settles O51: sampling the pins leaves memory alone, so the sequence reads its entry from the memory of
`s`. -/
theorem resetSequenceMarkII : Obligations.ResetSequenceMarkII := by
  intro s hv hd hbus hrst
  rw [interruptPhase_rst hv hbus hrst]
  exact ⟨fun heven => resetSequence_default (s := sampled s) hd heven,
    fun hodd => resetSequence_default_odd (s := sampled s) hd hodd⟩

/-! ### The SPU Mark II-L (`70_reset_and_hazards.md` R261) -/

theorem interruptPhase_markIIL_rst {s : State} (hv : s.params.variant = .markIIL)
    (hrst : (nextSample s).rst = true) :
    interruptPhase s = .ok () { afterSample s with ip := 0x0000, fr := 0, halted := false } := by
  unfold interruptPhase interruptPhaseL
  simp [hv, samplePins_eq_nextSample, hrst, consumePins_eq_afterSample]

/-- Settles O52: the phase is a case split on RST alone, and NMI, IRQ and BUS stand in neither case. -/
theorem interruptPhaseMarkIIL : Obligations.InterruptPhaseMarkIIL := by
  intro s hv
  exact ⟨interruptPhase_markIIL_rst hv, interruptPhase_markIIL hv⟩

end Sys2Proof.Machine
